-- ==== Sys2Proof/Word.lean ====
section
/-! DEFINITION. The two word types of WSFC: the byte of memory and wire, and the 64-bit register slot. -/

namespace Sys2Proof

/-- A byte of `MEM` or of a frame (00_scope R10, 20_memory R53). -/
abbrev Byte := BitVec 8

/-- A whole register slot, an address or a payload length: 64 bits (00_scope R8, 10_state R14). -/
abbrev Word := BitVec 64

end Sys2Proof
end

