-- ==== Sys2Proof/Config.lean ====
section
/-! DEFINITION. What an implementation fixes (the parameters of 00_scope R8) and the free values of the model. -/

namespace Sys2Proof

/-- The six named opcode classes, in the order of 30_encoding R72. The sentinel UNRECOGNIZED (class code 6)
and the reserved code 7 are codes without a name here: neither has a wire value. -/
inductive OpClass where
  | continuation | text | binary | close | ping | pong
  deriving DecidableEq, Repr

/-- The parameter `OPC_WIRE` of 00_scope R8: the 4-bit wire value of each named class (30_encoding R73). -/
structure OpcWire where
  continuation : BitVec 4
  text         : BitVec 4
  binary       : BitVec 4
  close        : BitVec 4
  ping         : BitVec 4
  pong         : BitVec 4
  deriving DecidableEq, Repr

/-- `OPC_WIRE` is required to be injective (00_scope R8, 30_encoding R73). -/
abbrev OpcWire.Distinct (w : OpcWire) : Prop :=
  [w.continuation, w.text, w.binary, w.close, w.ping, w.pong].Nodup

/-- The parameters the model takes (00_scope R8, 10_state R47). They stand in `State.params`, so that a
statement about every state is a statement about every build; no step changes them (log entry 3). -/
structure Params where
  /-- `MEM_SIZE`, the number of bytes of `MEM`. -/
  memSize : Nat
  /-- `OPC_WIRE`, the wire values of the six classes. -/
  opcWire : OpcWire
  deriving DecidableEq, Repr

/-- The constraints 00_scope R8 puts on the parameters. -/
abbrev Params.Valid (p : Params) : Prop :=
  1 ≤ p.memSize ∧ p.memSize ≤ 2 ^ 64 ∧ p.opcWire.Distinct

/-- The values the spec uses in its examples (00_scope R8): 16 MiB, and the wire values of 30_encoding R73
and of `opcode_table.json`. PRESUMED by the spec itself ("from general knowledge, not in source"), unsafe where
a statement rests on them; see log entry 3. -/
def Config.params : Params where
  memSize := 2 ^ 24
  opcWire := {
    continuation := 0x0, text := 0x1, binary := 0x2, close := 0x8, ping := 0x9, pong := 0xA }

/-- The free value behind `ANY_N` (00_scope R12): the `n`-th draw, `w` bits wide. No body, so nothing can be
proved of it; the machine draws a fresh `n` each time from `State.draws` (DESIGN CHOICE, safe; log entry 2). -/
opaque Config.any (w n : Nat) : BitVec w

/-- What the byte at address `a` held at power-on, which no rule gives (10_state R48, 93 U14 "any value").
No body (DESIGN CHOICE, safe; log entry 1). -/
opaque Config.powerOnByte (a : Nat) : Byte

end Sys2Proof
end

