-- ==== Sys2Proof/Machine/Operands.lean ====
section
/-! DEFINITION. The sub-units as pure functions (40_subunits R83 to R90): payload length, header bytes 0 and 1,
mask key, masking. No register and no memory is read here. -/

namespace Sys2Proof.Machine

/-! ### Big-endian numbers (00_scope R10, 20_memory R50) -/

/-- The number whose big-endian bytes are `bs`. -/
def beNat (bs : List Byte) : Nat := bs.foldl (fun acc b => acc * 256 + b.toNat) 0

/-- The low `n` bytes of `v`, most significant first. -/
def beBytes : (n : Nat) → (v : Nat) → List Byte
  | 0, _ => []
  | n + 1, v => BitVec.ofNat 8 (v / 256 ^ n) :: beBytes n v

/-! ### Payload-length serializer and deserializer (R83 to R86) -/

/-- Bytes of extended length a selector announces (R85: `ext_of`). -/
def extOf (sel : BitVec 7) : Nat :=
  if sel.toNat ≤ 125 then 0 else if sel.toNat = 126 then 2 else 8

/-- `len_class(L)` (R83): the selector and the number of extension bytes, the smallest form that holds `L`. -/
def lenClass (len : Word) : BitVec 7 × Nat :=
  if len.toNat < 126 then (len.setWidth 7, 0)
  else if len.toNat < 65536 then (126#7, 2)
  else (127#7, 8)

/-- `len_ext_bytes(L)` (R84): the low `ext` bytes of `L`, big-endian. -/
def lenExtBytes (len : Word) : List Byte := beBytes (lenClass len).2 len.toNat

/-- `len_decode(sel, e)` (R85): `e` is the list of the `ext_of(sel)` bytes after byte 1. -/
def lenDecode (sel : BitVec 7) (e : List Byte) : Word :=
  if sel.toNat ≤ 125 then sel.setWidth 64 else BitVec.ofNat 64 (beNat e)

/-- `hdr_len(sel, m)` (R86): offset of the payload from the frame's byte 0. -/
def hdrLen (sel : BitVec 7) (m : BitVec 1) : Nat := 2 + extOf sel + 4 * m.toNat

/-! ### Opcode classes (30_encoding R72, R73) -/

/-- The 3-bit class code of a named class (R72). -/
def classCode : OpClass → BitVec 3
  | .continuation => 0#3
  | .text => 1#3
  | .binary => 2#3
  | .close => 3#3
  | .ping => 4#3
  | .pong => 5#3

/-- The class code of the sentinel UNRECOGNIZED (R72). -/
def unrecognized : BitVec 3 := 6#3

/-- The named class a 3-bit code stands for; none for 6 (the sentinel) and 7 (reserved). -/
def classOfCode (c : BitVec 3) : Option OpClass :=
  if c = 0#3 then some .continuation
  else if c = 1#3 then some .text
  else if c = 2#3 then some .binary
  else if c = 3#3 then some .close
  else if c = 4#3 then some .ping
  else if c = 5#3 then some .pong
  else none

/-- `OPC_WIRE[c]` (R73). -/
def wireValue (w : OpcWire) : OpClass → BitVec 4
  | .continuation => w.continuation
  | .text => w.text
  | .binary => w.binary
  | .close => w.close
  | .ping => w.ping
  | .pong => w.pong

/-- The named class whose wire value is `v`, if there is one (R73). -/
def classNamed (w : OpcWire) (v : BitVec 4) : Option OpClass :=
  if v = w.continuation then some .continuation
  else if v = w.text then some .text
  else if v = w.binary then some .binary
  else if v = w.close then some .close
  else if v = w.ping then some .ping
  else if v = w.pong then some .pong
  else none

/-- `class_of(w)` (R73): the class code, 6 for a wire value no class has. -/
def classOf (w : OpcWire) (v : BitVec 4) : BitVec 3 :=
  match classNamed w v with
  | some c => classCode c
  | none => unrecognized

/-! ### Opcode/flags packer and parser (R87, R88) -/

/-- Byte 0 from its three fields: FIN in bit 7, the reserved bits in 6:4, the wire value in 3:0 (30_encoding R65). -/
def byte0 (fin : BitVec 1) (rsv : BitVec 3) (opc : BitVec 4) : Byte := fin ++ rsv ++ opc

/-- `pack_b0(fin, c)` (R87): reserved bits forced to 0. -/
def packB0 (w : OpcWire) (fin : BitVec 1) (c : OpClass) : Byte := byte0 fin 0#3 (wireValue w c)

/-- `pack_b1(m, sel)` (R87): MASK in bit 7, the selector in bits 6:0. -/
def packB1 (m : BitVec 1) (sel : BitVec 7) : Byte := m ++ sel

/-- FIN of byte 0: bit 7 (30_encoding R65). -/
def finOf (b0 : Byte) : BitVec 1 := b0.extractLsb' 7 1

/-- The reserved bits 6:4 of byte 0. -/
def rsvOf (b0 : Byte) : BitVec 3 := b0.extractLsb' 4 3

/-- The opcode's 4-bit wire value: bits 3:0 of byte 0. -/
def opcOf (b0 : Byte) : BitVec 4 := b0.extractLsb' 0 4

/-- The MASK flag: bit 7 of byte 1 (30_encoding R66). -/
def maskOf (b1 : Byte) : BitVec 1 := b1.extractLsb' 7 1

/-- The length-class selector: bits 6:0 of byte 1 (30_encoding R66). -/
def selOf (b1 : Byte) : BitVec 7 := b1.extractLsb' 0 7

/-- `parse_b0(b0)` (R88): FIN and the class code; bits 6:4 are dropped. -/
def parseB0 (w : OpcWire) (b0 : Byte) : BitVec 1 × BitVec 3 := (finOf b0, classOf w (opcOf b0))

/-- `parse_b1(b1)` (R88): the MASK flag and the selector. -/
def parseB1 (b1 : Byte) : BitVec 1 × BitVec 7 := (maskOf b1, selOf b1)

/-! ### The mask key (10_state R25, 30_encoding R68) and the masking unit (R90) -/

/-- `KEY[i mod 4]`: byte `i mod 4` of the key, byte 0 being bits 31:24 of the register. -/
def keyByte (key : BitVec 32) (i : Nat) : Byte := key.extractLsb' (24 - 8 * (i % 4)) 8

/-- The four key bytes in wire order. -/
def keyBytes (key : BitVec 32) : List Byte :=
  [keyByte key 0, keyByte key 1, keyByte key 2, keyByte key 3]

/-- The key register's value from the four wire bytes, the first in bits 31:24 (R25, R35). -/
def packKey (b0 b1 b2 b3 : Byte) : BitVec 32 := b0 ++ b1 ++ b2 ++ b3

/-- Masking from key index `i` on. -/
def maskFrom (key : BitVec 32) : (i : Nat) → List Byte → List Byte
  | _, [] => []
  | i, b :: bs => (b ^^^ keyByte key i) :: maskFrom key (i + 1) bs

/-- `xor_mask(key, d)` (R90): byte `i` of the result is `d[i] xor key[i mod 4]`. -/
def xorMask (key : BitVec 32) (d : List Byte) : List Byte := maskFrom key 0 d

/-- `rot(key, j)` (R91 d): `rot(key, j)[t] = key[(t + j) mod 4]`. -/
def rotKey (key : BitVec 32) (j : Nat) : BitVec 32 :=
  packKey (keyByte key j) (keyByte key (1 + j)) (keyByte key (2 + j)) (keyByte key (3 + j))

/-! ### The whole header (R89) -/

/-- `header_bytes(fin, c, m, key, L)` (R89). When `m` is 0 the key is not used. -/
def headerBytes (w : OpcWire) (fin : BitVec 1) (c : OpClass) (m : BitVec 1) (key : BitVec 32)
    (len : Word) : List Byte :=
  [packB0 w fin c, packB1 m (lenClass len).1] ++ lenExtBytes len
    ++ (if m = 1#1 then keyBytes key else [])

end Sys2Proof.Machine
end

