-- ==== Sys2Proof/Machine/State.lean ====
section
/-! DEFINITION. The state of WSFC (10_state), the reasons a step can stop, and the state after reset. -/

namespace Sys2Proof.Machine

/-- The completion codes (60_exceptions R144). `malformed` is reserved: no step produces it (42_decode R119). -/
inductive Completion where
  | ok | capacity | malformed | opcode | window | abandoned | overlap | badcmd
  deriving DecidableEq, Repr

/-- The 25 defined registers, in slot order (10_state R15). -/
inductive Reg where
  | cmd | status | txBase | txCap | txWptr | txRem
  | eFin | eOpc | eMask | eKey | eLen | eSrc | eFlen | eHlen
  | rxBase | rxValid
  | dFin | dOpc | dMask | dKey | dLen | dHlen | dFlen | dPaddr
  | aConsumed
  deriving DecidableEq, Repr

/-- The access classes of 10_state R14. -/
inductive Access where
  | readWrite | readOnly | trigger
  deriving DecidableEq, Repr

/-- A step of the host (00_scope R6): register write and read by slot (44_control R140, R141), memory write and
read (R142), and the hard reset of 70_reset_and_hazards R161. Slots are 0..31, at byte offset `8 * slot`. The
address of a host access to `MEM` is a natural number, since no rule gives it a width (log entry 7). -/
inductive HostOp where
  /-- `WR reg, v`. -/
  | wr (slot : BitVec 5) (v : Word)
  /-- `RD reg`. -/
  | rd (slot : BitVec 5)
  /-- `ST8 a, b`. -/
  | st8 (a : Nat) (b : Byte)
  /-- `LD8 a`. -/
  | ld8 (a : Nat)
  /-- The hard reset, however it is signalled (R161). -/
  | hardReset
  deriving DecidableEq, Repr

/-- What a host read returned. -/
inductive HostRead where
  /-- `RD` of the slot returned the value. -/
  | reg (slot : BitVec 5) (v : Word)
  /-- `LD8` of the address returned the byte. -/
  | byte (a : Nat) (b : Byte)
  deriving DecidableEq, Repr

/-- A handler event `(c, a, n)` (10_state R44): opcode class, payload address, payload length. -/
structure Event where
  cls  : BitVec 3
  addr : Word
  len  : Word
  deriving DecidableEq, Repr

/-- The fields of `STATUS` (10_state R17). `sticky` is the field at bits 15:9: bit `k - 1` of it is bit `8 + k`
of the register, for completion code `k`. The reserved bits hold nothing; `Status.word` reads them as 0. -/
structure Status where
  code   : BitVec 3
  txab   : Bool
  cpl    : Bool
  hdrv   : Bool
  sticky : BitVec 7
  deriving DecidableEq, Repr

/-- `MEM` (10_state R43): the bytes written so far, addresses strictly rising. An address that is not listed has
never been written and holds no recorded value; what a read of it gives is `State.memRead` (log entry 1). -/
abbrev Memory := List Host.Cell

/-- The canonical form of a memory: addresses strictly rising. -/
def Memory.wf : Memory → Bool
  | [] => true
  | [_] => true
  | (a, _) :: (b, y) :: rest => decide (a < b) && Memory.wf ((b, y) :: rest)

/-- The whole state (10_state R13), the parameters (00_scope R8), and three fields of the model's own: `draws`,
`pending` and `reads`. -/
structure State where
  /-- `MEM_SIZE` and `OPC_WIRE`: fixed for a run, written by no step (10_state R47). -/
  params    : Params
  /-- `STATUS` (R17). -/
  status    : Status
  /-- `TX_BASE` (R18). -/
  txBase    : Word
  /-- `TX_CAP` (R19). -/
  txCap     : Word
  /-- `TX_WPTR` (R20). -/
  txWptr    : Word
  /-- `E_FIN` (R22). -/
  eFin      : BitVec 1
  /-- `E_OPC` (R23). -/
  eOpc      : BitVec 3
  /-- `E_MASK` (R24). -/
  eMask     : BitVec 1
  /-- `E_KEY` (R25). -/
  eKey      : BitVec 32
  /-- `E_LEN` (R26). -/
  eLen      : Word
  /-- `E_SRC` (R27). -/
  eSrc      : Word
  /-- `E_FLEN` (R28). -/
  eFlen     : Word
  /-- `E_HLEN` (R29). -/
  eHlen     : BitVec 4
  /-- `RX_BASE` (R30). -/
  rxBase    : Word
  /-- `RX_VALID` (R31). -/
  rxValid   : Word
  /-- `D_FIN` (R32). -/
  dFin      : BitVec 1
  /-- `D_OPC` (R33). -/
  dOpc      : BitVec 3
  /-- `D_MASK` (R34). -/
  dMask     : BitVec 1
  /-- `D_KEY` (R35). -/
  dKey      : BitVec 32
  /-- `D_LEN` (R36). -/
  dLen      : Word
  /-- `D_HLEN` (R37). -/
  dHlen     : BitVec 4
  /-- `D_FLEN` (R38). -/
  dFlen     : Word
  /-- `D_PADDR` (R39). -/
  dPaddr    : Word
  /-- `A_CONSUMED` (R40). -/
  aConsumed : Word
  /-- `MEM` (R43). -/
  mem       : Memory
  /-- `HND`, oldest event first (R44). -/
  hnd       : List Event
  /-- The model's own: how many free values have been drawn (log entry 2). -/
  draws     : Nat
  /-- The model's own: the host steps to come, next one first (log entry 4). -/
  pending   : List HostOp
  /-- The model's own: what the host's reads returned, oldest first (log entry 4). -/
  reads     : List HostRead
  deriving DecidableEq, Repr

/-- Why the machine stops. -/
inductive Fault where
  /-- Raised by a host `ST8` or `LD8` at an address that does not exist, `a >= MEM_SIZE` (44_control R142 allows
  `a < MEM_SIZE` only). Safe: the spec gives such an access no effect. No command raises it. -/
  | hostAddress
  deriving DecidableEq, Repr

/-- Why an instruction has no meaning. -/
inductive Refusal where
  /-- Raised by an arm of `exec` for an instruction not modelled yet; no arm does. Safe. -/
  | notModelled (mnemonic : String)
  deriving DecidableEq, Repr

/-- `STATUS` after reset: every field 0 (10_state R48). -/
def Status.reset : Status where
  code := 0#3
  txab := false
  cpl := false
  hdrv := false
  sticky := 0#7

/-- The machine right after hard reset at the start of a run (10_state R48, 70_reset_and_hazards R161): every
register and `STATUS` field 0, `HND` empty, no byte of `MEM` written. The parameters have the spec's example
values (log entry 3); no free value is drawn, no host step waits and nothing is read (log entries 2 and 4). -/
def State.reset : State where
  params := Config.params
  status := Status.reset
  txBase := 0#64
  txCap := 0#64
  txWptr := 0#64
  eFin := 0#1
  eOpc := 0#3
  eMask := 0#1
  eKey := 0#32
  eLen := 0#64
  eSrc := 0#64
  eFlen := 0#64
  eHlen := 0#4
  rxBase := 0#64
  rxValid := 0#64
  dFin := 0#1
  dOpc := 0#3
  dMask := 0#1
  dKey := 0#32
  dLen := 0#64
  dHlen := 0#4
  dFlen := 0#64
  dPaddr := 0#64
  aConsumed := 0#64
  mem := []
  hnd := []
  draws := 0
  pending := []
  reads := []

end Sys2Proof.Machine
end

