-- ==== Sys2Proof/Machine/Flags.lean ====
section
/-! DEFINITION. Every flag computation: completion codes, the `STATUS` word, completeness and header-valid. -/

namespace Sys2Proof.Machine

/-- The 3-bit number of a completion code (60_exceptions R144). -/
def Completion.code : Completion → BitVec 3
  | .ok => 0#3
  | .capacity => 1#3
  | .malformed => 2#3
  | .opcode => 3#3
  | .window => 4#3
  | .abandoned => 5#3
  | .overlap => 6#3
  | .badcmd => 7#3

/-- The bit of the `STICKY` field a completion code sets: bit `8 + k` of `STATUS`, which is bit `k - 1` of the
field; success sets none (10_state R17). -/
def Completion.stickyBit : Completion → BitVec 7
  | .ok => 0b0000000#7
  | .capacity => 0b0000001#7
  | .malformed => 0b0000010#7
  | .opcode => 0b0000100#7
  | .window => 0b0001000#7
  | .abandoned => 0b0010000#7
  | .overlap => 0b0100000#7
  | .badcmd => 0b1000000#7

/-- A command ends with completion code `c`: `CODE` takes it and its `STICKY` bit is set (60_exceptions R156). -/
def Status.finish (st : Status) (c : Completion) : Status :=
  { st with code := c.code, sticky := st.sticky ||| c.stickyBit }

/-- `STATUS` as the 32-bit word the host reads (10_state R17): bits 31:16 reserved, 15:9 `STICKY`, 8 and 7:6
reserved, 5 `HDRV`, 4 `CPL`, 3 `TXAB`, 2:0 `CODE`. -/
def Status.word (st : Status) : BitVec 32 :=
  0#16 ++ st.sticky ++ 0#1 ++ 0#2 ++ BitVec.ofBool st.hdrv ++ BitVec.ofBool st.cpl
    ++ BitVec.ofBool st.txab ++ st.code

/-- `HDRV` of an attempt with `n` valid bytes and header length `h` (42_decode R111). -/
def headerValid (n h : Nat) : Bool := decide (2 ≤ n ∧ h ≤ n)

/-- `CPL` of an attempt (42_decode R111, R115): the header is whole and the payload end, a sum in the natural
numbers, is at most the valid length. -/
def frameComplete (n h len : Nat) : Bool := headerValid n h && decide (h + len ≤ n)

end Sys2Proof.Machine
end

