-- ==== Sys2Proof/Machine/Ops.lean ====
section
/-! DEFINITION. The named operations over memory, registers, completion and free values. -/

namespace Sys2Proof.Machine

/-! ### Memory (10_state R43, 20_memory R53) -/

/-- The recorded byte at `a`, if `a` has been written. -/
def Memory.find : Memory → Nat → Option Byte
  | [], _ => none
  | (k, b) :: rest, a => if k = a then some b else Memory.find rest a

/-- Record byte `b` at `a`, in address order. -/
def Memory.store : Memory → Nat → Byte → Memory
  | [], a, b => [(a, b)]
  | (k, c) :: rest, a, b =>
    if k = a then (a, b) :: rest
    else if a < k then (a, b) :: (k, c) :: rest
    else (k, c) :: Memory.store rest a b

/-- Record the bytes `bs` at `a`, `a + 1`, …, one at a time in rising order. -/
def Memory.storeBytes : Memory → Nat → List Byte → Memory
  | m, _, [] => m
  | m, a, b :: bs => Memory.storeBytes (Memory.store m a b) (a + 1) bs

/-- What a byte of memory reads as: the last byte written there, or the power-on value where none was
(20_memory R58, 10_state R48; log entry 1). -/
def Memory.read (m : Memory) (a : Nat) : Byte := (Memory.find m a).getD (Config.powerOnByte a)

/-- `MemRead(a, 1)` (00_scope R11). -/
def State.memRead (s : State) (a : Nat) : Byte := Memory.read s.mem a

/-- `MemWrite(a, 1, b)` (00_scope R11). -/
def State.memWrite (s : State) (a : Nat) (b : Byte) : State := { s with mem := Memory.store s.mem a b }

/-- The `n` bytes from `a` on. -/
def State.readBytes (s : State) : (a n : Nat) → List Byte
  | _, 0 => []
  | a, n + 1 => s.memRead a :: State.readBytes s (a + 1) n

/-- Write the bytes `bs` from `a` on, in rising order. -/
def State.writeBytes (s : State) (a : Nat) (bs : List Byte) : State :=
  { s with mem := Memory.storeBytes s.mem a bs }

/-- XOR the `n` bytes at `a` in place with the key (42_decode R117, 40_subunits R92): byte `i` with
`KEY[i mod 4]`. Reading the region before writing it gives the state of the byte-wise loop, since each byte is
read and written once (20_memory R53, R54; log entry 8). -/
def State.maskRegion (s : State) (key : BitVec 32) (a n : Nat) : State :=
  s.writeBytes a (xorMask key (s.readBytes a n))

/-- `InMem(base, len)` (20_memory R55): `base + len <= MEM_SIZE`, the sum in the natural numbers. -/
def State.inMem (s : State) (base len : Nat) : Bool := decide (base + len ≤ s.params.memSize)

/-! ### Free values (00_scope R12) -/

/-- `n` fresh unspecified bytes, draws `d`, `d + 1`, … -/
def anyBytes : (d n : Nat) → List Byte
  | _, 0 => []
  | d, n + 1 => Config.any 8 d :: anyBytes (d + 1) n

/-- `n` bytes at `a` become unspecified (41_encode R98), each by a draw of its own. -/
def State.scramble (s : State) (a n : Nat) : State :=
  { s.writeBytes a (anyBytes s.draws n) with draws := s.draws + n }

/-! ### The end of a command -/

/-- The command ends with completion code `c`: `STATUS.CODE <- c`, its `STICKY` bit set, nothing else. For an
error this is `raise E_X` (60_exceptions R156), the one place an exception is taken; there is no return from one
(R157). -/
def State.finish (s : State) (c : Completion) : State := { s with status := s.status.finish c }

/-- An exception of a decode command also clears `CPL` and `HDRV` (42_decode R109, 43_assemble R125, R156). -/
def State.clearDecodeFlags (s : State) : State :=
  { s with status := { s.status with cpl := false, hdrv := false } }

/-- Every register and every `STATUS` field takes its reset value, 0 (10_state R48): hard reset
(70_reset_and_hazards R161) and `SRST` (44_control R137). `MEM`, `HND` and the model's own fields stay. -/
def State.clearRegisters (s : State) : State :=
  { State.reset with
    params := s.params, mem := s.mem, hnd := s.hnd,
    draws := s.draws, pending := s.pending, reads := s.reads }

/-- `emit HND(c, a, n)` (00_scope R11, 10_state R44). -/
def State.emit (s : State) (e : Event) : State := { s with hnd := s.hnd ++ [e] }

/-! ### The register file (10_state R14, R15) -/

/-- The slot a register stands in (R15). -/
def Reg.slot : Reg → BitVec 5
  | .cmd => 0#5
  | .status => 1#5
  | .txBase => 2#5
  | .txCap => 3#5
  | .txWptr => 4#5
  | .txRem => 5#5
  | .eFin => 6#5
  | .eOpc => 7#5
  | .eMask => 8#5
  | .eKey => 9#5
  | .eLen => 10#5
  | .eSrc => 11#5
  | .eFlen => 12#5
  | .eHlen => 13#5
  | .rxBase => 14#5
  | .rxValid => 15#5
  | .dFin => 16#5
  | .dOpc => 17#5
  | .dMask => 18#5
  | .dKey => 19#5
  | .dLen => 20#5
  | .dHlen => 21#5
  | .dFlen => 22#5
  | .dPaddr => 23#5
  | .aConsumed => 24#5

/-- The defined registers, in slot order. -/
def Reg.all : List Reg :=
  [.cmd, .status, .txBase, .txCap, .txWptr, .txRem, .eFin, .eOpc, .eMask, .eKey, .eLen, .eSrc, .eFlen,
   .eHlen, .rxBase, .rxValid, .dFin, .dOpc, .dMask, .dKey, .dLen, .dHlen, .dFlen, .dPaddr, .aConsumed]

/-- The register in a slot; none for the reserved slots 25 to 31 (R15). -/
def Reg.ofSlot (n : BitVec 5) : Option Reg := Reg.all[n.toNat]?

/-- The byte offset of a register from the block's register base: `8 * n` (R14). -/
def Reg.offset (r : Reg) : Nat := 8 * r.slot.toNat

/-- The access class of a register (R15). -/
def Reg.access : Reg → Access
  | .cmd => .trigger
  | .txBase | .txCap | .eFin | .eOpc | .eMask | .eKey | .eLen | .eSrc | .rxBase | .rxValid => .readWrite
  | .status | .txWptr | .txRem | .eFlen | .eHlen | .dFin | .dOpc | .dMask | .dKey | .dLen | .dHlen
  | .dFlen | .dPaddr | .aConsumed => .readOnly

/-- The width of a register (R15). -/
def Reg.width : Reg → Nat
  | .cmd | .status | .eKey | .dKey => 32
  | .txBase | .txCap | .txWptr | .txRem | .eLen | .eSrc | .eFlen | .rxBase | .rxValid | .dLen | .dFlen
  | .dPaddr | .aConsumed => 64
  | .eFin | .eMask | .dFin | .dMask => 1
  | .eOpc | .dOpc => 3
  | .eHlen | .dHlen => 4

/-- `TX_REM` (10_state R21): `x[TX_CAP] -. x[TX_WPTR]`, truncated subtraction, computed on read. -/
def State.txRem (s : State) : Word := BitVec.ofNat 64 (s.txCap.toNat - s.txWptr.toNat)

/-- What a host read of a register returns: the value with zeros above (R14, 44_control R141); `CMD` reads 0. -/
def State.readReg (s : State) : Reg → Word
  | .cmd => 0#64
  | .status => s.status.word.setWidth 64
  | .txBase => s.txBase
  | .txCap => s.txCap
  | .txWptr => s.txWptr
  | .txRem => s.txRem
  | .eFin => s.eFin.setWidth 64
  | .eOpc => s.eOpc.setWidth 64
  | .eMask => s.eMask.setWidth 64
  | .eKey => s.eKey.setWidth 64
  | .eLen => s.eLen
  | .eSrc => s.eSrc
  | .eFlen => s.eFlen
  | .eHlen => s.eHlen.setWidth 64
  | .rxBase => s.rxBase
  | .rxValid => s.rxValid
  | .dFin => s.dFin.setWidth 64
  | .dOpc => s.dOpc.setWidth 64
  | .dMask => s.dMask.setWidth 64
  | .dKey => s.dKey.setWidth 64
  | .dLen => s.dLen
  | .dHlen => s.dHlen.setWidth 64
  | .dFlen => s.dFlen
  | .dPaddr => s.dPaddr
  | .aConsumed => s.aConsumed

/-- A host read of a slot: a reserved slot returns 0 (R14, 44_control R141). -/
def State.readSlot (s : State) (n : BitVec 5) : Word :=
  match Reg.ofSlot n with
  | some r => s.readReg r
  | none => 0#64

/-- A host write of an `RW` register of width `W`: it takes `v[W-1:0]` (R14, 44_control R140). A write to an
`RO` register is ignored. `CMD` is not written here: a write to it is a command. -/
def State.writeReg (s : State) (r : Reg) (v : Word) : State :=
  match r with
  | .txBase => { s with txBase := v }
  | .txCap => { s with txCap := v }
  | .eFin => { s with eFin := v.setWidth 1 }
  | .eOpc => { s with eOpc := v.setWidth 3 }
  | .eMask => { s with eMask := v.setWidth 1 }
  | .eKey => { s with eKey := v.setWidth 32 }
  | .eLen => { s with eLen := v }
  | .eSrc => { s with eSrc := v }
  | .rxBase => { s with rxBase := v }
  | .rxValid => { s with rxValid := v }
  | .cmd | .status | .txWptr | .txRem | .eFlen | .eHlen | .dFin | .dOpc | .dMask | .dKey | .dLen | .dHlen
  | .dFlen | .dPaddr | .aConsumed => s

end Sys2Proof.Machine
end

