-- ==== Sys2Proof/Machine/Decoder.lean ====
section
/-! DEFINITION. The decoder: the decode attempt `decode_at` (42_decode R110 to R120) and `DEC` (R108). -/

namespace Sys2Proof.Machine

/-! ### A header read from a byte source: `f k` is the frame's byte `k` -/

/-- The `n` bytes of the source from offset `k` on. -/
def sourceBytes (f : Nat → Byte) : (k n : Nat) → List Byte
  | _, 0 => []
  | k, n + 1 => f k :: sourceBytes f (k + 1) n

/-- The extension length byte 1 announces (R111). -/
def frameExt (f : Nat → Byte) : Nat := extOf (selOf (f 1))

/-- The header length byte 1 announces (R111). -/
def frameHdrLen (f : Nat → Byte) : Nat := hdrLen (selOf (f 1)) (maskOf (f 1))

/-- The payload length the selector and the extension spell (R113). -/
def framePayloadLen (f : Nat → Byte) : Word := lenDecode (selOf (f 1)) (sourceBytes f 2 (frameExt f))

/-- The key at frame offsets `2 + ext ..` (R114). -/
def frameKey (f : Nat → Byte) : BitVec 32 :=
  packKey (f (2 + frameExt f)) (f (3 + frameExt f)) (f (4 + frameExt f)) (f (5 + frameExt f))

/-- What a decode attempt leaves in the decode registers and flags. -/
structure Attempt where
  fin   : BitVec 1
  opc   : BitVec 3
  mask  : BitVec 1
  key   : BitVec 32
  len   : Word
  hlen  : BitVec 4
  flen  : Word
  paddr : Word
  hdrv  : Bool
  cpl   : Bool
  deriving DecidableEq, Repr

/-- Free values one attempt draws, one for each output that may be unspecified; drawn whether or not used. -/
def drawsPerAttempt : Nat := 8

/-- The determinacy table of R111: each output is the value the bytes give when all of them lie below the valid
length `n`, and a fresh draw (the `d`-th and following) otherwise. `a` is the address of byte 0. -/
def attempt (wire : OpcWire) (f : Nat → Byte) (a n d : Nat) : Attempt where
  fin := if 1 ≤ n then finOf (f 0) else Config.any 1 d
  opc := if 1 ≤ n then classOf wire (opcOf (f 0)) else Config.any 3 (d + 1)
  mask := if 2 ≤ n then maskOf (f 1) else Config.any 1 (d + 2)
  hlen := if 2 ≤ n then BitVec.ofNat 4 (frameHdrLen f) else Config.any 4 (d + 3)
  len := if 2 ≤ n ∧ 2 + frameExt f ≤ n then framePayloadLen f else Config.any 64 (d + 4)
  key :=
    if 2 ≤ n ∧ maskOf (f 1) = 1#1 ∧ frameHdrLen f ≤ n then frameKey f else Config.any 32 (d + 5)
  hdrv := headerValid n (frameHdrLen f)
  cpl := frameComplete n (frameHdrLen f) (framePayloadLen f).toNat
  flen :=
    if frameComplete n (frameHdrLen f) (framePayloadLen f).toNat then
      BitVec.ofNat 64 (frameHdrLen f + (framePayloadLen f).toNat)
    else Config.any 64 (d + 6)
  paddr :=
    if frameComplete n (frameHdrLen f) (framePayloadLen f).toNat then BitVec.ofNat 64 (a + frameHdrLen f)
    else Config.any 64 (d + 7)

/-! ### The attempt on the machine -/

/-- Byte `k` of the frame at `a`: a byte of `given` where the table row brings one, else `MEM[a + k]`. For `DEC`
and `ASM` `given` is empty and every byte is `MemRead(a + k, 1)` (R110). -/
def State.frameByte (s : State) (given : List Byte) (a k : Nat) : Byte :=
  match given[k]? with
  | some b => b
  | none => s.memRead (a + k)

/-- The decode registers and the flags `HDRV`, `CPL` take the attempt's values (R108). -/
def State.setDecode (s : State) (r : Attempt) : State :=
  { s with
    dFin := r.fin, dOpc := r.opc, dMask := r.mask, dKey := r.key, dLen := r.len, dHlen := r.hlen,
    dFlen := r.flen, dPaddr := r.paddr,
    status := { s.status with cpl := r.cpl, hdrv := r.hdrv },
    draws := s.draws + drawsPerAttempt }

/-- The payload of a complete masked frame is unmasked in place (R117); any other attempt changes no byte
(R116), and the header is never rewritten (R118). -/
def State.unmask (s : State) (f : Nat → Byte) (a n : Nat) : State :=
  if frameComplete n (frameHdrLen f) (framePayloadLen f).toNat ∧ maskOf (f 1) = 1#1 then
    s.maskRegion (frameKey f) (a + frameHdrLen f) (framePayloadLen f).toNat
  else s

/-- `decode_at(a, n)` (R120), on the frame whose bytes are `given` and then those of `MEM`. -/
def State.decodeAt (s : State) (given : List Byte) (a n : Nat) : State :=
  (s.setDecode (attempt s.params.opcWire (s.frameByte given a) a n s.draws)).unmask (s.frameByte given a) a n

/-- `DEC` (R108) on a receive window that begins with the bytes `given`: the window check (R109), one attempt,
`CODE <- 0`. -/
def State.decodeWindow (s : State) (given : List Byte) : State :=
  if s.inMem s.rxBase.toNat s.rxValid.toNat then
    (s.decodeAt given s.rxBase.toNat s.rxValid.toNat).finish .ok
  else s.clearDecodeFlags.finish .window

/-- `DEC` (R108): all bytes come from `MEM`. -/
def execDec (s : State) : Host.Outcome State Fault Refusal := .next (s.decodeWindow [])

end Sys2Proof.Machine
end

