-- ==== Sys2Proof/Machine/Assembler.lean ====
section
/-! DEFINITION. The frame assembler: `ASM` (43_assemble R124 to R133). -/

namespace Sys2Proof.Machine

/-- The handler event of the attempt just made (R127): the class, the payload's address and its length. -/
def State.frameEvent (s : State) : Event := { cls := s.dOpc, addr := s.dPaddr, len := s.dLen }

/-- The loop of R131 with its cursor, under fuel: an attempt at the cursor; a complete frame gives an event and
moves the cursor past it, an incomplete one ends the loop. Answers the state and the final cursor. -/
def assembleLoop (base v : Nat) : (fuel cur : Nat) → State → State × Nat
  | 0, cur, s => (s, cur)
  | fuel + 1, cur, s =>
    let t := s.decodeAt [] (base + cur) (v - cur)
    if t.status.cpl then assembleLoop base v fuel (cur + t.dFlen.toNat) (t.emit t.frameEvent)
    else (t, cur)

/-- `ASM` (R131). Each complete frame is at least 2 bytes, so fuel `v / 2 + 1` loses no behaviour (R132). -/
def execAsm (s : State) : Host.Outcome State Fault Refusal :=
  if s.inMem s.rxBase.toNat s.rxValid.toNat then
    let r := assembleLoop s.rxBase.toNat s.rxValid.toNat (s.rxValid.toNat / 2 + 1) 0 s
    .next ({ r.1 with aConsumed := BitVec.ofNat 64 r.2 }.finish .ok)
  else .next (s.clearDecodeFlags.finish .window)

end Sys2Proof.Machine
end

