-- ==== Sys2Proof/Machine/Control.lean ====
section
/-! DEFINITION. The commands that move no frame data (44_control R136 to R139). -/

namespace Sys2Proof.Machine

/-- `NOP` (R136): `CODE <- 0`, nothing else. -/
def execNop (s : State) : Host.Outcome State Fault Refusal := .next (s.finish .ok)

/-- `SRST` (R137): every register and every `STATUS` field takes its reset value; `MEM` and `HND` stay. -/
def execSrst (s : State) : Host.Outcome State Fault Refusal := .next (s.clearRegisters.finish .ok)

/-- `TXINIT` (R138): `TX_WPTR <- 0`, `TXAB <- 0`, `CODE <- 0`. -/
def execTxinit (s : State) : Host.Outcome State Fault Refusal :=
  .next ({ s with txWptr := 0#64, status := { s.status with txab := false } }.finish .ok)

/-- An undefined command word (R139, 30_encoding R77): `E_BADCMD`, nothing else. -/
def undefinedCommand (s : State) : Host.Outcome State Fault Refusal := .next (s.finish .badcmd)

end Sys2Proof.Machine
end

