-- ==== Sys2Proof/Machine/Encoder.lean ====
section
/-! DEFINITION. The encoder: `ENC` (41_encode R93 to R105). -/

namespace Sys2Proof.Machine

/-- `H`, the header length of the frame to encode (R98): `2 + ext + 4 * m`. -/
def State.encHdrLen (s : State) : Nat := 2 + (lenClass s.eLen).2 + 4 * s.eMask.toNat

/-- `H + L`, the length of the frame to encode, a sum in the natural numbers (20_memory R49). -/
def State.encFrameLen (s : State) : Nat := s.encHdrLen + s.eLen.toNat

/-- `rem = x[TX_CAP] - x[TX_WPTR]` (R98). -/
def State.encRem (s : State) : Nat := s.txCap.toNat - s.txWptr.toNat

/-- `dst = x[TX_BASE] + x[TX_WPTR]`, where the frame is written (R93). -/
def State.encDst (s : State) : Nat := s.txBase.toNat + s.txWptr.toNat

/-- The destination window lies in `MEM` and holds the cursor (R97). -/
def State.encWindowOk (s : State) : Bool :=
  s.inMem s.txBase.toNat s.txCap.toNat && decide (s.txWptr.toNat ≤ s.txCap.toNat)

/-- The source region lies in `MEM`; an empty one always does (R99). -/
def State.encSourceOk (s : State) : Bool :=
  decide (s.eLen.toNat = 0) || s.inMem s.eSrc.toNat s.eLen.toNat

/-- The source region meets the frame region (R100). -/
def State.encOverlap (s : State) : Bool :=
  decide (0 < s.eLen.toNat ∧ s.eSrc.toNat < s.encDst + s.encFrameLen ∧ s.encDst < s.eSrc.toNat + s.eLen.toNat)

/-- The frame's payload on the wire (R102): masked when `m = 1`, else unmodified. The source is read before the
frame is written, which is not observable since the two do not meet (20_memory R54; log entry 8). -/
def State.encPayload (s : State) : List Byte :=
  let plain := s.readBytes s.eSrc.toNat s.eLen.toNat
  if s.eMask = 1#1 then xorMask s.eKey plain else plain

/-- The effects of a capacity failure (R98): `TXAB <- 1`, the `min(H, rem)` bytes at the frame's place become
unspecified, nothing else. -/
def State.capacityFailure (s : State) : State :=
  let t := s.scramble s.encDst (min s.encHdrLen s.encRem)
  { t with status := { t.status with txab := true } }

/-- The writes of a successful `ENC` of class `c` (R101 to R103): header, payload, results. -/
def State.writeFrame (s : State) (c : OpClass) : State :=
  let hdr := headerBytes s.params.opcWire s.eFin c s.eMask s.eKey s.eLen
  { s.writeBytes s.encDst (hdr ++ s.encPayload) with
    eHlen := BitVec.ofNat 4 s.encHdrLen
    eFlen := BitVec.ofNat 64 s.encFrameLen
    txWptr := BitVec.ofNat 64 (s.txWptr.toNat + s.encFrameLen) }

/-- `ENC` (R104): the checks in order (R95 to R100, 60_exceptions R155), then the frame. -/
def execEnc (s : State) : Host.Outcome State Fault Refusal :=
  if s.status.txab then .next (s.finish .abandoned)
  else
    match classOfCode s.eOpc with
    | none => .next (s.finish .opcode)
    | some c =>
      if s.encWindowOk = false then .next (s.finish .window)
      else if s.encRem < s.encFrameLen then .next (s.capacityFailure.finish .capacity)
      else if s.encSourceOk = false then .next (s.finish .window)
      else if s.encOverlap then .next (s.finish .overlap)
      else .next ((s.writeFrame c).finish .ok)

end Sys2Proof.Machine
end

