-- ==== Sys2Proof/Syntax.lean ====
section
/-! DEFINITION. The instructions: one constructor per row of spec/opcode_table.json. -/

namespace Sys2Proof

/-- The 19 rows of the table, in its order: the seven commands (30_encoding R76; operands are registers, so no
fields), the six frame header formats the decoder reads (R70) with their wire fields, and byte 0 of a frame by
opcode class (R73). `rsv` holds the three reserved bits 6:4 of byte 0, which the decoder ignores (R65); `opc` is
the raw 4-bit wire value; `len` is the inline length or the extended length; `key` has `KEY[0]` in bits 31:24. -/
inductive Instr where
  | nop
  | srst
  | txinit
  | enc
  | dec
  | asm
  | msk
  | f7u (fin : BitVec 1) (rsv : BitVec 3) (opc : BitVec 4) (len : BitVec 7)
  | f7m (fin : BitVec 1) (rsv : BitVec 3) (opc : BitVec 4) (len : BitVec 7) (key : BitVec 32)
  | f16u (fin : BitVec 1) (rsv : BitVec 3) (opc : BitVec 4) (len : BitVec 16)
  | f16m (fin : BitVec 1) (rsv : BitVec 3) (opc : BitVec 4) (len : BitVec 16) (key : BitVec 32)
  | f64u (fin : BitVec 1) (rsv : BitVec 3) (opc : BitVec 4) (len : BitVec 64)
  | f64m (fin : BitVec 1) (rsv : BitVec 3) (opc : BitVec 4) (len : BitVec 64) (key : BitVec 32)
  | opcContinuation (fin : BitVec 1) (rsv : BitVec 3)
  | opcText (fin : BitVec 1) (rsv : BitVec 3)
  | opcBinary (fin : BitVec 1) (rsv : BitVec 3)
  | opcClose (fin : BitVec 1) (rsv : BitVec 3)
  | opcPing (fin : BitVec 1) (rsv : BitVec 3)
  | opcPong (fin : BitVec 1) (rsv : BitVec 3)
  deriving DecidableEq, Repr

end Sys2Proof
end

