-- ==== Sys2Proof/WellFormed.lean ====
section
/-! DEFINITION. Which instructions are well formed: the table's one constraint. -/

namespace Sys2Proof

/-- Why an instruction is ill formed. -/
inductive IllFormed where
  /-- The inline length of `F7U` or `F7M` is 126 or 127, which select the 16-bit and 64-bit forms
  (`opcode_table.json` "constraint", 30_encoding R70). -/
  | inlineLength
  deriving DecidableEq, Repr

/-- The inline length of 30_encoding R70: at most 125. -/
def inlineLengthOk (len : BitVec 7) : Bool := len.toNat ≤ 125

/-- What is wrong with an instruction, if anything. Every other field admits every value of its width. -/
def Instr.illFormed : Instr → Option IllFormed
  | .nop | .srst | .txinit | .enc | .dec | .asm | .msk => none
  | .f7u _ _ _ len => if inlineLengthOk len then none else some .inlineLength
  | .f7m _ _ _ len _ => if inlineLengthOk len then none else some .inlineLength
  | .f16u _ _ _ _ | .f16m _ _ _ _ _ | .f64u _ _ _ _ | .f64m _ _ _ _ _ => none
  | .opcContinuation _ _ | .opcText _ _ | .opcBinary _ _ => none
  | .opcClose _ _ | .opcPing _ _ | .opcPong _ _ => none

/-- Nothing is wrong with the instruction. -/
abbrev Instr.WellFormed (i : Instr) : Prop := i.illFormed = none

end Sys2Proof
end

