-- ==== Sys2Proof/Decode.lean ====
section
/-! DEFINITION. Decoder and encoder of the three formats of spec/opcode_table.json: command words (30_encoding
R75 to R77), frame headers (R64 to R71) and byte 0 by opcode class (R73). -/

namespace Sys2Proof

open Sys2Proof.Machine

/-- Why bits are no instruction. -/
inductive Reject where
  /-- A command word that is not one of the seven (30_encoding R77). -/
  | undefinedCommand
  /-- Fewer bytes than the header needs (30_encoding R71). -/
  | headerCut
  /-- A byte 0 whose wire value no class has (30_encoding R73): a row for no named class. -/
  | unrecognizedOpcode
  /-- Bytes beyond the header, where a table row is asked for. -/
  | trailingBytes
  /-- No row of the table has this width. -/
  | noSuchWidth
  deriving DecidableEq, Repr

/-! ### Decoding -/

/-- The command word decoder (R75, R76): bits 7:0 are the code, bits 31:8 must be 0. -/
def decodeCommand (w : BitVec 32) : Except Reject Instr :=
  if w = 0x00#32 then .ok .nop
  else if w = 0x01#32 then .ok .srst
  else if w = 0x02#32 then .ok .txinit
  else if w = 0x10#32 then .ok .enc
  else if w = 0x20#32 then .ok .dec
  else if w = 0x21#32 then .ok .asm
  else if w = 0x30#32 then .ok .msk
  else .error .undefinedCommand

/-- The part of a header after byte 1 of an unmasked or masked frame: with MASK 1, four key bytes (R68). -/
def decodeKey (m : BitVec 1) (plain : Instr) (masked : BitVec 32 → Instr) (rest : List Byte) :
    Except Reject (Instr × List Byte) :=
  if m = 1#1 then
    match rest with
    | k0 :: k1 :: k2 :: k3 :: rest => .ok (masked (packKey k0 k1 k2 k3), rest)
    | _ => .error .headerCut
  else .ok (plain, rest)

/-- The frame header decoder (R64 to R71): which of the six formats the bytes begin with, its fields, and the
bytes after the header. Total: any two bytes begin a header (R79), which is cut when too few bytes follow. -/
def decodeHeader : List Byte → Except Reject (Instr × List Byte)
  | b0 :: b1 :: rest =>
    let fin := finOf b0
    let rsv := rsvOf b0
    let opc := opcOf b0
    let m := maskOf b1
    let sel := selOf b1
    if sel.toNat ≤ 125 then
      decodeKey m (.f7u fin rsv opc sel) (.f7m fin rsv opc sel) rest
    else if sel.toNat = 126 then
      match rest with
      | l0 :: l1 :: rest =>
        let len := BitVec.ofNat 16 (beNat [l0, l1])
        decodeKey m (.f16u fin rsv opc len) (.f16m fin rsv opc len) rest
      | _ => .error .headerCut
    else
      match rest with
      | l0 :: l1 :: l2 :: l3 :: l4 :: l5 :: l6 :: l7 :: rest =>
        let len := BitVec.ofNat 64 (beNat [l0, l1, l2, l3, l4, l5, l6, l7])
        decodeKey m (.f64u fin rsv opc len) (.f64m fin rsv opc len) rest
      | _ => .error .headerCut
  | _ => .error .headerCut

/-- The byte 0 decoder by opcode class (R73, the FRAME_OPC rows): the low nibble selects the class. -/
def decodeOpcode (w : OpcWire) (b0 : Byte) : Except Reject Instr :=
  let fin := finOf b0
  let rsv := rsvOf b0
  match classNamed w (opcOf b0) with
  | some .continuation => .ok (.opcContinuation fin rsv)
  | some .text => .ok (.opcText fin rsv)
  | some .binary => .ok (.opcBinary fin rsv)
  | some .close => .ok (.opcClose fin rsv)
  | some .ping => .ok (.opcPing fin rsv)
  | some .pong => .ok (.opcPong fin rsv)
  | none => .error .unrecognizedOpcode

/-- A header that is the whole list of bytes. -/
def decodeWholeHeader (bs : List Byte) : Except Reject Instr :=
  match decodeHeader bs with
  | .ok (i, []) => .ok i
  | .ok (_, _ :: _) => .error .trailingBytes
  | .error e => .error e

/-- Does a 32-bit table word belong to `F16U` (byte 1, bits 23:16, is 126) rather than to a command? The two
formats of that width never meet: a command word has bits 31:8 zero (log entry 6). -/
def isShortHeaderWord (w : Nat) : Bool := decide (w / 2 ^ 16 % 2 ^ 8 = 126)

/-- The decoder over the table's words, by width: 8 bits a byte 0, 32 a command word or `F16U`, the others a
header. A header's first byte is the most significant of the word, as in the table's `encoding` (log entry 6). -/
def decodeBits (wire : OpcWire) (nbits w : Nat) : Except Reject Instr :=
  if nbits = 8 then decodeOpcode wire (BitVec.ofNat 8 w)
  else if nbits = 32 ∧ isShortHeaderWord w = false then decodeCommand (BitVec.ofNat 32 w)
  else if nbits = 16 ∨ nbits = 32 ∨ nbits = 48 ∨ nbits = 64 ∨ nbits = 80 ∨ nbits = 112 then
    decodeWholeHeader (beBytes (nbits / 8) w)
  else .error .noSuchWidth

/-- The instruction the decoder reads from a table word of `nbits` bits (the row's width). The FRAME_OPC rows are
read with the table's wire values, which are those of `Config.params`. -/
def decodeTableWord (nbits w : Nat) : Option Instr :=
  match decodeBits Config.params.opcWire nbits w with
  | .ok i => some i
  | .error _ => none

/-! ### Encoding -/

/-- The command word of a command (R76). -/
def commandWord : Instr → Option (BitVec 32)
  | .nop => some 0x00#32
  | .srst => some 0x01#32
  | .txinit => some 0x02#32
  | .enc => some 0x10#32
  | .dec => some 0x20#32
  | .asm => some 0x21#32
  | .msk => some 0x30#32
  | .f7u _ _ _ _ | .f7m _ _ _ _ _ | .f16u _ _ _ _ | .f16m _ _ _ _ _ | .f64u _ _ _ _ | .f64m _ _ _ _ _ => none
  | .opcContinuation _ _ | .opcText _ _ | .opcBinary _ _ | .opcClose _ _ | .opcPing _ _ | .opcPong _ _ => none

/-- The bytes of a frame row as they lie in `MEM`, first byte first (R64 to R70, R73): a whole header, or byte 0
alone for the FRAME_OPC rows. A command has none. -/
def frameBytes (wire : OpcWire) : Instr → List Byte
  | .nop | .srst | .txinit | .enc | .dec | .asm | .msk => []
  | .f7u fin rsv opc len => [byte0 fin rsv opc, packB1 0#1 len]
  | .f7m fin rsv opc len key => [byte0 fin rsv opc, packB1 1#1 len] ++ keyBytes key
  | .f16u fin rsv opc len => [byte0 fin rsv opc, packB1 0#1 126#7] ++ beBytes 2 len.toNat
  | .f16m fin rsv opc len key =>
    [byte0 fin rsv opc, packB1 1#1 126#7] ++ beBytes 2 len.toNat ++ keyBytes key
  | .f64u fin rsv opc len => [byte0 fin rsv opc, packB1 0#1 127#7] ++ beBytes 8 len.toNat
  | .f64m fin rsv opc len key =>
    [byte0 fin rsv opc, packB1 1#1 127#7] ++ beBytes 8 len.toNat ++ keyBytes key
  | .opcContinuation fin rsv => [byte0 fin rsv (wireValue wire .continuation)]
  | .opcText fin rsv => [byte0 fin rsv (wireValue wire .text)]
  | .opcBinary fin rsv => [byte0 fin rsv (wireValue wire .binary)]
  | .opcClose fin rsv => [byte0 fin rsv (wireValue wire .close)]
  | .opcPing fin rsv => [byte0 fin rsv (wireValue wire .ping)]
  | .opcPong fin rsv => [byte0 fin rsv (wireValue wire .pong)]

/-- The table word of an instruction: its width in bits and its bits, numbered as the table numbers them. -/
def encode (wire : OpcWire) (i : Instr) : Nat × Nat :=
  match commandWord i with
  | some w => (32, w.toNat)
  | none => (8 * (frameBytes wire i).length, beNat (frameBytes wire i))

end Sys2Proof
end

