-- ==== Sys2Proof/Machine/Frames.lean ====
section
/-! DEFINITION. The frame rows of the table: what the decoder does with a header of each format (30_encoding R70)
and with a byte 0 of each opcode class (R73). The spec gives them no command of their own: a frame is what the
decoder meets at the start of its receive window (42_decode R110 to R117), so the meaning of a row is `DEC` on a
window that begins with the row's bytes (log entry 5). -/

namespace Sys2Proof.Machine

/-- The decoder meets the bytes of the frame row `i` at the start of its receive window. -/
def State.meetFrame (s : State) (i : Instr) : State := s.decodeWindow (frameBytes s.params.opcWire i)

/-- `F7U` (30_encoding R70): selector 0 to 125, MASK 0, `H = 2`. -/
def execF7u (fin : BitVec 1) (rsv : BitVec 3) (opc : BitVec 4) (len : BitVec 7) (s : State) :
    Host.Outcome State Fault Refusal :=
  .next (s.meetFrame (.f7u fin rsv opc len))

/-- `F7M` (30_encoding R70): selector 0 to 125, MASK 1, key at 2, `H = 6`. -/
def execF7m (fin : BitVec 1) (rsv : BitVec 3) (opc : BitVec 4) (len : BitVec 7)
    (key : BitVec 32) (s : State) :
    Host.Outcome State Fault Refusal :=
  .next (s.meetFrame (.f7m fin rsv opc len key))

/-- `F16U` (30_encoding R70): selector 126, MASK 0, length at 2..3, `H = 4`. -/
def execF16u (fin : BitVec 1) (rsv : BitVec 3) (opc : BitVec 4) (len : BitVec 16) (s : State) :
    Host.Outcome State Fault Refusal :=
  .next (s.meetFrame (.f16u fin rsv opc len))

/-- `F16M` (30_encoding R70): selector 126, MASK 1, length at 2..3, key at 4..7, `H = 8`. -/
def execF16m (fin : BitVec 1) (rsv : BitVec 3) (opc : BitVec 4) (len : BitVec 16)
    (key : BitVec 32) (s : State) :
    Host.Outcome State Fault Refusal :=
  .next (s.meetFrame (.f16m fin rsv opc len key))

/-- `F64U` (30_encoding R70): selector 127, MASK 0, length at 2..9, `H = 10`. -/
def execF64u (fin : BitVec 1) (rsv : BitVec 3) (opc : BitVec 4) (len : BitVec 64) (s : State) :
    Host.Outcome State Fault Refusal :=
  .next (s.meetFrame (.f64u fin rsv opc len))

/-- `F64M` (30_encoding R70): selector 127, MASK 1, length at 2..9, key at 10..13, `H = 14`. -/
def execF64m (fin : BitVec 1) (rsv : BitVec 3) (opc : BitVec 4) (len : BitVec 64)
    (key : BitVec 32) (s : State) :
    Host.Outcome State Fault Refusal :=
  .next (s.meetFrame (.f64m fin rsv opc len key))

/-- `OPC_CONTINUATION` (30_encoding R73): byte 0 whose low nibble is the wire value of CONTINUATION. -/
def execOpcContinuation (fin : BitVec 1) (rsv : BitVec 3) (s : State) :
    Host.Outcome State Fault Refusal :=
  .next (s.meetFrame (.opcContinuation fin rsv))

/-- `OPC_TEXT` (30_encoding R73): byte 0 whose low nibble is the wire value of TEXT. -/
def execOpcText (fin : BitVec 1) (rsv : BitVec 3) (s : State) :
    Host.Outcome State Fault Refusal :=
  .next (s.meetFrame (.opcText fin rsv))

/-- `OPC_BINARY` (30_encoding R73): byte 0 whose low nibble is the wire value of BINARY. -/
def execOpcBinary (fin : BitVec 1) (rsv : BitVec 3) (s : State) :
    Host.Outcome State Fault Refusal :=
  .next (s.meetFrame (.opcBinary fin rsv))

/-- `OPC_CLOSE` (30_encoding R73): byte 0 whose low nibble is the wire value of CLOSE. -/
def execOpcClose (fin : BitVec 1) (rsv : BitVec 3) (s : State) :
    Host.Outcome State Fault Refusal :=
  .next (s.meetFrame (.opcClose fin rsv))

/-- `OPC_PING` (30_encoding R73): byte 0 whose low nibble is the wire value of PING. -/
def execOpcPing (fin : BitVec 1) (rsv : BitVec 3) (s : State) :
    Host.Outcome State Fault Refusal :=
  .next (s.meetFrame (.opcPing fin rsv))

/-- `OPC_PONG` (30_encoding R73): byte 0 whose low nibble is the wire value of PONG. -/
def execOpcPong (fin : BitVec 1) (rsv : BitVec 3) (s : State) :
    Host.Outcome State Fault Refusal :=
  .next (s.meetFrame (.opcPong fin rsv))

end Sys2Proof.Machine
end

