-- ==== Sys2Proof/Machine/Masking.lean ====
section
/-! DEFINITION. The masking unit alone: `MSK` (40_subunits R92). -/

namespace Sys2Proof.Machine

/-- `MSK` (R92): XOR the `E_LEN` bytes at `E_SRC` in place with `E_KEY`; a non-empty region outside `MEM` is
`E_WINDOW`, before any access. -/
def execMsk (s : State) : Host.Outcome State Fault Refusal :=
  if 0 < s.eLen.toNat ∧ s.inMem s.eSrc.toNat s.eLen.toNat = false then .next (s.finish .window)
  else .next ((s.maskRegion s.eKey s.eSrc.toNat s.eLen.toNat).finish .ok)

end Sys2Proof.Machine
end

