-- ==== Sys2Proof/Machine/Dispatch.lean ====
section
/-! DEFINITION. One arm per row of the table, each a call of that row's meaning. -/

namespace Sys2Proof.Machine

/-- What an instruction does. -/
def exec (i : Instr) (s : State) : Host.Outcome State Fault Refusal :=
  match i with
  | .nop => Sys2Proof.Machine.execNop s
  | .srst => Sys2Proof.Machine.execSrst s
  | .txinit => Sys2Proof.Machine.execTxinit s
  | .enc => Sys2Proof.Machine.execEnc s
  | .dec => Sys2Proof.Machine.execDec s
  | .asm => Sys2Proof.Machine.execAsm s
  | .msk => Sys2Proof.Machine.execMsk s
  | .f7u fin rsv opc len => Sys2Proof.Machine.execF7u fin rsv opc len s
  | .f7m fin rsv opc len key => Sys2Proof.Machine.execF7m fin rsv opc len key s
  | .f16u fin rsv opc len => Sys2Proof.Machine.execF16u fin rsv opc len s
  | .f16m fin rsv opc len key => Sys2Proof.Machine.execF16m fin rsv opc len key s
  | .f64u fin rsv opc len => Sys2Proof.Machine.execF64u fin rsv opc len s
  | .f64m fin rsv opc len key => Sys2Proof.Machine.execF64m fin rsv opc len key s
  | .opcContinuation fin rsv => Sys2Proof.Machine.execOpcContinuation fin rsv s
  | .opcText fin rsv => Sys2Proof.Machine.execOpcText fin rsv s
  | .opcBinary fin rsv => Sys2Proof.Machine.execOpcBinary fin rsv s
  | .opcClose fin rsv => Sys2Proof.Machine.execOpcClose fin rsv s
  | .opcPing fin rsv => Sys2Proof.Machine.execOpcPing fin rsv s
  | .opcPong fin rsv => Sys2Proof.Machine.execOpcPong fin rsv s

end Sys2Proof.Machine
end

