-- ==== Sys2Proof/Machine/Bus.lean ====
section
/-! DEFINITION. The host's side of the block: command words, host operations (44_control R140 to R142), the host
script's pseudo-instructions (30_encoding R81), and how a table word is presented to the machine. -/

namespace Sys2Proof.Machine

/-- The codec decodes the word written to `CMD` and executes the command; an undefined word is `E_BADCMD`
(10_state R16, 30_encoding R77). -/
def runCommand (w : BitVec 32) (s : State) : Host.Outcome State Fault Refusal :=
  match decodeCommand w with
  | .ok i => exec i s
  | .error _ => undefinedCommand s

/-- `WR reg, v` (R140): to `CMD`, the command `v[31:0]`; to an `RW` register, its new value; to an `RO` register
or a reserved slot, nothing. -/
def hostWrite (slot : BitVec 5) (v : Word) (s : State) : Host.Outcome State Fault Refusal :=
  match Reg.ofSlot slot with
  | some .cmd => runCommand (v.setWidth 32) s
  | some r => .next (s.writeReg r v)
  | none => .next s

/-- One step of the host. `RD` and `LD8` change no state of the block; what they return is kept in `reads`, the
model's own. `ST8` and `LD8` exist for `a < MEM_SIZE` only (R142). -/
def hostStep (op : HostOp) (s : State) : Host.Outcome State Fault Refusal :=
  match op with
  | .wr slot v => hostWrite slot v s
  | .rd slot => .next { s with reads := s.reads ++ [.reg slot (s.readSlot slot)] }
  | .st8 a b =>
    if a < s.params.memSize then .next (s.memWrite a b) else .fault .hostAddress
  | .ld8 a =>
    if a < s.params.memSize then .next { s with reads := s.reads ++ [.byte a (s.memRead a)] }
    else .fault .hostAddress
  | .hardReset => .next s.clearRegisters

/-! ### The host script (30_encoding R80, R81) -/

/-- `WR reg, v` by register name. -/
def opWrite (r : Reg) (v : Word) : HostOp := .wr r.slot v

/-- `RD reg` by register name. -/
def opRead (r : Reg) : HostOp := .rd r.slot

/-- A command mnemonic as a statement: `WR CMD, code`. -/
def opCommand (w : BitVec 32) : HostOp := opWrite .cmd (w.setWidth 64)

/-- `FILL a, b0 … bk`: `ST8` at `a`, `a + 1`, …, the sums in the natural numbers (00_scope R10). Where they run past
the end of `MEM`, past 2^64 - 1 too, the `ST8` there faults as any other: no address wraps (DESIGN CHOICE, safe; log
entry 7). -/
def scriptFill : (a : Nat) → List Byte → List HostOp
  | _, [] => []
  | a, b :: bs => .st8 a b :: scriptFill (a + 1) bs

/-- `SETTX base, cap`. -/
def scriptSetTx (base cap : Word) : List HostOp :=
  [opWrite .txBase base, opWrite .txCap cap, opCommand 0x02#32]

/-- `SETRX base, valid`. -/
def scriptSetRx (base valid : Word) : List HostOp := [opWrite .rxBase base, opWrite .rxValid valid]

/-- `FRAME fin, opc, mask, src, len`. -/
def scriptFrame (fin opc mask src len : Word) : List HostOp :=
  [opWrite .eFin fin, opWrite .eOpc opc, opWrite .eMask mask, opWrite .eSrc src, opWrite .eLen len]

/-- `SENDTEXT src, len`. -/
def scriptSendText (src len : Word) : List HostOp := scriptFrame 1 1 1 src len ++ [opCommand 0x10#32]

/-! ### Presenting a table word -/

/-- A frame row's bytes arrive in the receive window: they are stored at `RX_BASE` (at 0, moving `RX_BASE` there,
where they would not lie in `MEM` at `RX_BASE`), and `RX_VALID` counts them. DESIGN CHOICE, safe (log entry 4): on a
build whose `MEM` has fewer bytes than the row, no byte is stored, since `MemWrite` requires an address below
`MEM_SIZE` (00_scope R11), and the `DEC` that follows ends with `E_WINDOW`. -/
def State.receive (s : State) (bs : List Byte) : State :=
  let base : Word := if s.inMem s.rxBase.toNat bs.length then s.rxBase else 0#64
  let t := if s.inMem base.toNat bs.length then s.writeBytes base.toNat bs else s
  { t with rxBase := base, rxValid := BitVec.ofNat 64 bs.length }

/-- Is a table word of `nbits` bits a command word (30_encoding R75), not bytes of a frame? -/
def isCommandWord (nbits w : Nat) : Bool := decide (nbits = 32) && !isShortHeaderWord w

/-- The machine about to run a table word: a command word waits to be written to `CMD`; a frame row's bytes lie in
the receive window and `DEC` waits to be written to `CMD` (log entry 4). -/
def State.present (s : State) (nbits w : Nat) : State :=
  if isCommandWord nbits w then { s with pending := opCommand (BitVec.ofNat 32 w) :: s.pending }
  else { s.receive (beBytes (nbits / 8) w) with pending := opCommand 0x20#32 :: s.pending }

end Sys2Proof.Machine
end

