-- ==== Sys2Proof/Machine/Step.lean ====
section
/-! DEFINITION. One step of the machine, and a table word placed where the next step takes it. -/

namespace Sys2Proof.Machine

/-- One step: the host's next step (00_scope R6). With no host step to come the block is idle and nothing changes
(60_exceptions R160, 70_reset_and_hazards R178). -/
def step (s : State) : Host.Outcome State Fault Refusal :=
  match s.pending with
  | [] => .next s
  | op :: rest => hostStep op { s with pending := rest }

/-- `s` with the table word `w` of `nbits` bits placed so that the next step runs it. -/
def State.withFetchWord (s : State) (nbits w : Nat) : State := s.present nbits w

end Sys2Proof.Machine
end

