-- ==== Sys2Proof/Safety.lean ====
section
/-! DEFINITION. What counts as a safe run, the invariant of the machine, and the words the claims are stated in. -/

namespace Sys2Proof.Machine

/-- A run is "gone wrong" if some command was refused: `STICKY` is not 0 (70_reset_and_hazards R178). -/
def State.goneWrong (s : State) : Bool := s.status.sticky != 0#7

/-! ### The invariant -/

/-- The memory is in canonical form and lists only addresses that exist (20_memory R56). -/
abbrev MemoryOk (s : State) : Prop :=
  s.mem.wf = true ∧ ∀ c ∈ s.mem, c.1 < s.params.memSize

/-- `CPL = 1` implies `HDRV = 1` (10_state R17); code 2 has never been reported (42_decode R119); a code other than
0 has its `STICKY` bit set (60_exceptions R156); `TXAB` comes from a recorded `E_CAPACITY` (10_state R17). -/
abbrev StatusOk (st : Status) : Prop :=
  (st.cpl = true → st.hdrv = true) ∧
  (st.code ≠ 2#3 ∧ st.sticky.getLsbD 1 = false) ∧
  (st.code ≠ 0#3 → st.sticky.getLsbD (st.code.toNat - 1) = true) ∧
  (st.txab = true → st.sticky.getLsbD 0 = true)

/-- The header lengths that exist (30_encoding R70). -/
abbrev headerLengths : List Nat := [2, 4, 6, 8, 10, 14]

/-- The result registers are sane: `E_HLEN` is 0 or a header length and `E_FLEN` is not below it (10_state R28,
R29); after an attempt with a whole header `D_HLEN` is a header length and `D_OPC` is in 0..6 (R33, R37); after a
complete one `D_FLEN = D_HLEN + D_LEN` (R38). -/
abbrev ResultsOk (s : State) : Prop :=
  (s.eHlen = 0#4 ∨ s.eHlen.toNat ∈ headerLengths) ∧
  s.eHlen.toNat ≤ s.eFlen.toNat ∧
  (s.status.hdrv = true → s.dHlen.toNat ∈ headerLengths ∧ s.dOpc ≠ 7#3) ∧
  (s.status.cpl = true → s.dFlen.toNat = s.dHlen.toNat + s.dLen.toNat)

/-- Every handler event has a class in 0..6 (10_state R44). -/
abbrev HistoryOk (s : State) : Prop := ∀ e ∈ s.hnd, e.cls ≠ 7#3

/-- The invariant every step keeps. -/
abbrev Inv (s : State) : Prop :=
  s.params.Valid ∧ MemoryOk s ∧ StatusOk s.status ∧ ResultsOk s ∧ HistoryOk s

/-! ### Words for claims about receive windows -/

/-- Byte `k` of a list, read as a frame; 0 beyond its end. -/
def listByte (bs : List Byte) (k : Nat) : Byte := bs.getD k 0#8

/-- The bytes are exactly one whole frame: header and payload, nothing after (30_encoding R64). -/
def isWholeFrame (bs : List Byte) : Bool :=
  headerValid bs.length (frameHdrLen (listByte bs)) &&
    decide (frameHdrLen (listByte bs) + (framePayloadLen (listByte bs)).toNat = bs.length)

/-- The bytes hold no whole frame at their start: nothing, a cut header, or a cut payload (42_decode R115). -/
def isPartialFrame (bs : List Byte) : Bool :=
  !frameComplete bs.length (frameHdrLen (listByte bs)) (framePayloadLen (listByte bs)).toNat

/-- A whole frame with its payload in plain: unmasked with its own key if MASK is 1 (42_decode R117). -/
def plainFrame (bs : List Byte) : List Byte :=
  if maskOf (listByte bs 1) = 1#1 then
    bs.take (frameHdrLen (listByte bs)) ++
      xorMask (frameKey (listByte bs)) (bs.drop (frameHdrLen (listByte bs)))
  else bs

/-- The handler events of whole frames lying one after another from address `a` (43_assemble R127). -/
def frameEvents (wire : OpcWire) : (a : Nat) → List (List Byte) → List Event
  | _, [] => []
  | a, bs :: rest =>
    { cls := classOf wire (opcOf (listByte bs 0))
      addr := BitVec.ofNat 64 (a + frameHdrLen (listByte bs))
      len := framePayloadLen (listByte bs) } :: frameEvents wire (a + bs.length) rest

end Sys2Proof.Machine
end

