-- ==== Sys2Proof/Certificates/Slice0/Obligations.lean ====
section
/-! DEFINITION. The statements about WSFC for the provers, from the numbered rules of spec/. -/

open Sys2Proof Sys2Proof.Machine

/-! ### Encodings -/

/-- 30_encoding R70, R73, R75, R76: decoding the table word of a well-formed instruction gives it back, with every
operand at every value, whatever the wire values (distinct, R8), and with the table's own wire values. -/
def Obligations.DecodeOfEncodeIsTheInstruction : Prop :=
  (∀ (w : OpcWire), w.Distinct → ∀ i : Instr, i.WellFormed →
    decodeBits w (encode w i).1 (encode w i).2 = .ok i) ∧
  (∀ i : Instr, i.WellFormed →
    decodeTableWord (encode Config.params.opcWire i).1 (encode Config.params.opcWire i).2 = some i)

/-- 30_encoding R64 to R71: the header decoder answers exactly when the bytes are the header of a well-formed
header row followed by the rest. So no bit of a header is dropped and no other bytes are taken for one. -/
def Obligations.HeaderDecoderAcceptsExactlyTheHeaders : Prop :=
  ∀ (w : OpcWire) (bs rest : List Byte) (i : Instr),
    decodeHeader bs = .ok (i, rest) ↔
      i.WellFormed ∧ 2 ≤ (frameBytes w i).length ∧ bs = frameBytes w i ++ rest

/-- 30_encoding R71: the only reason a header is not decoded is that its bytes are cut: fewer than 2, or fewer than
the header length byte 1 announces. There is no illegal header (R79). -/
def Obligations.HeaderIsRefusedOnlyWhenCut : Prop :=
  ∀ (bs : List Byte),
    (∃ r, decodeHeader bs = .ok r) ↔
      2 ≤ bs.length ∧ frameHdrLen (listByte bs) ≤ bs.length

/-- 30_encoding R75 to R77: the seven command words decode to the seven commands, and no other word decodes. -/
def Obligations.ExactlySevenCommandWords : Prop :=
  ∀ (w : BitVec 32) (i : Instr),
    decodeCommand w = .ok i ↔
      (w = 0x00 ∧ i = .nop) ∨ (w = 0x01 ∧ i = .srst) ∨ (w = 0x02 ∧ i = .txinit) ∨ (w = 0x10 ∧ i = .enc) ∨
      (w = 0x20 ∧ i = .dec) ∨ (w = 0x21 ∧ i = .asm) ∨ (w = 0x30 ∧ i = .msk)

/-- A few words written out from 30_encoding R70, R73 and R76, one or more per format. -/
def Obligations.WordsOfTheTableDecode : Prop :=
  decodeTableWord 32 0x00000010 = some .enc ∧
  decodeTableWord 32 0x00000021 = some .asm ∧
  decodeTableWord 32 0x00000011 = none ∧
  decodeTableWord 16 0x8105 = some (.f7u 1 0 1 5) ∧
  decodeTableWord 48 0x818537FA213D = some (.f7m 1 0 1 5 0x37FA213D) ∧
  decodeTableWord 32 0x827E01F4 = some (.f16u 1 0 2 500) ∧
  decodeTableWord 112 0x82FF000000000001000037FA213D = some (.f64m 1 0 2 65536 0x37FA213D) ∧
  decodeTableWord 8 0x89 = some (.opcPing 1 0) ∧
  decodeTableWord 8 0x83 = none

/-! ### The sub-units -/

/-- 40_subunits R83: the selector and extension of `len_class`, always the smallest form. -/
def Obligations.LengthFormIsTheSmallest : Prop :=
  ∀ len : Word,
    (len.toNat < 126 → lenClass len = (len.setWidth 7, 0)) ∧
    (126 ≤ len.toNat → len.toNat < 65536 → lenClass len = (126#7, 2)) ∧
    (65536 ≤ len.toNat → lenClass len = (127#7, 8)) ∧
    ((lenClass len).2 = 0 ↔ len.toNat ≤ 125) ∧
    ((lenClass len).2 = 2 ↔ 126 ≤ len.toNat ∧ len.toNat ≤ 65535) ∧
    ((lenClass len).2 = 8 ↔ 65536 ≤ len.toNat)

/-- 40_subunits R85: the deserializer on its three cases, byte by byte, a non-minimal spelling taken as it stands; and
for every 64-bit length it undoes the serializer. -/
def Obligations.LengthSerializerRoundTrip : Prop :=
  (∀ len : Word, lenDecode (lenClass len).1 (lenExtBytes len) = len) ∧
  (∀ (sel : BitVec 7) (e : List Byte), sel.toNat ≤ 125 → extOf sel = 0 ∧ lenDecode sel e = sel.setWidth 64) ∧
  (extOf 126#7 = 2 ∧ ∀ e0 e1 : Byte, (lenDecode 126#7 [e0, e1]).toNat = e0.toNat * 2 ^ 8 + e1.toNat) ∧
  (extOf 127#7 = 8 ∧ ∀ e0 e1 e2 e3 e4 e5 e6 e7 : Byte,
    (lenDecode 127#7 [e0, e1, e2, e3, e4, e5, e6, e7]).toNat =
      e0.toNat * 2 ^ 56 + e1.toNat * 2 ^ 48 + e2.toNat * 2 ^ 40 + e3.toNat * 2 ^ 32 +
      e4.toNat * 2 ^ 24 + e5.toNat * 2 ^ 16 + e6.toNat * 2 ^ 8 + e7.toNat)

/-- 40_subunits R88: the laws of the packer and parser of bytes 0 and 1, for distinct wire values. -/
def Obligations.ParserUndoesPacker : Prop :=
  ∀ w : OpcWire, w.Distinct →
    (∀ fin c, parseB0 w (packB0 w fin c) = (fin, classCode c)) ∧
    (∀ m sel, parseB1 (packB1 m sel) = (m, sel)) ∧
    (∀ b1 : Byte, packB1 (parseB1 b1).1 (parseB1 b1).2 = b1) ∧
    (∀ b0 : Byte, (∃ fin c, packB0 w fin c = b0) ↔
      rsvOf b0 = 0#3 ∧ classOf w (opcOf b0) ≠ unrecognized)

/-- 40_subunits R90: byte `i` of the masked data is byte `i` XOR `KEY[i mod 4]`, and the length is kept. -/
def Obligations.MaskingXorsByteWise : Prop :=
  ∀ (key : BitVec 32) (d : List Byte),
    (xorMask key d).length = d.length ∧
    ∀ (i : Nat) (h : i < d.length), (xorMask key d)[i]? = some (d[i] ^^^ (keyBytes key).getD (i % 4) 0)

/-- 40_subunits R91: involution, length, zero key, splitting with the rotated key. -/
def Obligations.MaskingLaws : Prop :=
  (∀ (key : BitVec 32) (d : List Byte), xorMask key (xorMask key d) = d) ∧
  (∀ (key : BitVec 32) (d : List Byte), (xorMask key d).length = d.length ∧ xorMask key [] = []) ∧
  (∀ d : List Byte, xorMask 0#32 d = d) ∧
  (∀ (key : BitVec 32) (d1 d2 : List Byte),
    xorMask key (d1 ++ d2) = xorMask key d1 ++ xorMask (rotKey key (d1.length % 4)) d2) ∧
  (∀ (key : BitVec 32) (j t : Nat), keyByte (rotKey key j) t = keyByte key (t + j))

/-- 40_subunits R89, 30_encoding R70: the bytes the encoder writes as a header are those of one of the six header
rows, the one the length class and the MASK flag select, and there are `hdr_len` of them. -/
def Obligations.EncoderHeaderIsAHeaderRow : Prop :=
  ∀ (w : OpcWire) (fin : BitVec 1) (c : OpClass) (key : BitVec 32) (len : Word),
    (∀ m, (headerBytes w fin c m key len).length = hdrLen (lenClass len).1 m) ∧
    headerBytes w fin c 0#1 key len = frameBytes w
      (if len.toNat < 126 then .f7u fin 0 (wireValue w c) (len.setWidth 7)
       else if len.toNat < 65536 then .f16u fin 0 (wireValue w c) (len.setWidth 16)
       else .f64u fin 0 (wireValue w c) len) ∧
    headerBytes w fin c 1#1 key len = frameBytes w
      (if len.toNat < 126 then .f7m fin 0 (wireValue w c) (len.setWidth 7) key
       else if len.toNat < 65536 then .f16m fin 0 (wireValue w c) (len.setWidth 16) key
       else .f64m fin 0 (wireValue w c) len key)

/-! ### Reset and the control commands -/

/-- 10_state R48, R44: at the start of a run every slot reads 0 and `HND` is empty; no byte of `MEM` has been
written (what such a byte reads as is the model's free value, log entry 1). -/
def Obligations.ResetReadsZero : Prop :=
  (∀ slot : BitVec 5, State.reset.readSlot slot = 0) ∧ State.reset.hnd = [] ∧
  (∀ a : Nat, Memory.find State.reset.mem a = none)

/-- 44_control R137, 10_state R48, 70_reset_and_hazards R161, R162: after `SRST`, and after a hard reset, every slot
reads 0, and `MEM` and `HND` are as before. -/
def Obligations.ResetsClearRegistersOnly : Prop :=
  (∀ s : State, ∃ t, exec .srst s = .next t ∧ (∀ slot, t.readSlot slot = 0) ∧
    t.mem = s.mem ∧ t.hnd = s.hnd ∧ t.params = s.params) ∧
  (∀ s : State, ∃ t, hostStep .hardReset s = .next t ∧ (∀ slot, t.readSlot slot = 0) ∧
    t.mem = s.mem ∧ t.hnd = s.hnd ∧ t.params = s.params)

/-- 44_control R136: `NOP` is the word 0; it overwrites `CODE` with 0 and changes nothing else. -/
def Obligations.NopClearsTheCodeOnly : Prop :=
  decodeCommand 0x00000000 = .ok .nop ∧ ∀ s : State, exec .nop s = .next { s with status := { s.status with code := 0 } }

/-- 44_control R138: `TXINIT` is the word 2; it rewinds the cursor, clears `TXAB` and `CODE`, and changes nothing
else; `TX_REM` then reads `TX_CAP`. -/
def Obligations.TxinitRewindsTheCursor : Prop :=
  decodeCommand 0x00000002 = .ok .txinit ∧ ∀ s : State, ∃ t, exec .txinit s = .next t ∧
    t = { s with txWptr := 0, status := { s.status with txab := false, code := 0 } } ∧
    t.readReg .txRem = t.txCap

/-- 70_reset_and_hazards R163: a block fresh from reset does no harm to `MEM`. The first `ENC` ends with
`E_CAPACITY` (`TX_CAP = 0`) and sets `TXAB`; the first `DEC` finds no frame; the first `ASM` consumes nothing. -/
def Obligations.FirstCommandsAfterReset : Prop :=
  exec .enc State.reset = .next { State.reset with status :=
    { code := 1, txab := true, cpl := false, hdrv := false, sticky := 1 } } ∧
  (∃ t, exec .dec State.reset = .next t ∧ t.status = Status.reset ∧ t.mem = []) ∧
  (∃ t, exec .asm State.reset = .next t ∧ t.status = Status.reset ∧ t.mem = [] ∧ t.aConsumed = 0 ∧ t.hnd = [])

/-! ### Completion codes -/

/-- 60_exceptions R144, R156: the numbers of the eight completion codes; and raising an error with code `k` writes
`CODE`, sets `STICKY` bit `8 + k` of the register, and changes nothing else: not another bit of `STATUS`, not another
register, not `MEM`, not `HND`. -/
def Obligations.RaiseWritesCodeAndStickyOnly : Prop :=
  (Completion.ok.code = 0 ∧ Completion.capacity.code = 1 ∧ Completion.malformed.code = 2 ∧
    Completion.opcode.code = 3 ∧ Completion.window.code = 4 ∧ Completion.abandoned.code = 5 ∧
    Completion.overlap.code = 6 ∧ Completion.badcmd.code = 7) ∧
  ∀ (s : State) (c : Completion), c ≠ .ok →
    (s.finish c).status.word.getLsbD (8 + c.code.toNat) = true ∧
    (s.finish c).status.word.extractLsb' 0 3 = c.code ∧
    (∀ b : Nat, 3 ≤ b → b ≠ 8 + c.code.toNat →
      (s.finish c).status.word.getLsbD b = s.status.word.getLsbD b) ∧
    s.finish c = { s with status := (s.finish c).status }

/-- 10_state R17: the layout of `STATUS`. The reserved bits 7:6, 8 and 31:16 read 0. -/
def Obligations.StatusWordLayout : Prop :=
  ∀ st : Status,
    st.word.extractLsb' 0 3 = st.code ∧ st.word.getLsbD 3 = st.txab ∧ st.word.getLsbD 4 = st.cpl ∧
    st.word.getLsbD 5 = st.hdrv ∧ st.word.extractLsb' 6 3 = 0#3 ∧ st.word.extractLsb' 9 7 = st.sticky ∧
    st.word.extractLsb' 16 16 = 0#16

/-! ### The encoder -/

/-- 41_encode R101 to R103: when every check of R95 to R100 passes, `ENC` writes the header and the payload at
`TX_BASE + TX_WPTR`, sets `E_HLEN`, `E_FLEN`, `TX_WPTR`, clears `CODE`, and changes nothing else: no other
register, no other byte. -/
def Obligations.EncodeWritesTheFrame : Prop :=
  ∀ (s : State) (c : OpClass),
    s.status.txab = false → classOfCode s.eOpc = some c →
    s.txBase.toNat + s.txCap.toNat ≤ s.params.memSize →
    s.txWptr.toNat + s.encFrameLen ≤ s.txCap.toNat →
    (s.eLen.toNat = 0 ∨ s.eSrc.toNat + s.eLen.toNat ≤ s.params.memSize ∧
      (s.eSrc.toNat + s.eLen.toNat ≤ s.encDst ∨ s.encDst + s.encFrameLen ≤ s.eSrc.toNat)) →
    ∃ t, exec .enc s = .next t ∧
      t = { s with
        mem := t.mem, eHlen := t.eHlen, eFlen := t.eFlen, txWptr := t.txWptr,
        status := { s.status with code := 0 } } ∧
      t.eHlen.toNat = s.encHdrLen ∧ t.eFlen.toNat = s.encFrameLen ∧
      t.txWptr.toNat = s.txWptr.toNat + s.encFrameLen ∧
      (t.readReg .txRem).toNat = s.txCap.toNat - (s.txWptr.toNat + s.encFrameLen) ∧
      t.readBytes s.encDst s.encHdrLen
        = headerBytes s.params.opcWire s.eFin c s.eMask s.eKey s.eLen ∧
      (∀ i, i < s.eLen.toNat → t.memRead (s.encDst + s.encHdrLen + i) =
        if s.eMask = 1 then s.memRead (s.eSrc.toNat + i) ^^^ keyByte s.eKey (i % 4)
        else s.memRead (s.eSrc.toNat + i)) ∧
      (∀ a, a < s.encDst ∨ s.encDst + s.encFrameLen ≤ a → t.memRead a = s.memRead a)

/-- 41_encode R98: a frame that exceeds the remaining space ends with `E_CAPACITY`: `TXAB` set, the
`min(H, rem)` bytes at the frame's place each a fresh unspecified value, nothing else changed. -/
def Obligations.CapacityFailureEffects : Prop :=
  ∀ (s : State) (c : OpClass),
    s.status.txab = false → classOfCode s.eOpc = some c →
    s.txBase.toNat + s.txCap.toNat ≤ s.params.memSize →
    s.txWptr.toNat ≤ s.txCap.toNat →
    s.txCap.toNat - s.txWptr.toNat < s.encHdrLen + s.eLen.toNat →
    ∃ t, exec .enc s = .next t ∧
      t = { s with
        mem := t.mem, draws := t.draws,
        status := { s.status with code := 1, txab := true, sticky := s.status.sticky ||| 1 } } ∧
      (∀ k, k < min s.encHdrLen (s.txCap.toNat - s.txWptr.toNat) →
        t.memRead (s.encDst + k) = Config.any 8 (s.draws + k)) ∧
      (∀ a, a < s.encDst ∨ s.encDst + min s.encHdrLen (s.txCap.toNat - s.txWptr.toNat) ≤ a →
        t.memRead a = s.memRead a)

/-- 60_exceptions R144, R155, 41_encode R95 to R100: the checks of `ENC` in order, each refusal without any effect but
`CODE` and its `STICKY` bit, written out: `E_ABANDONED` is 5, `E_OPCODE` 3, `E_WINDOW` 4, `E_OVERLAP` 6.
(`E_CAPACITY` is `CapacityFailureEffects`.) -/
def Obligations.EncodeChecksInOrder : Prop :=
  ∀ s : State,
    (s.status.txab = true → exec .enc s = .next { s with status :=
      { s.status with code := 5, sticky := s.status.sticky ||| 16 } }) ∧
    (s.status.txab = false → 6 ≤ s.eOpc.toNat → exec .enc s = .next { s with status :=
      { s.status with code := 3, sticky := s.status.sticky ||| 4 } }) ∧
    (s.status.txab = false → s.eOpc.toNat < 6 →
      s.params.memSize < s.txBase.toNat + s.txCap.toNat ∨ s.txCap.toNat < s.txWptr.toNat →
      exec .enc s = .next { s with status :=
        { s.status with code := 4, sticky := s.status.sticky ||| 8 } }) ∧
    (s.status.txab = false → s.eOpc.toNat < 6 →
      s.txBase.toNat + s.txCap.toNat ≤ s.params.memSize →
      s.txWptr.toNat + s.encFrameLen ≤ s.txCap.toNat →
      0 < s.eLen.toNat → s.params.memSize < s.eSrc.toNat + s.eLen.toNat →
      exec .enc s = .next { s with status :=
        { s.status with code := 4, sticky := s.status.sticky ||| 8 } }) ∧
    (s.status.txab = false → s.eOpc.toNat < 6 →
      s.txBase.toNat + s.txCap.toNat ≤ s.params.memSize →
      s.txWptr.toNat + s.encFrameLen ≤ s.txCap.toNat →
      0 < s.eLen.toNat → s.eSrc.toNat + s.eLen.toNat ≤ s.params.memSize →
      s.eSrc.toNat < s.encDst + s.encFrameLen → s.encDst < s.eSrc.toNat + s.eLen.toNat →
      exec .enc s = .next { s with status :=
        { s.status with code := 6, sticky := s.status.sticky ||| 32 } })

/-- 41_encode R106 (b), R98: an `ENC`, successful or not, leaves every byte of the window below its cursor, so
the frames written before it, as they were. -/
def Obligations.EncodeKeepsEarlierFrames : Prop :=
  ∀ s t : State, exec .enc s = .next t →
    ∀ a, a < s.encDst → t.memRead a = s.memRead a

/-- 10_state R25, 92 D19: with `E_MASK = 0` the key is not read: another key gives the same next state but for the
key itself. The bytes that a capacity failure spoils agree because both runs start from the same draw counter (log
entry 2): that they do is the model's, no rule gives it. -/
def Obligations.UnmaskedEncodeIgnoresTheKey : Prop :=
  ∀ (s t : State) (key : BitVec 32), s.eMask = 0 → exec .enc s = .next t →
    exec .enc { s with eKey := key } = .next { t with eKey := key }

/-! ### The decoder -/

/-- 42_decode R111, R108, R115: the determinate outputs of `DEC` on a window inside `MEM`, for every valid length,
with the flags `HDRV` and `CPL` always determinate and `CODE = 0` whether the frame is complete or not. Nothing
but the decode registers, the flags, `MEM` and the draw counter changes. -/
def Obligations.DecodeDeterminateOutputs : Prop :=
  ∀ (s : State) (f : Nat → Byte),
    s.rxBase.toNat + s.rxValid.toNat ≤ s.params.memSize →
    (∀ k, f k = s.memRead (s.rxBase.toNat + k)) →
    ∃ t, exec .dec s = .next t ∧
      (1 ≤ s.rxValid.toNat → t.dFin = finOf (f 0) ∧ t.dOpc = classOf s.params.opcWire (opcOf (f 0))) ∧
      (2 ≤ s.rxValid.toNat →
        t.dMask = maskOf (f 1) ∧ t.dHlen.toNat = hdrLen (selOf (f 1)) (maskOf (f 1))) ∧
      (2 + extOf (selOf (f 1)) ≤ s.rxValid.toNat → 2 ≤ s.rxValid.toNat →
        t.dLen = lenDecode (selOf (f 1)) (s.readBytes (s.rxBase.toNat + 2) (extOf (selOf (f 1))))) ∧
      (2 ≤ s.rxValid.toNat → maskOf (f 1) = 1 → hdrLen (selOf (f 1)) 1 ≤ s.rxValid.toNat →
        t.dKey = frameKey f) ∧
      (t.status.hdrv = true ↔ 2 ≤ s.rxValid.toNat ∧ frameHdrLen f ≤ s.rxValid.toNat) ∧
      (t.status.cpl = true ↔ 2 ≤ s.rxValid.toNat ∧ frameHdrLen f ≤ s.rxValid.toNat ∧
        frameHdrLen f + (framePayloadLen f).toNat ≤ s.rxValid.toNat) ∧
      (t.status.cpl = true →
        t.dFlen.toNat = frameHdrLen f + (framePayloadLen f).toNat ∧
        t.dPaddr = BitVec.ofNat 64 (s.rxBase.toNat + frameHdrLen f)) ∧
      t = { s with
        dFin := t.dFin, dOpc := t.dOpc, dMask := t.dMask, dKey := t.dKey, dLen := t.dLen, dHlen := t.dHlen,
        dFlen := t.dFlen, dPaddr := t.dPaddr, mem := t.mem, draws := t.draws,
        status := { s.status with code := 0, hdrv := t.status.hdrv, cpl := t.status.cpl } }

/-- 42_decode R116 to R118: an attempt that is not complete, or is unmasked, changes no byte; a complete masked one
XORs its payload in place with the key it read and changes no other byte, the header included. -/
def Obligations.DecodeUnmasksInPlace : Prop :=
  ∀ s t : State, exec .dec s = .next t →
    (t.status.cpl = false ∨ t.dMask = 0 → t.mem = s.mem) ∧
    (t.status.cpl = true → t.dMask = 1 →
      (∀ i, i < t.dLen.toNat → t.memRead (s.rxBase.toNat + t.dHlen.toNat + i) =
        s.memRead (s.rxBase.toNat + t.dHlen.toNat + i) ^^^ keyByte t.dKey (i % 4)) ∧
      (∀ a, a < s.rxBase.toNat + t.dHlen.toNat ∨ s.rxBase.toNat + t.dHlen.toNat + t.dLen.toNat ≤ a →
        t.memRead a = s.memRead a))

/-- 42_decode R109, 43_assemble R125: a receive window that does not lie in `MEM` ends `DEC` and `ASM` with
`E_WINDOW`, clears `CPL` and `HDRV`, and changes nothing else. -/
def Obligations.ReceiveWindowError : Prop :=
  ∀ s : State, s.params.memSize < s.rxBase.toNat + s.rxValid.toNat →
    exec .dec s = .next { s with status :=
      { s.status with code := 4, cpl := false, hdrv := false, sticky := s.status.sticky ||| 8 } } ∧
    exec .asm s = .next { s with status :=
      { s.status with code := 4, cpl := false, hdrv := false, sticky := s.status.sticky ||| 8 } }

/-- 42_decode R110, 20_memory R54: `DEC` reads no byte outside the valid region: with any other memory that agrees
with it there, the next state is the same but for the bytes of memory outside. The unspecified outputs agree because
both runs start from the same draw counter (log entry 2): that they do is the model's, no rule gives it. -/
def Obligations.DecodeNeverOverReads : Prop :=
  ∀ (s t : State) (m : Memory),
    (∀ k, k < s.rxValid.toNat →
      Memory.read m (s.rxBase.toNat + k) = s.memRead (s.rxBase.toNat + k)) →
    exec .dec s = .next t →
    ∃ u, exec .dec { s with mem := m } = .next u ∧ u = { t with mem := u.mem } ∧
      (∀ k, k < s.rxValid.toNat → u.memRead (s.rxBase.toNat + k) = t.memRead (s.rxBase.toNat + k)) ∧
      (∀ a, a < s.rxBase.toNat ∨ s.rxBase.toNat + s.rxValid.toNat ≤ a → u.memRead a = Memory.read m a)

/-- 42_decode R122 (b), (c), (d): if the window holds a complete frame, then with fewer valid bytes than the frame
`DEC` reports incomplete and changes no byte; and once the header is whole it gives the same header fields. -/
def Obligations.TruncatedFrameIsIncomplete : Prop :=
  ∀ (s t : State) (n : Word), exec .dec s = .next t → t.status.code = 0 → t.status.cpl = true →
    n.toNat < t.dFlen.toNat →
    ∃ u, exec .dec { s with rxValid := n } = .next u ∧ u.status.cpl = false ∧ u.status.code = 0 ∧
      u.mem = s.mem ∧
      (t.dHlen.toNat ≤ n.toNat →
        u.status.hdrv = true ∧ u.dFin = t.dFin ∧ u.dOpc = t.dOpc ∧ u.dMask = t.dMask ∧ u.dLen = t.dLen ∧
        u.dHlen = t.dHlen ∧ (t.dMask = 1 → u.dKey = t.dKey))

/-- 42_decode R118: a second attempt on a complete frame is complete again with the same fields, and every byte
reads as it did before the first: the payload is masked again. -/
def Obligations.DecodingTwiceRestoresTheBytes : Prop :=
  ∀ s t : State, exec .dec s = .next t → t.status.code = 0 → t.status.cpl = true →
    ∃ u, exec .dec t = .next u ∧ u.status.cpl = true ∧ u.status.code = 0 ∧
      u.dFin = t.dFin ∧ u.dOpc = t.dOpc ∧ u.dMask = t.dMask ∧ u.dLen = t.dLen ∧ u.dHlen = t.dHlen ∧
      u.dFlen = t.dFlen ∧ u.dPaddr = t.dPaddr ∧ (t.dMask = 1 → u.dKey = t.dKey) ∧
      (∀ a, u.memRead a = s.memRead a)

/-- 41_encode R106 (c): encode, then decode where the frame lies. If `ENC` succeeds, and the host sets `RX_BASE` to
the frame's place and `RX_VALID` to at least its length (within `MEM`), `DEC` reports it complete with the encoded
opcode class, FIN, MASK, key (if masked) and length, and the payload at `D_PADDR` is the source's. -/
def Obligations.EncodeThenDecodeRoundTrip : Prop :=
  ∀ (s t : State) (valid : Word),
    s.params.Valid → exec .enc s = .next t → t.status.code = 0 →
    t.eFlen.toNat ≤ valid.toNat → s.encDst + valid.toNat ≤ s.params.memSize →
    ∃ u, exec .dec { t with rxBase := BitVec.ofNat 64 s.encDst, rxValid := valid } = .next u ∧
      u.status.code = 0 ∧ u.status.cpl = true ∧ u.status.hdrv = true ∧
      u.dFin = s.eFin ∧ u.dOpc = s.eOpc ∧ u.dMask = s.eMask ∧ (s.eMask = 1 → u.dKey = s.eKey) ∧
      u.dLen = s.eLen ∧ u.dHlen = t.eHlen ∧ u.dFlen = t.eFlen ∧
      u.readBytes (s.encDst + t.eHlen.toNat) s.eLen.toNat = s.readBytes s.eSrc.toNat s.eLen.toNat ∧
      u.dPaddr = BitVec.ofNat 64 (s.encDst + t.eHlen.toNat)

/-! ### The frame rows of the table -/

/-- 30_encoding R70, 42_decode R111 to R117: what a header of each of the six formats does to the decoder that meets
it with its header whole: FIN, class, MASK, length, key and header length as the format spells them, `HDRV = 1`,
`CPL = 1` exactly when the payload is whole too; of a complete frame also `D_FLEN` and `D_PADDR`, and a masked payload
is unmasked in place. A window that cuts the header is `HeaderRowsCutByTheWindow`. That a row means this is the
model's reading (log entry 5). -/
def Obligations.HeaderRowsSetTheDecodeRegisters : Prop :=
  ∀ (s : State) (fin : BitVec 1) (rsv : BitVec 3) (opc : BitVec 4) (l7 : BitVec 7) (l16 : BitVec 16)
    (l64 : BitVec 64) (key : BitVec 32),
    s.rxBase.toNat + s.rxValid.toNat ≤ s.params.memSize →
    ∀ row ∈ [(Instr.f7u fin rsv opc l7, 2, 0#1, l7.toNat), (Instr.f7m fin rsv opc l7 key, 6, 1#1, l7.toNat),
        (Instr.f16u fin rsv opc l16, 4, 0#1, l16.toNat), (Instr.f16m fin rsv opc l16 key, 8, 1#1, l16.toNat),
        (Instr.f64u fin rsv opc l64, 10, 0#1, l64.toNat), (Instr.f64m fin rsv opc l64 key, 14, 1#1, l64.toNat)],
      row.1.WellFormed → row.2.1 ≤ s.rxValid.toNat →
      ∃ t, exec row.1 s = .next t ∧
        t.dFin = fin ∧ t.dOpc = classOf s.params.opcWire opc ∧ t.dMask = row.2.2.1 ∧
        t.dHlen.toNat = row.2.1 ∧ t.dLen.toNat = row.2.2.2 ∧ (row.2.2.1 = 1#1 → t.dKey = key) ∧
        t.status.code = 0 ∧ t.status.hdrv = true ∧
        (t.status.cpl = true ↔ row.2.1 + row.2.2.2 ≤ s.rxValid.toNat) ∧
        (t.status.cpl = true → t.dFlen.toNat = row.2.1 + row.2.2.2 ∧
          t.dPaddr = BitVec.ofNat 64 (s.rxBase.toNat + row.2.1)) ∧
        (t.status.cpl = true → row.2.2.1 = 1#1 → ∀ i, i < row.2.2.2 →
          t.memRead (s.rxBase.toNat + row.2.1 + i) =
            s.memRead (s.rxBase.toNat + row.2.1 + i) ^^^ keyByte key (i % 4))

/-- 30_encoding R72, R73, 42_decode R112: what a byte 0 of each class does to the decoder that meets it: FIN and the
class code of the row. `CODE = 0`: an attempt is never an error. That a row means this is the model's reading (log
entry 5). -/
def Obligations.OpcodeRowsSetFinAndClass : Prop :=
  ∀ (s : State) (fin : BitVec 1) (rsv : BitVec 3),
    s.params.opcWire.Distinct → s.rxBase.toNat + s.rxValid.toNat ≤ s.params.memSize →
    1 ≤ s.rxValid.toNat →
    ∀ row ∈ [(Instr.opcContinuation fin rsv, 0#3), (Instr.opcText fin rsv, 1#3), (Instr.opcBinary fin rsv, 2#3),
        (Instr.opcClose fin rsv, 3#3), (Instr.opcPing fin rsv, 4#3), (Instr.opcPong fin rsv, 5#3)],
      ∃ t, exec row.1 s = .next t ∧ t.dFin = fin ∧ t.dOpc = row.2 ∧ t.status.code = 0

/-- Log entry 5 (the model's reading of the frame rows), 42_decode R110: where `MEM` holds the bytes of a frame row
at `RX_BASE`, `DEC` does exactly what the row does. -/
def Obligations.DecRunsTheFrameRowInTheWindow : Prop :=
  ∀ (s : State) (i : Instr),
    s.readBytes s.rxBase.toNat (frameBytes s.params.opcWire i).length = frameBytes s.params.opcWire i →
    commandWord i = none → exec .dec s = exec i s

/-- Log entry 5 (the model's reading of the frame rows: a row is `DEC` on a window that begins with its bytes), and of
`DEC` 20_memory R54, 42_decode R108, R109: the frame rows change only what `DEC` may change: the decode registers, the
decode flags and `CODE`, and, of memory, only the payload of a complete masked frame; outside `MEM` the window
is `E_WINDOW`. -/
def Obligations.FrameRowsFrame : Prop :=
  ∀ (i : Instr) (s : State), commandWord i = none →
    (s.params.memSize < s.rxBase.toNat + s.rxValid.toNat →
      exec i s = .next { s with status :=
        { s.status with code := 4, cpl := false, hdrv := false, sticky := s.status.sticky ||| 8 } }) ∧
    (s.rxBase.toNat + s.rxValid.toNat ≤ s.params.memSize →
      ∃ t, exec i s = .next t ∧
        t = { s with
          dFin := t.dFin, dOpc := t.dOpc, dMask := t.dMask, dKey := t.dKey, dLen := t.dLen, dHlen := t.dHlen,
          dFlen := t.dFlen, dPaddr := t.dPaddr, mem := t.mem, draws := t.draws,
          status := { s.status with code := 0, hdrv := t.status.hdrv, cpl := t.status.cpl } } ∧
        (t.status.cpl = false ∨ t.dMask = 0 → t.mem = s.mem) ∧
        (t.status.cpl = true → t.dMask = 1 →
          ∀ a, a < s.rxBase.toNat + t.dHlen.toNat ∨
            s.rxBase.toNat + t.dHlen.toNat + t.dLen.toNat ≤ a → t.memRead a = s.memRead a))

/-! ### The assembler -/

/-- 43_assemble R134, R127, R128: on a window that holds whole frames one after another and then a partial one,
`ASM` appends one event per whole frame, in order, with its class, payload address and length; `A_CONSUMED` is the
offset of the partial frame; the payloads are plain and the tail is as it was. -/
def Obligations.AssembleConsumesWholeFrames : Prop :=
  ∀ (s : State) (frames : List (List Byte)) (tail : List Byte),
    s.rxBase.toNat + s.rxValid.toNat ≤ s.params.memSize →
    s.readBytes s.rxBase.toNat s.rxValid.toNat = frames.flatten ++ tail →
    (∀ bs ∈ frames, isWholeFrame bs = true) → isPartialFrame tail = true →
    ∃ t, exec .asm s = .next t ∧ t.status.code = 0 ∧ t.status.cpl = false ∧
      t.aConsumed.toNat = frames.flatten.length ∧
      t.hnd = s.hnd ++ frameEvents s.params.opcWire s.rxBase.toNat frames ∧
      t.readBytes s.rxBase.toNat s.rxValid.toNat = (frames.map plainFrame).flatten ++ tail

/-- 43_assemble R132, R129, R130: on a window inside `MEM`, `ASM` always ends, with `CODE = 0` and `CPL = 0`,
`A_CONSUMED` at most `RX_VALID`, at least two bytes consumed per event, and no byte outside the consumed part of the
window changed; it writes no `E_*` or `TX_*` register and only appends to `HND`. -/
def Obligations.AssembleBoundsAndFrame : Prop :=
  ∀ s : State, s.rxBase.toNat + s.rxValid.toNat ≤ s.params.memSize →
    ∃ t es, exec .asm s = .next t ∧ t.status.cpl = false ∧ t.hnd = s.hnd ++ es ∧
      t.aConsumed.toNat ≤ s.rxValid.toNat ∧ 2 * es.length ≤ t.aConsumed.toNat ∧
      (∀ a, a < s.rxBase.toNat ∨ s.rxBase.toNat + t.aConsumed.toNat ≤ a → t.memRead a = s.memRead a) ∧
      t = { s with
        dFin := t.dFin, dOpc := t.dOpc, dMask := t.dMask, dKey := t.dKey, dLen := t.dLen, dHlen := t.dHlen,
        dFlen := t.dFlen, dPaddr := t.dPaddr, aConsumed := t.aConsumed, mem := t.mem, hnd := t.hnd,
        draws := t.draws, status := { s.status with code := 0, hdrv := t.status.hdrv, cpl := false } }

/-- 43_assemble R128, R133: `ASM` consumes nothing, and appends no event, exactly when `DEC` on the same window finds
no complete frame; and then it changes no byte, and leaves what `DEC` leaves. In that last clause the unspecified
outputs agree because both runs start from the same draw counter (log entry 2): that they do is the model's, no rule
gives it. -/
def Obligations.AssembleOfNoFrame : Prop :=
  ∀ s t : State, s.rxBase.toNat + s.rxValid.toNat ≤ s.params.memSize → exec .dec s = .next t →
    ∃ u, exec .asm s = .next u ∧
      (u.aConsumed = 0 ↔ t.status.cpl = false) ∧
      (u.hnd = s.hnd ↔ t.status.cpl = false) ∧
      (t.status.cpl = false → u.mem = s.mem ∧ u = { t with aConsumed := 0 })

/-- 43_assemble R134: splitting does not matter. `ASM` with fewer valid bytes, then, with the consumed bytes dropped
and all the bytes valid, `ASM` again, leaves the same events, the same bytes of memory and the same total consumed
as one `ASM` over the whole window. -/
def Obligations.AssembleInTwoPolls : Prop :=
  ∀ (s t u : State) (n : Word),
    s.params.Valid → s.rxBase.toNat + s.rxValid.toNat ≤ s.params.memSize → n.toNat ≤ s.rxValid.toNat →
    exec .asm { s with rxValid := n } = .next t →
    exec .asm { t with rxBase := s.rxBase + t.aConsumed, rxValid := s.rxValid - t.aConsumed } = .next u →
    ∃ w, exec .asm s = .next w ∧ w.hnd = u.hnd ∧
      w.aConsumed.toNat = t.aConsumed.toNat + u.aConsumed.toNat ∧ ∀ a, w.memRead a = u.memRead a

/-! ### The masking unit -/

/-- 40_subunits R92: `MSK` on a region inside `MEM` (or empty) XORs byte `i` with `KEY[i mod 4]`, clears `CODE`, and
changes nothing else. -/
def Obligations.MaskCommandXorsTheRegion : Prop :=
  ∀ s : State, s.eLen.toNat = 0 ∨ s.eSrc.toNat + s.eLen.toNat ≤ s.params.memSize →
    ∃ t, exec .msk s = .next t ∧
      t = { s with mem := t.mem, status := { s.status with code := 0 } } ∧
      (∀ i, i < s.eLen.toNat →
        t.memRead (s.eSrc.toNat + i) = s.memRead (s.eSrc.toNat + i) ^^^ keyByte s.eKey (i % 4)) ∧
      (∀ a, a < s.eSrc.toNat ∨ s.eSrc.toNat + s.eLen.toNat ≤ a → t.memRead a = s.memRead a)

/-- 40_subunits R92: a non-empty region outside `MEM` is `E_WINDOW` and changes no byte and no register. -/
def Obligations.MaskCommandWindowError : Prop :=
  ∀ s : State, 0 < s.eLen.toNat → s.params.memSize < s.eSrc.toNat + s.eLen.toNat →
    exec .msk s = .next { s with status :=
      { s.status with code := 4, sticky := s.status.sticky ||| 8 } }

/-- 40_subunits R92, R91 (a): two `MSK` in a row with the same operands restore the region: every byte of memory
reads as before the first. -/
def Obligations.MaskCommandTwiceRestores : Prop :=
  ∀ s t u : State, exec .msk s = .next t → exec .msk t = .next u → ∀ a, u.memRead a = s.memRead a

/-! ### The host -/

/-- 44_control R140, 10_state R14, R15: a host write of an `RW` register stores the low `W` bits and changes no other
register (but the view `TX_REM`); a write of an `RO` register or a reserved slot changes nothing. Neither touches
`STATUS`, `MEM` or `HND`. The ten `RW` slots of R15 are written out with their fields. -/
def Obligations.HostWriteStoresTheLowBits : Prop :=
  ∀ (s : State) (rest : List HostOp) (slot : BitVec 5) (v : Word),
    s.pending = .wr slot v :: rest → slot ≠ 0 →
    ∃ t, step s = .next t ∧ t.pending = rest ∧ t.status = s.status ∧ t.mem = s.mem ∧ t.hnd = s.hnd ∧
      (∀ r : Reg, r.slot = slot → r.access = .readWrite → (t.readReg r).toNat = v.toNat % 2 ^ r.width) ∧
      (∀ r : Reg, r.slot ≠ slot → r ≠ .txRem → t.readReg r = s.readReg r) ∧
      ((∀ r : Reg, r.slot = slot → r.access ≠ .readWrite) → t = { s with pending := rest }) ∧
      (slot = 2 → t = { s with pending := rest, txBase := v }) ∧
      (slot = 3 → t = { s with pending := rest, txCap := v }) ∧
      (slot = 6 → t = { s with pending := rest, eFin := v.setWidth 1 }) ∧
      (slot = 7 → t = { s with pending := rest, eOpc := v.setWidth 3 }) ∧
      (slot = 8 → t = { s with pending := rest, eMask := v.setWidth 1 }) ∧
      (slot = 9 → t = { s with pending := rest, eKey := v.setWidth 32 }) ∧
      (slot = 10 → t = { s with pending := rest, eLen := v }) ∧
      (slot = 11 → t = { s with pending := rest, eSrc := v }) ∧
      (slot = 14 → t = { s with pending := rest, rxBase := v }) ∧
      (slot = 15 → t = { s with pending := rest, rxValid := v }) ∧
      (slot ∉ [(2 : BitVec 5), 3, 6, 7, 8, 9, 10, 11, 14, 15] → t = { s with pending := rest })

/-- 44_control R141, 10_state R15, R16, R21: a host read changes no state and returns the register with zeros above,
`TX_REM` as the truncated difference, 0 for `CMD` and the reserved slots. Every slot of R15 is written out with the
field it reads. -/
def Obligations.HostReadReturnsTheRegister : Prop :=
  ∀ (s : State) (rest : List HostOp) (slot : BitVec 5), s.pending = .rd slot :: rest →
    step s = .next { s with pending := rest, reads := s.reads ++ [.reg slot (s.readSlot slot)] } ∧
    (slot = 0 ∨ 25 ≤ slot.toNat → s.readSlot slot = 0) ∧
    (s.readSlot Reg.txRem.slot).toNat = s.txCap.toNat - s.txWptr.toNat ∧
    (s.readSlot 1 = s.status.word.setWidth 64 ∧ s.readSlot 2 = s.txBase ∧ s.readSlot 3 = s.txCap ∧
      s.readSlot 4 = s.txWptr ∧ (s.readSlot 5).toNat = s.txCap.toNat - s.txWptr.toNat ∧
      s.readSlot 6 = s.eFin.setWidth 64 ∧ s.readSlot 7 = s.eOpc.setWidth 64 ∧
      s.readSlot 8 = s.eMask.setWidth 64 ∧ s.readSlot 9 = s.eKey.setWidth 64 ∧ s.readSlot 10 = s.eLen ∧
      s.readSlot 11 = s.eSrc ∧ s.readSlot 12 = s.eFlen ∧ s.readSlot 13 = s.eHlen.setWidth 64 ∧
      s.readSlot 14 = s.rxBase ∧ s.readSlot 15 = s.rxValid ∧ s.readSlot 16 = s.dFin.setWidth 64 ∧
      s.readSlot 17 = s.dOpc.setWidth 64 ∧ s.readSlot 18 = s.dMask.setWidth 64 ∧
      s.readSlot 19 = s.dKey.setWidth 64 ∧ s.readSlot 20 = s.dLen ∧ s.readSlot 21 = s.dHlen.setWidth 64 ∧
      s.readSlot 22 = s.dFlen ∧ s.readSlot 23 = s.dPaddr ∧ s.readSlot 24 = s.aConsumed) ∧
    (∀ r : Reg, s.readSlot r.slot = s.readReg r ∧ (s.readReg r).toNat < 2 ^ r.width)

/-- 44_control R142: `ST8` sets one byte and `LD8` returns one, for `a < MEM_SIZE`; neither changes a register.
An address that does not exist stops the machine (log entry 7). -/
def Obligations.HostMemoryAccess : Prop :=
  ∀ (s : State) (rest : List HostOp) (a : Nat) (b : Byte),
    (s.pending = .st8 a b :: rest → a < s.params.memSize →
      ∃ t, step s = .next t ∧ t = { s with pending := rest, mem := t.mem } ∧
        ∀ x, t.memRead x = if x = a then b else s.memRead x) ∧
    (s.pending = .ld8 a :: rest → a < s.params.memSize →
      step s = .next { s with pending := rest, reads := s.reads ++ [.byte a (s.memRead a)] }) ∧
    (s.pending = .st8 a b :: rest ∨ s.pending = .ld8 a :: rest → s.params.memSize ≤ a →
      step s = .fault .hostAddress)

/-! ### Steps -/

/-- 10_state R16, 44_control R140: when the host's next step writes to `CMD` a value whose bits 31:0 decode to a
command, the step is `exec` of that command, the host's step being taken; an undefined word ends with `E_BADCMD`
(R139) and changes nothing else. `CMD` is slot 0 (R15). With no host step to come nothing changes: that the machine
then idles is log entry 4. -/
def Obligations.StepRunsTheDecodedCommand : Prop :=
  (∀ s : State, s.pending = [] → step s = .next s) ∧
  ∀ (s : State) (rest : List HostOp) (v : Word), s.pending = .wr 0 v :: rest →
    (∀ i, decodeCommand (v.setWidth 32) = .ok i → step s = exec i { s with pending := rest }) ∧
    ((∀ i, decodeCommand (v.setWidth 32) ≠ .ok i) →
      step s = .next { s with
        pending := rest
        status := { s.status with code := 7, sticky := s.status.sticky ||| 64 } })

/-- Log entries 4 and 5: the table word of an instruction, placed by `withFetchWord`, is run by the very next step: a
command as itself, a frame row with its bytes received in the window. -/
def Obligations.PlacedWordIsRunByTheNextStep : Prop :=
  ∀ (s : State) (i : Instr),
    (commandWord i ≠ none →
      step (s.withFetchWord (encode s.params.opcWire i).1 (encode s.params.opcWire i).2) = exec i s) ∧
    (commandWord i = none →
      step (s.withFetchWord (encode s.params.opcWire i).1 (encode s.params.opcWire i).2)
        = exec i (s.receive (frameBytes s.params.opcWire i)))

/-- 60_exceptions R143, R156: every instruction answers a next state from every state: an error of a command is a
completion code, never a stop. -/
def Obligations.EveryInstructionCompletes : Prop :=
  ∀ (i : Instr) (s : State), ∃ t, exec i s = .next t

/-- 10_state R14, R15: no command but `SRST` writes an `RW` register: the operands are as the host wrote them. -/
def Obligations.CommandsLeaveOperandRegisters : Prop :=
  ∀ (i : Instr) (s t : State), i ≠ .srst → exec i s = .next t →
    ∀ r : Reg, r.access = .readWrite → t.readReg r = s.readReg r

/-- 10_state R17, 60_exceptions R157: no instruction but `SRST` clears a `STICKY` bit, and none but `TXINIT` and
`SRST` clears `TXAB`. -/
def Obligations.StickyAndAbandonedPersist : Prop :=
  ∀ (i : Instr) (s t : State), exec i s = .next t → i ≠ .srst →
    t.status.sticky ||| s.status.sticky = t.status.sticky ∧
    (i ≠ .txinit → s.status.txab = true → t.status.txab = true)

/-- 10_state R44, 43_assemble R127: no step removes an event from `HND`, and no instruction but `ASM` appends
one. -/
def Obligations.EventsAreOnlyAppended : Prop :=
  (∀ s t : State, step s = .next t → ∃ es, t.hnd = s.hnd ++ es) ∧
  (∀ (i : Instr) (s t : State), i ≠ .asm → exec i s = .next t → t.hnd = s.hnd)

/-- 10_state R47: no step changes a parameter, and a fault is a host access outside `MEM` only. -/
def Obligations.ParametersNeverChange : Prop :=
  (∀ s t : State, step s = .next t → t.params = s.params) ∧
  (∀ (s : State) (r : Fault), step s = .fault r →
    ∃ a : Nat, s.params.memSize ≤ a ∧
      ((∃ b, s.pending.head? = some (.st8 a b)) ∨ s.pending.head? = some (.ld8 a)))

/-! ### The invariant -/

/-- The invariant holds at reset. -/
def Obligations.InvariantAtReset : Prop := Inv State.reset

/-- The invariant is kept by every step, from every state: the memory stays canonical and inside `MEM_SIZE`
(20_memory R56), `CPL` implies `HDRV` (10_state R17), code 2 is never reported (42_decode R119), a reported code
keeps its `STICKY` bit (60_exceptions R156, R157), the result registers stay sane (10_state R28, R29, R33, R37,
R38), and events carry classes 0..6 (R44). -/
def Obligations.EveryStepKeepsTheInvariant : Prop :=
  ∀ s t : State, Inv s → step s = .next t → Inv t

/-! ### Frame rows in a window that cuts them -/

/-- 30_encoding R70, R71, 42_decode R111, R115, R116: what a header of each of the six formats does to the decoder when
the receive window ends before the header does: no error, `HDRV = CPL = 0`, no byte changed, and the fields whose bytes
are valid as the format spells them. (The rest are unspecified.) That a row means this is the model's reading (log
entry 5). -/
def Obligations.HeaderRowsCutByTheWindow : Prop :=
  ∀ (s : State) (fin : BitVec 1) (rsv : BitVec 3) (opc : BitVec 4) (l7 : BitVec 7) (l16 : BitVec 16)
    (l64 : BitVec 64) (key : BitVec 32),
    s.rxBase.toNat + s.rxValid.toNat ≤ s.params.memSize →
    ∀ row ∈ [(Instr.f7u fin rsv opc l7, 2, 0#1, 0, l7.toNat), (Instr.f7m fin rsv opc l7 key, 6, 1#1, 0, l7.toNat),
        (Instr.f16u fin rsv opc l16, 4, 0#1, 2, l16.toNat), (Instr.f16m fin rsv opc l16 key, 8, 1#1, 2, l16.toNat),
        (Instr.f64u fin rsv opc l64, 10, 0#1, 8, l64.toNat),
        (Instr.f64m fin rsv opc l64 key, 14, 1#1, 8, l64.toNat)],
      row.1.WellFormed → s.rxValid.toNat < row.2.1 →
      ∃ t, exec row.1 s = .next t ∧
        t.status.code = 0 ∧ t.status.hdrv = false ∧ t.status.cpl = false ∧ t.mem = s.mem ∧
        (1 ≤ s.rxValid.toNat → t.dFin = fin ∧ t.dOpc = classOf s.params.opcWire opc) ∧
        (2 ≤ s.rxValid.toNat → t.dMask = row.2.2.1 ∧ t.dHlen.toNat = row.2.1) ∧
        (2 + row.2.2.2.1 ≤ s.rxValid.toNat → t.dLen.toNat = row.2.2.2.2)
end

