-- ==== Sys2Proof/Laws/Memory.lean ====
section
/-! SUPPORT. Laws of memory: read after write, what a write leaves alone, and the canonical form. -/

namespace Sys2Proof.Machine

/-! ### One byte -/

@[simp] theorem Memory.find_store_same (m : Memory) (a : Nat) (b : Byte) :
    Memory.find (Memory.store m a b) a = some b := by
  induction m with
  | nil => simp [Memory.store, Memory.find]
  | cons c rest ih =>
    obtain ⟨k, x⟩ := c
    simp only [Memory.store]
    split_ifs with h1 h2 <;> simp_all [Memory.find]

theorem Memory.find_store_other (m : Memory) {a a' : Nat} (b : Byte) (h : a' ≠ a) :
    Memory.find (Memory.store m a b) a' = Memory.find m a' := by
  induction m with
  | nil => simp [Memory.store, Memory.find, h.symm]
  | cons c rest ih =>
    obtain ⟨k, x⟩ := c
    simp only [Memory.store]
    split_ifs with h1 h2
    · subst h1; simp [Memory.find, h.symm]
    · simp [Memory.find, h.symm]
    · simp [Memory.find, ih]

/-- What a store leaves: its byte at its address, every other address as it was. -/
theorem Memory.read_store (m : Memory) (a a' : Nat) (b : Byte) :
    Memory.read (Memory.store m a b) a' = if a' = a then b else Memory.read m a' := by
  unfold Memory.read
  split_ifs with h
  · subst h; simp
  · rw [Memory.find_store_other m b h]

/-! ### A run of bytes -/

theorem Memory.read_storeBytes_below (m : Memory) (a : Nat) (bs : List Byte) {a' : Nat} (h : a' < a) :
    Memory.read (Memory.storeBytes m a bs) a' = Memory.read m a' := by
  induction bs generalizing m a with
  | nil => rfl
  | cons b bs ih =>
    simp only [Memory.storeBytes]
    rw [ih _ _ (by omega), Memory.read_store, if_neg (by omega)]

/-- What storing a run of bytes leaves: byte `i` at `a + i`, every address outside the run as it was. -/
theorem Memory.read_storeBytes (m : Memory) (a : Nat) (bs : List Byte) (a' : Nat) :
    Memory.read (Memory.storeBytes m a bs) a' =
      if h : a ≤ a' ∧ a' - a < bs.length then bs[a' - a]'h.2 else Memory.read m a' := by
  induction bs generalizing m a with
  | nil => simp [Memory.storeBytes]
  | cons b bs ih =>
    simp only [Memory.storeBytes]
    rcases Nat.lt_trichotomy a' a with hlt | heq | hgt
    · rw [Memory.read_storeBytes_below _ _ _ (by omega), Memory.read_store, if_neg (by omega),
        dif_neg (by omega)]
    · subst heq
      rw [Memory.read_storeBytes_below _ _ _ (by omega), Memory.read_store, if_pos rfl]
      simp
    · rw [ih, Memory.read_store, if_neg (by omega)]
      have hs : a' - a = (a' - (a + 1)) + 1 := by omega
      by_cases h : a' - (a + 1) < bs.length
      · rw [dif_pos ⟨by omega, h⟩, dif_pos ⟨by omega, by simp; omega⟩]
        simp only [hs, List.getElem_cons_succ]
      · rw [dif_neg (by omega), dif_neg (by simp; omega)]

theorem Memory.read_storeBytes_outside (m : Memory) (a : Nat) (bs : List Byte) {a' : Nat}
    (h : a' < a ∨ a + bs.length ≤ a') :
    Memory.read (Memory.storeBytes m a bs) a' = Memory.read m a' := by
  rw [Memory.read_storeBytes, dif_neg (by omega)]

theorem Memory.read_storeBytes_inside (m : Memory) (a : Nat) (bs : List Byte) {i : Nat}
    (h : i < bs.length) : Memory.read (Memory.storeBytes m a bs) (a + i) = bs[i] := by
  rw [Memory.read_storeBytes, dif_pos ⟨by omega, by omega⟩]
  simp

/-! ### The canonical form and the addresses listed -/

theorem Memory.wf_iff (m : Memory) : m.wf = true ↔ m.Pairwise (fun c d => c.1 < d.1) := by
  induction m with
  | nil => simp [Memory.wf]
  | cons c rest ih =>
    cases rest with
    | nil => simp [Memory.wf]
    | cons d rest =>
      simp only [Memory.wf, Bool.and_eq_true, decide_eq_true_eq, ih]
      rw [List.pairwise_cons (a := c)]
      refine ⟨fun ⟨h, hp⟩ => ⟨fun e he => ?_, hp⟩, fun ⟨h, hp⟩ => ⟨h d (by simp), hp⟩⟩
      rcases List.mem_cons.1 he with rfl | he
      · exact h
      · exact lt_trans h ((List.pairwise_cons.1 hp).1 e he)

theorem Memory.mem_store {m : Memory} {a : Nat} {b : Byte} {c : Host.Cell}
    (h : c ∈ Memory.store m a b) : c = (a, b) ∨ c ∈ m := by
  induction m with
  | nil => simpa [Memory.store] using h
  | cons d rest ih =>
    obtain ⟨k, x⟩ := d
    simp only [Memory.store] at h
    split_ifs at h with h1 h2
    · rcases List.mem_cons.1 h with h | h <;> simp [h]
    · rcases List.mem_cons.1 h with h | h
      · exact .inl h
      · exact .inr h
    · rcases List.mem_cons.1 h with h | h
      · simp [h]
      · rcases ih h with h | h <;> simp [h]

/-- A store keeps the canonical form. -/
theorem Memory.wf_store {m : Memory} (a : Nat) (b : Byte) (h : m.wf = true) :
    (Memory.store m a b).wf = true := by
  rw [Memory.wf_iff] at h ⊢
  induction m with
  | nil => simp [Memory.store]
  | cons d rest ih =>
    obtain ⟨k, x⟩ := d
    have hp := List.pairwise_cons.1 h
    simp only [Memory.store]
    split_ifs with h1 h2
    · subst h1; exact List.pairwise_cons.2 hp
    · refine List.pairwise_cons.2 ⟨fun e he => ?_, h⟩
      rcases List.mem_cons.1 he with rfl | he
      · exact h2
      · exact lt_trans h2 (hp.1 e he)
    · refine List.pairwise_cons.2 ⟨fun e he => ?_, ih hp.2⟩
      rcases Memory.mem_store he with rfl | he
      · simp only; omega
      · exact hp.1 e he

theorem Memory.wf_storeBytes {m : Memory} (a : Nat) (bs : List Byte) (h : m.wf = true) :
    (Memory.storeBytes m a bs).wf = true := by
  induction bs generalizing m a with
  | nil => exact h
  | cons b bs ih => exact ih _ (Memory.wf_store _ _ h)

/-- Storing a run of bytes below `n` lists no address at or beyond `n`. -/
theorem Memory.storeBytes_below {m : Memory} {a n : Nat} {bs : List Byte}
    (hm : ∀ c ∈ m, c.1 < n) (hb : a + bs.length ≤ n) : ∀ c ∈ Memory.storeBytes m a bs, c.1 < n := by
  induction bs generalizing m a with
  | nil => exact hm
  | cons b bs ih =>
    simp only [List.length_cons] at hb
    refine ih (fun c hc => ?_) (by omega)
    rcases Memory.mem_store hc with rfl | hc
    · simp only; omega
    · exact hm c hc

/-! ### Reading a run of bytes -/

@[simp] theorem State.length_readBytes (s : State) (a n : Nat) : (s.readBytes a n).length = n := by
  induction n generalizing a with
  | zero => rfl
  | succ n ih => simp [State.readBytes, ih]

@[simp] theorem State.getElem_readBytes (s : State) (a n i : Nat) (h : i < (s.readBytes a n).length) :
    (s.readBytes a n)[i] = s.memRead (a + i) := by
  induction n generalizing a i with
  | zero => simp [State.readBytes] at h
  | succ n ih =>
    cases i with
    | zero => simp [State.readBytes]
    | succ i =>
      simp only [State.readBytes, List.getElem_cons_succ]
      rw [ih]
      congr 1
      omega

/-- Two states with the same bytes in a run read the same run. -/
theorem State.readBytes_congr {s t : State} {a n : Nat}
    (h : ∀ i, i < n → t.memRead (a + i) = s.memRead (a + i)) : t.readBytes a n = s.readBytes a n := by
  apply List.ext_getElem
  · simp
  · intro i h1 h2
    simp only [State.getElem_readBytes]
    exact h i (by simpa using h1)

/-- `writeBytes` says what it leaves at every address. -/
theorem State.memRead_writeBytes (s : State) (a : Nat) (bs : List Byte) (a' : Nat) :
    (s.writeBytes a bs).memRead a' =
      if h : a ≤ a' ∧ a' - a < bs.length then bs[a' - a]'h.2 else s.memRead a' :=
  Memory.read_storeBytes _ _ _ _

theorem State.memRead_writeBytes_outside (s : State) (a : Nat) (bs : List Byte) {a' : Nat}
    (h : a' < a ∨ a + bs.length ≤ a') : (s.writeBytes a bs).memRead a' = s.memRead a' :=
  Memory.read_storeBytes_outside _ _ _ h

theorem State.memRead_writeBytes_inside (s : State) (a : Nat) (bs : List Byte) {i : Nat}
    (h : i < bs.length) : (s.writeBytes a bs).memRead (a + i) = bs[i] :=
  Memory.read_storeBytes_inside _ _ _ h

@[simp] theorem length_anyBytes (d n : Nat) : (anyBytes d n).length = n := by
  induction n generalizing d with
  | zero => rfl
  | succ n ih => simp [anyBytes, ih]

@[simp] theorem getElem_anyBytes (d n i : Nat) (h : i < (anyBytes d n).length) :
    (anyBytes d n)[i] = Config.any 8 (d + i) := by
  induction n generalizing d i with
  | zero => simp [anyBytes] at h
  | succ n ih =>
    cases i with
    | zero => simp [anyBytes]
    | succ i =>
      simp only [anyBytes, List.getElem_cons_succ]
      rw [ih]
      congr 1
      omega

end Sys2Proof.Machine
end

