-- ==== Sys2Proof/Laws/Operands.lean ====
section
/-! SUPPORT. Laws of the sub-units (40_subunits R83 to R91). -/

namespace Sys2Proof.Machine

/-! ### Big-endian numbers -/

@[simp] theorem length_beBytes (n v : Nat) : (beBytes n v).length = n := by
  induction n with
  | zero => rfl
  | succ n ih => simp [beBytes, ih]

theorem beNat_append_singleton (bs : List Byte) (b : Byte) :
    beNat (bs ++ [b]) = beNat bs * 256 + b.toNat := by
  simp [beNat, List.foldl_append]

theorem foldl_beNat (bs : List Byte) (acc : Nat) :
    bs.foldl (fun acc b => acc * 256 + b.toNat) acc = acc * 256 ^ bs.length + beNat bs := by
  induction bs generalizing acc with
  | nil => simp [beNat]
  | cons b bs ih =>
    simp only [List.foldl_cons, List.length_cons, beNat]
    rw [ih, ih (0 * 256 + b.toNat)]
    ring

theorem beNat_cons (b : Byte) (bs : List Byte) :
    beNat (b :: bs) = b.toNat * 256 ^ bs.length + beNat bs := by
  have := foldl_beNat bs (0 * 256 + b.toNat)
  simpa [beNat] using this

theorem beNat_lt (bs : List Byte) : beNat bs < 256 ^ bs.length := by
  induction bs with
  | nil => simp [beNat]
  | cons b bs ih =>
    rw [beNat_cons, List.length_cons, pow_succ]
    have : b.toNat < 256 := b.isLt
    nlinarith [Nat.pow_pos (n := bs.length) (show 0 < 256 by norm_num)]

/-- The number the low `n` bytes of `v` spell is `v` modulo `256 ^ n`. -/
theorem beNat_beBytes (n v : Nat) : beNat (beBytes n v) = v % 256 ^ n := by
  induction n with
  | zero => simp [beBytes, beNat, Nat.mod_one]
  | succ n ih =>
    rw [beBytes, beNat_cons, ih, length_beBytes, BitVec.toNat_ofNat,
      show v % 256 ^ (n + 1) = v % 256 ^ n + 256 ^ n * (v / 256 ^ n % 256) from Nat.mod_pow_succ]
    change v / 256 ^ n % 256 * 256 ^ n + v % 256 ^ n = _
    rw [Nat.mul_comm, Nat.add_comm]

/-- Spelling the number of `n` bytes in `n` bytes gives the bytes back. -/
theorem beBytes_beNat (bs : List Byte) : beBytes bs.length (beNat bs) = bs := by
  induction bs with
  | nil => rfl
  | cons b bs ih =>
    have hlt := beNat_lt bs
    have key : ∀ (n v w : Nat), v % 256 ^ n = w % 256 ^ n → beBytes n v = beBytes n w := by
      intro n
      induction n with
      | zero => intros; rfl
      | succ n ihn =>
        intro v w h
        have h1 : v % 256 ^ n = w % 256 ^ n := by
          have := congrArg (· % 256 ^ n) h
          simpa [Nat.mod_mod_of_dvd _ (pow_dvd_pow 256 (Nat.le_succ n))] using this
        have h2 : v / 256 ^ n % 256 = w / 256 ^ n % 256 := by
          have e : ∀ x : Nat, x / 256 ^ n % 256 = x % 256 ^ (n + 1) / 256 ^ n := by
            intro x; rw [pow_succ, Nat.mod_mul_right_div_self]
          rw [e, e, h]
        simp only [beBytes, ihn v w h1]
        congr 1
        apply BitVec.eq_of_toNat_eq
        simpa using h2
    rw [beNat_cons, List.length_cons, beBytes]
    congr 1
    · apply BitVec.eq_of_toNat_eq
      have : 0 < 256 ^ bs.length := Nat.pow_pos (by norm_num)
      rw [Nat.mul_comm, Nat.mul_add_div this, Nat.div_eq_of_lt hlt]
      simp
    · conv_rhs => rw [← ih]
      apply key
      simp

/-! ### Lengths -/

theorem extOf_lenClass (len : Word) : extOf (lenClass len).1 = (lenClass len).2 := by
  unfold lenClass
  split_ifs with h1 h2
  · have : (len.setWidth 7).toNat = len.toNat := by
      rw [BitVec.toNat_setWidth, Nat.mod_eq_of_lt (by omega)]
    simp only [extOf, this]
    rw [if_pos (by omega)]
  · rfl
  · rfl

theorem hdrLen_lenClass (len : Word) (m : BitVec 1) :
    hdrLen (lenClass len).1 m = 2 + (lenClass len).2 + 4 * m.toNat := by
  rw [hdrLen, extOf_lenClass]

theorem lenClass_ext_cases (len : Word) :
    (lenClass len).2 = 0 ∨ (lenClass len).2 = 2 ∨ (lenClass len).2 = 8 := by
  unfold lenClass; split_ifs <;> simp

theorem extOf_cases (sel : BitVec 7) : extOf sel = 0 ∨ extOf sel = 2 ∨ extOf sel = 8 := by
  unfold extOf; split_ifs <;> simp

theorem bit_cases (m : BitVec 1) : m = 0#1 ∨ m = 1#1 := by
  revert m; decide

/-- A header is one of six lengths (30_encoding R70). -/
theorem hdrLen_mem (sel : BitVec 7) (m : BitVec 1) : hdrLen sel m ∈ [2, 4, 6, 8, 10, 14] := by
  unfold hdrLen
  rcases extOf_cases sel with h | h | h <;> rcases bit_cases m with rfl | rfl <;> simp [h]

theorem hdrLen_bounds (sel : BitVec 7) (m : BitVec 1) : 2 ≤ hdrLen sel m ∧ hdrLen sel m ≤ 14 := by
  have := hdrLen_mem sel m
  simp only [List.mem_cons, List.not_mem_nil, or_false] at this
  omega

@[simp] theorem length_lenExtBytes (len : Word) : (lenExtBytes len).length = (lenClass len).2 := by
  simp [lenExtBytes]

/-- The deserializer undoes the serializer (R85). -/
theorem lenDecode_lenExtBytes (len : Word) : lenDecode (lenClass len).1 (lenExtBytes len) = len := by
  have hlt := len.isLt
  unfold lenExtBytes lenClass lenDecode
  split_ifs with h1 h2 h3
  · apply BitVec.eq_of_toNat_eq
    simp only [BitVec.toNat_setWidth]
    omega
  · exfalso; apply h2
    simp only [BitVec.toNat_setWidth]
    omega
  · simp at *
  · apply BitVec.eq_of_toNat_eq
    rw [beNat_beBytes, BitVec.toNat_ofNat]
    norm_num
    omega
  · simp at *
  · apply BitVec.eq_of_toNat_eq
    rw [beNat_beBytes, BitVec.toNat_ofNat]
    norm_num
    omega

/-! ### Bytes 0 and 1 -/

@[simp] theorem finOf_byte0 (fin : BitVec 1) (rsv : BitVec 3) (opc : BitVec 4) :
    finOf (byte0 fin rsv opc) = fin := by
  revert fin rsv opc; decide

@[simp] theorem rsvOf_byte0 (fin : BitVec 1) (rsv : BitVec 3) (opc : BitVec 4) :
    rsvOf (byte0 fin rsv opc) = rsv := by
  revert fin rsv opc; decide

@[simp] theorem opcOf_byte0 (fin : BitVec 1) (rsv : BitVec 3) (opc : BitVec 4) :
    opcOf (byte0 fin rsv opc) = opc := by
  revert fin rsv opc; decide

@[simp] theorem byte0_fields (b : Byte) : byte0 (finOf b) (rsvOf b) (opcOf b) = b := by
  revert b; decide

@[simp] theorem maskOf_packB1 (m : BitVec 1) (sel : BitVec 7) : maskOf (packB1 m sel) = m := by
  revert m sel; decide

@[simp] theorem selOf_packB1 (m : BitVec 1) (sel : BitVec 7) : selOf (packB1 m sel) = sel := by
  revert m sel; decide

@[simp] theorem packB1_fields (b : Byte) : packB1 (maskOf b) (selOf b) = b := by
  revert b; decide

/-! ### Opcode classes -/

@[simp] theorem classOfCode_classCode (c : OpClass) : classOfCode (classCode c) = some c := by
  cases c <;> rfl

theorem classCode_of_classOfCode {k : BitVec 3} {c : OpClass} (h : classOfCode k = some c) :
    classCode c = k := by
  revert h; revert c; revert k; decide

/-- Distinct wire values name their class (30_encoding R73). -/
theorem classNamed_wireValue {w : OpcWire} (h : w.Distinct) (c : OpClass) :
    classNamed w (wireValue w c) = some c := by
  simp only [OpcWire.Distinct, List.nodup_cons, List.mem_cons, List.not_mem_nil, or_false, not_or] at h
  obtain ⟨⟨h1, h2, h3, h4, h5⟩, ⟨h6, h7, h8, h9⟩, ⟨h10, h11, h12⟩, ⟨h13, h14⟩, h15, -⟩ := h
  cases c <;>
    simp [classNamed, wireValue, Ne.symm h1, Ne.symm h2, Ne.symm h3, Ne.symm h4, Ne.symm h5, Ne.symm h6,
      Ne.symm h7, Ne.symm h8, Ne.symm h9, Ne.symm h10, Ne.symm h11, Ne.symm h12, Ne.symm h13, Ne.symm h14,
      Ne.symm h15]

theorem wireValue_of_classNamed {w : OpcWire} {v : BitVec 4} {c : OpClass} (h : classNamed w v = some c) :
    wireValue w c = v := by
  unfold classNamed at h
  split_ifs at h <;> simp_all [wireValue] <;> (subst h; rfl)

theorem classOf_wireValue {w : OpcWire} (h : w.Distinct) (c : OpClass) :
    classOf w (wireValue w c) = classCode c := by
  simp [classOf, classNamed_wireValue h]

/-- The decoder never gives the reserved class 7 (10_state R33). -/
theorem classOf_ne_seven (w : OpcWire) (v : BitVec 4) : classOf w v ≠ 7#3 := by
  unfold classOf
  split
  · rename_i c _; cases c <;> decide
  · decide

/-! ### Key and masking -/

theorem keyByte_mod (key : BitVec 32) (i : Nat) : keyByte key (i % 4) = keyByte key i := by
  simp [keyByte]

@[simp] theorem length_keyBytes (key : BitVec 32) : (keyBytes key).length = 4 := rfl

@[simp] theorem packKey_keyBytes (key : BitVec 32) :
    packKey (keyByte key 0) (keyByte key 1) (keyByte key 2) (keyByte key 3) = key := by
  apply BitVec.eq_of_getLsbD_eq
  intro i hi
  simp only [packKey, keyByte, BitVec.getLsbD_append, BitVec.getLsbD_extractLsb']
  by_cases h0 : i < 8
  · simp [h0]
  · by_cases h1 : i < 16
    · have : i - 8 < 8 := by omega
      simp [h0, this]; congr 1; omega
    · by_cases h2 : i < 24
      · have a : ¬ i - 8 < 8 := by omega
        have b : i - 8 - 8 < 8 := by omega
        simp [h0, a, b]; congr 1; omega
      · have a : ¬ i - 8 < 8 := by omega
        have b : ¬ i - 8 - 8 < 8 := by omega
        have c : i - 8 - 8 - 8 < 8 := by omega
        simp [h0, a, b, c]; congr 1; omega

theorem keyByte_packKey (b0 b1 b2 b3 : Byte) :
    keyByte (packKey b0 b1 b2 b3) 0 = b0 ∧ keyByte (packKey b0 b1 b2 b3) 1 = b1 ∧
      keyByte (packKey b0 b1 b2 b3) 2 = b2 ∧ keyByte (packKey b0 b1 b2 b3) 3 = b3 := by
  refine ⟨?_, ?_, ?_, ?_⟩ <;>
    · apply BitVec.eq_of_getLsbD_eq
      intro i hi
      simp only [packKey, keyByte, BitVec.getLsbD_append, BitVec.getLsbD_extractLsb', hi]
      norm_num
      split_ifs <;> first | omega | (congr 1; omega)

@[simp] theorem length_maskFrom (key : BitVec 32) (i : Nat) (d : List Byte) :
    (maskFrom key i d).length = d.length := by
  induction d generalizing i with
  | nil => rfl
  | cons b bs ih => simp [maskFrom, ih]

theorem getElem_maskFrom (key : BitVec 32) (i : Nat) (d : List Byte) (j : Nat)
    (h : j < (maskFrom key i d).length) (h' : j < d.length) :
    (maskFrom key i d)[j] = d[j] ^^^ keyByte key (i + j) := by
  induction d generalizing i j with
  | nil => simp at h'
  | cons b bs ih =>
    cases j with
    | zero => simp [maskFrom]
    | succ j =>
      simp only [maskFrom, List.getElem_cons_succ]
      rw [ih (i + 1) j (by simpa [maskFrom] using h) (by simpa using h')]
      congr 2
      omega

@[simp] theorem length_xorMask (key : BitVec 32) (d : List Byte) : (xorMask key d).length = d.length :=
  length_maskFrom key 0 d

/-- The masking function byte by byte (R90). -/
theorem getElem_xorMask (key : BitVec 32) (d : List Byte) (j : Nat)
    (h : j < (xorMask key d).length) (h' : j < d.length) :
    (xorMask key d)[j] = d[j] ^^^ keyByte key j := by
  have := getElem_maskFrom key 0 d j h h'
  rw [Nat.zero_add] at this
  exact this

/-! ### The whole header -/

/-- The header has the length `H` (R89). -/
theorem length_headerBytes (w : OpcWire) (fin : BitVec 1) (c : OpClass) (m : BitVec 1) (key : BitVec 32)
    (len : Word) : (headerBytes w fin c m key len).length = 2 + (lenClass len).2 + 4 * m.toNat := by
  rcases bit_cases m with rfl | rfl <;> simp [headerBytes] <;> omega

end Sys2Proof.Machine
end

