-- ==== Sys2Proof/Laws/State.lean ====
section
/-! SUPPORT. One lemma per field per update of the state: what each named operation leaves of each field. -/

namespace Sys2Proof.Machine

/-! ### memWrite -/

@[simp] theorem State.memWrite_params (s : State) (a : Nat) (b : Byte) : (s.memWrite a b).params = s.params := rfl
@[simp] theorem State.memWrite_status (s : State) (a : Nat) (b : Byte) : (s.memWrite a b).status = s.status := rfl
@[simp] theorem State.memWrite_txBase (s : State) (a : Nat) (b : Byte) : (s.memWrite a b).txBase = s.txBase := rfl
@[simp] theorem State.memWrite_txCap (s : State) (a : Nat) (b : Byte) : (s.memWrite a b).txCap = s.txCap := rfl
@[simp] theorem State.memWrite_txWptr (s : State) (a : Nat) (b : Byte) : (s.memWrite a b).txWptr = s.txWptr := rfl
@[simp] theorem State.memWrite_eFin (s : State) (a : Nat) (b : Byte) : (s.memWrite a b).eFin = s.eFin := rfl
@[simp] theorem State.memWrite_eOpc (s : State) (a : Nat) (b : Byte) : (s.memWrite a b).eOpc = s.eOpc := rfl
@[simp] theorem State.memWrite_eMask (s : State) (a : Nat) (b : Byte) : (s.memWrite a b).eMask = s.eMask := rfl
@[simp] theorem State.memWrite_eKey (s : State) (a : Nat) (b : Byte) : (s.memWrite a b).eKey = s.eKey := rfl
@[simp] theorem State.memWrite_eLen (s : State) (a : Nat) (b : Byte) : (s.memWrite a b).eLen = s.eLen := rfl
@[simp] theorem State.memWrite_eSrc (s : State) (a : Nat) (b : Byte) : (s.memWrite a b).eSrc = s.eSrc := rfl
@[simp] theorem State.memWrite_eFlen (s : State) (a : Nat) (b : Byte) : (s.memWrite a b).eFlen = s.eFlen := rfl
@[simp] theorem State.memWrite_eHlen (s : State) (a : Nat) (b : Byte) : (s.memWrite a b).eHlen = s.eHlen := rfl
@[simp] theorem State.memWrite_rxBase (s : State) (a : Nat) (b : Byte) : (s.memWrite a b).rxBase = s.rxBase := rfl
@[simp] theorem State.memWrite_rxValid (s : State) (a : Nat) (b : Byte) : (s.memWrite a b).rxValid = s.rxValid := rfl
@[simp] theorem State.memWrite_dFin (s : State) (a : Nat) (b : Byte) : (s.memWrite a b).dFin = s.dFin := rfl
@[simp] theorem State.memWrite_dOpc (s : State) (a : Nat) (b : Byte) : (s.memWrite a b).dOpc = s.dOpc := rfl
@[simp] theorem State.memWrite_dMask (s : State) (a : Nat) (b : Byte) : (s.memWrite a b).dMask = s.dMask := rfl
@[simp] theorem State.memWrite_dKey (s : State) (a : Nat) (b : Byte) : (s.memWrite a b).dKey = s.dKey := rfl
@[simp] theorem State.memWrite_dLen (s : State) (a : Nat) (b : Byte) : (s.memWrite a b).dLen = s.dLen := rfl
@[simp] theorem State.memWrite_dHlen (s : State) (a : Nat) (b : Byte) : (s.memWrite a b).dHlen = s.dHlen := rfl
@[simp] theorem State.memWrite_dFlen (s : State) (a : Nat) (b : Byte) : (s.memWrite a b).dFlen = s.dFlen := rfl
@[simp] theorem State.memWrite_dPaddr (s : State) (a : Nat) (b : Byte) : (s.memWrite a b).dPaddr = s.dPaddr := rfl
@[simp] theorem State.memWrite_aConsumed (s : State) (a : Nat) (b : Byte) : (s.memWrite a b).aConsumed = s.aConsumed := rfl
@[simp] theorem State.memWrite_mem (s : State) (a : Nat) (b : Byte) : (s.memWrite a b).mem = Memory.store s.mem a b := rfl
@[simp] theorem State.memWrite_hnd (s : State) (a : Nat) (b : Byte) : (s.memWrite a b).hnd = s.hnd := rfl
@[simp] theorem State.memWrite_draws (s : State) (a : Nat) (b : Byte) : (s.memWrite a b).draws = s.draws := rfl
@[simp] theorem State.memWrite_pending (s : State) (a : Nat) (b : Byte) : (s.memWrite a b).pending = s.pending := rfl
@[simp] theorem State.memWrite_reads (s : State) (a : Nat) (b : Byte) : (s.memWrite a b).reads = s.reads := rfl

/-! ### writeBytes -/

@[simp] theorem State.writeBytes_params (s : State) (a : Nat) (bs : List Byte) : (s.writeBytes a bs).params = s.params := rfl
@[simp] theorem State.writeBytes_status (s : State) (a : Nat) (bs : List Byte) : (s.writeBytes a bs).status = s.status := rfl
@[simp] theorem State.writeBytes_txBase (s : State) (a : Nat) (bs : List Byte) : (s.writeBytes a bs).txBase = s.txBase := rfl
@[simp] theorem State.writeBytes_txCap (s : State) (a : Nat) (bs : List Byte) : (s.writeBytes a bs).txCap = s.txCap := rfl
@[simp] theorem State.writeBytes_txWptr (s : State) (a : Nat) (bs : List Byte) : (s.writeBytes a bs).txWptr = s.txWptr := rfl
@[simp] theorem State.writeBytes_eFin (s : State) (a : Nat) (bs : List Byte) : (s.writeBytes a bs).eFin = s.eFin := rfl
@[simp] theorem State.writeBytes_eOpc (s : State) (a : Nat) (bs : List Byte) : (s.writeBytes a bs).eOpc = s.eOpc := rfl
@[simp] theorem State.writeBytes_eMask (s : State) (a : Nat) (bs : List Byte) : (s.writeBytes a bs).eMask = s.eMask := rfl
@[simp] theorem State.writeBytes_eKey (s : State) (a : Nat) (bs : List Byte) : (s.writeBytes a bs).eKey = s.eKey := rfl
@[simp] theorem State.writeBytes_eLen (s : State) (a : Nat) (bs : List Byte) : (s.writeBytes a bs).eLen = s.eLen := rfl
@[simp] theorem State.writeBytes_eSrc (s : State) (a : Nat) (bs : List Byte) : (s.writeBytes a bs).eSrc = s.eSrc := rfl
@[simp] theorem State.writeBytes_eFlen (s : State) (a : Nat) (bs : List Byte) : (s.writeBytes a bs).eFlen = s.eFlen := rfl
@[simp] theorem State.writeBytes_eHlen (s : State) (a : Nat) (bs : List Byte) : (s.writeBytes a bs).eHlen = s.eHlen := rfl
@[simp] theorem State.writeBytes_rxBase (s : State) (a : Nat) (bs : List Byte) : (s.writeBytes a bs).rxBase = s.rxBase := rfl
@[simp] theorem State.writeBytes_rxValid (s : State) (a : Nat) (bs : List Byte) : (s.writeBytes a bs).rxValid = s.rxValid := rfl
@[simp] theorem State.writeBytes_dFin (s : State) (a : Nat) (bs : List Byte) : (s.writeBytes a bs).dFin = s.dFin := rfl
@[simp] theorem State.writeBytes_dOpc (s : State) (a : Nat) (bs : List Byte) : (s.writeBytes a bs).dOpc = s.dOpc := rfl
@[simp] theorem State.writeBytes_dMask (s : State) (a : Nat) (bs : List Byte) : (s.writeBytes a bs).dMask = s.dMask := rfl
@[simp] theorem State.writeBytes_dKey (s : State) (a : Nat) (bs : List Byte) : (s.writeBytes a bs).dKey = s.dKey := rfl
@[simp] theorem State.writeBytes_dLen (s : State) (a : Nat) (bs : List Byte) : (s.writeBytes a bs).dLen = s.dLen := rfl
@[simp] theorem State.writeBytes_dHlen (s : State) (a : Nat) (bs : List Byte) : (s.writeBytes a bs).dHlen = s.dHlen := rfl
@[simp] theorem State.writeBytes_dFlen (s : State) (a : Nat) (bs : List Byte) : (s.writeBytes a bs).dFlen = s.dFlen := rfl
@[simp] theorem State.writeBytes_dPaddr (s : State) (a : Nat) (bs : List Byte) : (s.writeBytes a bs).dPaddr = s.dPaddr := rfl
@[simp] theorem State.writeBytes_aConsumed (s : State) (a : Nat) (bs : List Byte) : (s.writeBytes a bs).aConsumed = s.aConsumed := rfl
@[simp] theorem State.writeBytes_mem (s : State) (a : Nat) (bs : List Byte) : (s.writeBytes a bs).mem = Memory.storeBytes s.mem a bs := rfl
@[simp] theorem State.writeBytes_hnd (s : State) (a : Nat) (bs : List Byte) : (s.writeBytes a bs).hnd = s.hnd := rfl
@[simp] theorem State.writeBytes_draws (s : State) (a : Nat) (bs : List Byte) : (s.writeBytes a bs).draws = s.draws := rfl
@[simp] theorem State.writeBytes_pending (s : State) (a : Nat) (bs : List Byte) : (s.writeBytes a bs).pending = s.pending := rfl
@[simp] theorem State.writeBytes_reads (s : State) (a : Nat) (bs : List Byte) : (s.writeBytes a bs).reads = s.reads := rfl

/-! ### maskRegion -/

@[simp] theorem State.maskRegion_params (s : State) (k : BitVec 32) (a n : Nat) : (s.maskRegion k a n).params = s.params := rfl
@[simp] theorem State.maskRegion_status (s : State) (k : BitVec 32) (a n : Nat) : (s.maskRegion k a n).status = s.status := rfl
@[simp] theorem State.maskRegion_txBase (s : State) (k : BitVec 32) (a n : Nat) : (s.maskRegion k a n).txBase = s.txBase := rfl
@[simp] theorem State.maskRegion_txCap (s : State) (k : BitVec 32) (a n : Nat) : (s.maskRegion k a n).txCap = s.txCap := rfl
@[simp] theorem State.maskRegion_txWptr (s : State) (k : BitVec 32) (a n : Nat) : (s.maskRegion k a n).txWptr = s.txWptr := rfl
@[simp] theorem State.maskRegion_eFin (s : State) (k : BitVec 32) (a n : Nat) : (s.maskRegion k a n).eFin = s.eFin := rfl
@[simp] theorem State.maskRegion_eOpc (s : State) (k : BitVec 32) (a n : Nat) : (s.maskRegion k a n).eOpc = s.eOpc := rfl
@[simp] theorem State.maskRegion_eMask (s : State) (k : BitVec 32) (a n : Nat) : (s.maskRegion k a n).eMask = s.eMask := rfl
@[simp] theorem State.maskRegion_eKey (s : State) (k : BitVec 32) (a n : Nat) : (s.maskRegion k a n).eKey = s.eKey := rfl
@[simp] theorem State.maskRegion_eLen (s : State) (k : BitVec 32) (a n : Nat) : (s.maskRegion k a n).eLen = s.eLen := rfl
@[simp] theorem State.maskRegion_eSrc (s : State) (k : BitVec 32) (a n : Nat) : (s.maskRegion k a n).eSrc = s.eSrc := rfl
@[simp] theorem State.maskRegion_eFlen (s : State) (k : BitVec 32) (a n : Nat) : (s.maskRegion k a n).eFlen = s.eFlen := rfl
@[simp] theorem State.maskRegion_eHlen (s : State) (k : BitVec 32) (a n : Nat) : (s.maskRegion k a n).eHlen = s.eHlen := rfl
@[simp] theorem State.maskRegion_rxBase (s : State) (k : BitVec 32) (a n : Nat) : (s.maskRegion k a n).rxBase = s.rxBase := rfl
@[simp] theorem State.maskRegion_rxValid (s : State) (k : BitVec 32) (a n : Nat) : (s.maskRegion k a n).rxValid = s.rxValid := rfl
@[simp] theorem State.maskRegion_dFin (s : State) (k : BitVec 32) (a n : Nat) : (s.maskRegion k a n).dFin = s.dFin := rfl
@[simp] theorem State.maskRegion_dOpc (s : State) (k : BitVec 32) (a n : Nat) : (s.maskRegion k a n).dOpc = s.dOpc := rfl
@[simp] theorem State.maskRegion_dMask (s : State) (k : BitVec 32) (a n : Nat) : (s.maskRegion k a n).dMask = s.dMask := rfl
@[simp] theorem State.maskRegion_dKey (s : State) (k : BitVec 32) (a n : Nat) : (s.maskRegion k a n).dKey = s.dKey := rfl
@[simp] theorem State.maskRegion_dLen (s : State) (k : BitVec 32) (a n : Nat) : (s.maskRegion k a n).dLen = s.dLen := rfl
@[simp] theorem State.maskRegion_dHlen (s : State) (k : BitVec 32) (a n : Nat) : (s.maskRegion k a n).dHlen = s.dHlen := rfl
@[simp] theorem State.maskRegion_dFlen (s : State) (k : BitVec 32) (a n : Nat) : (s.maskRegion k a n).dFlen = s.dFlen := rfl
@[simp] theorem State.maskRegion_dPaddr (s : State) (k : BitVec 32) (a n : Nat) : (s.maskRegion k a n).dPaddr = s.dPaddr := rfl
@[simp] theorem State.maskRegion_aConsumed (s : State) (k : BitVec 32) (a n : Nat) : (s.maskRegion k a n).aConsumed = s.aConsumed := rfl
@[simp] theorem State.maskRegion_mem (s : State) (k : BitVec 32) (a n : Nat) : (s.maskRegion k a n).mem = Memory.storeBytes s.mem a (xorMask k (s.readBytes a n)) := rfl
@[simp] theorem State.maskRegion_hnd (s : State) (k : BitVec 32) (a n : Nat) : (s.maskRegion k a n).hnd = s.hnd := rfl
@[simp] theorem State.maskRegion_draws (s : State) (k : BitVec 32) (a n : Nat) : (s.maskRegion k a n).draws = s.draws := rfl
@[simp] theorem State.maskRegion_pending (s : State) (k : BitVec 32) (a n : Nat) : (s.maskRegion k a n).pending = s.pending := rfl
@[simp] theorem State.maskRegion_reads (s : State) (k : BitVec 32) (a n : Nat) : (s.maskRegion k a n).reads = s.reads := rfl

/-! ### scramble -/

@[simp] theorem State.scramble_params (s : State) (a n : Nat) : (s.scramble a n).params = s.params := rfl
@[simp] theorem State.scramble_status (s : State) (a n : Nat) : (s.scramble a n).status = s.status := rfl
@[simp] theorem State.scramble_txBase (s : State) (a n : Nat) : (s.scramble a n).txBase = s.txBase := rfl
@[simp] theorem State.scramble_txCap (s : State) (a n : Nat) : (s.scramble a n).txCap = s.txCap := rfl
@[simp] theorem State.scramble_txWptr (s : State) (a n : Nat) : (s.scramble a n).txWptr = s.txWptr := rfl
@[simp] theorem State.scramble_eFin (s : State) (a n : Nat) : (s.scramble a n).eFin = s.eFin := rfl
@[simp] theorem State.scramble_eOpc (s : State) (a n : Nat) : (s.scramble a n).eOpc = s.eOpc := rfl
@[simp] theorem State.scramble_eMask (s : State) (a n : Nat) : (s.scramble a n).eMask = s.eMask := rfl
@[simp] theorem State.scramble_eKey (s : State) (a n : Nat) : (s.scramble a n).eKey = s.eKey := rfl
@[simp] theorem State.scramble_eLen (s : State) (a n : Nat) : (s.scramble a n).eLen = s.eLen := rfl
@[simp] theorem State.scramble_eSrc (s : State) (a n : Nat) : (s.scramble a n).eSrc = s.eSrc := rfl
@[simp] theorem State.scramble_eFlen (s : State) (a n : Nat) : (s.scramble a n).eFlen = s.eFlen := rfl
@[simp] theorem State.scramble_eHlen (s : State) (a n : Nat) : (s.scramble a n).eHlen = s.eHlen := rfl
@[simp] theorem State.scramble_rxBase (s : State) (a n : Nat) : (s.scramble a n).rxBase = s.rxBase := rfl
@[simp] theorem State.scramble_rxValid (s : State) (a n : Nat) : (s.scramble a n).rxValid = s.rxValid := rfl
@[simp] theorem State.scramble_dFin (s : State) (a n : Nat) : (s.scramble a n).dFin = s.dFin := rfl
@[simp] theorem State.scramble_dOpc (s : State) (a n : Nat) : (s.scramble a n).dOpc = s.dOpc := rfl
@[simp] theorem State.scramble_dMask (s : State) (a n : Nat) : (s.scramble a n).dMask = s.dMask := rfl
@[simp] theorem State.scramble_dKey (s : State) (a n : Nat) : (s.scramble a n).dKey = s.dKey := rfl
@[simp] theorem State.scramble_dLen (s : State) (a n : Nat) : (s.scramble a n).dLen = s.dLen := rfl
@[simp] theorem State.scramble_dHlen (s : State) (a n : Nat) : (s.scramble a n).dHlen = s.dHlen := rfl
@[simp] theorem State.scramble_dFlen (s : State) (a n : Nat) : (s.scramble a n).dFlen = s.dFlen := rfl
@[simp] theorem State.scramble_dPaddr (s : State) (a n : Nat) : (s.scramble a n).dPaddr = s.dPaddr := rfl
@[simp] theorem State.scramble_aConsumed (s : State) (a n : Nat) : (s.scramble a n).aConsumed = s.aConsumed := rfl
@[simp] theorem State.scramble_mem (s : State) (a n : Nat) : (s.scramble a n).mem = Memory.storeBytes s.mem a (anyBytes s.draws n) := rfl
@[simp] theorem State.scramble_hnd (s : State) (a n : Nat) : (s.scramble a n).hnd = s.hnd := rfl
@[simp] theorem State.scramble_draws (s : State) (a n : Nat) : (s.scramble a n).draws = s.draws + n := rfl
@[simp] theorem State.scramble_pending (s : State) (a n : Nat) : (s.scramble a n).pending = s.pending := rfl
@[simp] theorem State.scramble_reads (s : State) (a n : Nat) : (s.scramble a n).reads = s.reads := rfl

/-! ### finish -/

@[simp] theorem State.finish_params (s : State) (c : Completion) : (s.finish c).params = s.params := rfl
@[simp] theorem State.finish_status (s : State) (c : Completion) : (s.finish c).status = s.status.finish c := rfl
@[simp] theorem State.finish_txBase (s : State) (c : Completion) : (s.finish c).txBase = s.txBase := rfl
@[simp] theorem State.finish_txCap (s : State) (c : Completion) : (s.finish c).txCap = s.txCap := rfl
@[simp] theorem State.finish_txWptr (s : State) (c : Completion) : (s.finish c).txWptr = s.txWptr := rfl
@[simp] theorem State.finish_eFin (s : State) (c : Completion) : (s.finish c).eFin = s.eFin := rfl
@[simp] theorem State.finish_eOpc (s : State) (c : Completion) : (s.finish c).eOpc = s.eOpc := rfl
@[simp] theorem State.finish_eMask (s : State) (c : Completion) : (s.finish c).eMask = s.eMask := rfl
@[simp] theorem State.finish_eKey (s : State) (c : Completion) : (s.finish c).eKey = s.eKey := rfl
@[simp] theorem State.finish_eLen (s : State) (c : Completion) : (s.finish c).eLen = s.eLen := rfl
@[simp] theorem State.finish_eSrc (s : State) (c : Completion) : (s.finish c).eSrc = s.eSrc := rfl
@[simp] theorem State.finish_eFlen (s : State) (c : Completion) : (s.finish c).eFlen = s.eFlen := rfl
@[simp] theorem State.finish_eHlen (s : State) (c : Completion) : (s.finish c).eHlen = s.eHlen := rfl
@[simp] theorem State.finish_rxBase (s : State) (c : Completion) : (s.finish c).rxBase = s.rxBase := rfl
@[simp] theorem State.finish_rxValid (s : State) (c : Completion) : (s.finish c).rxValid = s.rxValid := rfl
@[simp] theorem State.finish_dFin (s : State) (c : Completion) : (s.finish c).dFin = s.dFin := rfl
@[simp] theorem State.finish_dOpc (s : State) (c : Completion) : (s.finish c).dOpc = s.dOpc := rfl
@[simp] theorem State.finish_dMask (s : State) (c : Completion) : (s.finish c).dMask = s.dMask := rfl
@[simp] theorem State.finish_dKey (s : State) (c : Completion) : (s.finish c).dKey = s.dKey := rfl
@[simp] theorem State.finish_dLen (s : State) (c : Completion) : (s.finish c).dLen = s.dLen := rfl
@[simp] theorem State.finish_dHlen (s : State) (c : Completion) : (s.finish c).dHlen = s.dHlen := rfl
@[simp] theorem State.finish_dFlen (s : State) (c : Completion) : (s.finish c).dFlen = s.dFlen := rfl
@[simp] theorem State.finish_dPaddr (s : State) (c : Completion) : (s.finish c).dPaddr = s.dPaddr := rfl
@[simp] theorem State.finish_aConsumed (s : State) (c : Completion) : (s.finish c).aConsumed = s.aConsumed := rfl
@[simp] theorem State.finish_mem (s : State) (c : Completion) : (s.finish c).mem = s.mem := rfl
@[simp] theorem State.finish_hnd (s : State) (c : Completion) : (s.finish c).hnd = s.hnd := rfl
@[simp] theorem State.finish_draws (s : State) (c : Completion) : (s.finish c).draws = s.draws := rfl
@[simp] theorem State.finish_pending (s : State) (c : Completion) : (s.finish c).pending = s.pending := rfl
@[simp] theorem State.finish_reads (s : State) (c : Completion) : (s.finish c).reads = s.reads := rfl

/-! ### clearDecodeFlags -/

@[simp] theorem State.clearDecodeFlags_params (s : State) : (s.clearDecodeFlags).params = s.params := rfl
@[simp] theorem State.clearDecodeFlags_status (s : State) : (s.clearDecodeFlags).status = { s.status with cpl := false, hdrv := false } := rfl
@[simp] theorem State.clearDecodeFlags_txBase (s : State) : (s.clearDecodeFlags).txBase = s.txBase := rfl
@[simp] theorem State.clearDecodeFlags_txCap (s : State) : (s.clearDecodeFlags).txCap = s.txCap := rfl
@[simp] theorem State.clearDecodeFlags_txWptr (s : State) : (s.clearDecodeFlags).txWptr = s.txWptr := rfl
@[simp] theorem State.clearDecodeFlags_eFin (s : State) : (s.clearDecodeFlags).eFin = s.eFin := rfl
@[simp] theorem State.clearDecodeFlags_eOpc (s : State) : (s.clearDecodeFlags).eOpc = s.eOpc := rfl
@[simp] theorem State.clearDecodeFlags_eMask (s : State) : (s.clearDecodeFlags).eMask = s.eMask := rfl
@[simp] theorem State.clearDecodeFlags_eKey (s : State) : (s.clearDecodeFlags).eKey = s.eKey := rfl
@[simp] theorem State.clearDecodeFlags_eLen (s : State) : (s.clearDecodeFlags).eLen = s.eLen := rfl
@[simp] theorem State.clearDecodeFlags_eSrc (s : State) : (s.clearDecodeFlags).eSrc = s.eSrc := rfl
@[simp] theorem State.clearDecodeFlags_eFlen (s : State) : (s.clearDecodeFlags).eFlen = s.eFlen := rfl
@[simp] theorem State.clearDecodeFlags_eHlen (s : State) : (s.clearDecodeFlags).eHlen = s.eHlen := rfl
@[simp] theorem State.clearDecodeFlags_rxBase (s : State) : (s.clearDecodeFlags).rxBase = s.rxBase := rfl
@[simp] theorem State.clearDecodeFlags_rxValid (s : State) : (s.clearDecodeFlags).rxValid = s.rxValid := rfl
@[simp] theorem State.clearDecodeFlags_dFin (s : State) : (s.clearDecodeFlags).dFin = s.dFin := rfl
@[simp] theorem State.clearDecodeFlags_dOpc (s : State) : (s.clearDecodeFlags).dOpc = s.dOpc := rfl
@[simp] theorem State.clearDecodeFlags_dMask (s : State) : (s.clearDecodeFlags).dMask = s.dMask := rfl
@[simp] theorem State.clearDecodeFlags_dKey (s : State) : (s.clearDecodeFlags).dKey = s.dKey := rfl
@[simp] theorem State.clearDecodeFlags_dLen (s : State) : (s.clearDecodeFlags).dLen = s.dLen := rfl
@[simp] theorem State.clearDecodeFlags_dHlen (s : State) : (s.clearDecodeFlags).dHlen = s.dHlen := rfl
@[simp] theorem State.clearDecodeFlags_dFlen (s : State) : (s.clearDecodeFlags).dFlen = s.dFlen := rfl
@[simp] theorem State.clearDecodeFlags_dPaddr (s : State) : (s.clearDecodeFlags).dPaddr = s.dPaddr := rfl
@[simp] theorem State.clearDecodeFlags_aConsumed (s : State) : (s.clearDecodeFlags).aConsumed = s.aConsumed := rfl
@[simp] theorem State.clearDecodeFlags_mem (s : State) : (s.clearDecodeFlags).mem = s.mem := rfl
@[simp] theorem State.clearDecodeFlags_hnd (s : State) : (s.clearDecodeFlags).hnd = s.hnd := rfl
@[simp] theorem State.clearDecodeFlags_draws (s : State) : (s.clearDecodeFlags).draws = s.draws := rfl
@[simp] theorem State.clearDecodeFlags_pending (s : State) : (s.clearDecodeFlags).pending = s.pending := rfl
@[simp] theorem State.clearDecodeFlags_reads (s : State) : (s.clearDecodeFlags).reads = s.reads := rfl

/-! ### emit -/

@[simp] theorem State.emit_params (s : State) (e : Event) : (s.emit e).params = s.params := rfl
@[simp] theorem State.emit_status (s : State) (e : Event) : (s.emit e).status = s.status := rfl
@[simp] theorem State.emit_txBase (s : State) (e : Event) : (s.emit e).txBase = s.txBase := rfl
@[simp] theorem State.emit_txCap (s : State) (e : Event) : (s.emit e).txCap = s.txCap := rfl
@[simp] theorem State.emit_txWptr (s : State) (e : Event) : (s.emit e).txWptr = s.txWptr := rfl
@[simp] theorem State.emit_eFin (s : State) (e : Event) : (s.emit e).eFin = s.eFin := rfl
@[simp] theorem State.emit_eOpc (s : State) (e : Event) : (s.emit e).eOpc = s.eOpc := rfl
@[simp] theorem State.emit_eMask (s : State) (e : Event) : (s.emit e).eMask = s.eMask := rfl
@[simp] theorem State.emit_eKey (s : State) (e : Event) : (s.emit e).eKey = s.eKey := rfl
@[simp] theorem State.emit_eLen (s : State) (e : Event) : (s.emit e).eLen = s.eLen := rfl
@[simp] theorem State.emit_eSrc (s : State) (e : Event) : (s.emit e).eSrc = s.eSrc := rfl
@[simp] theorem State.emit_eFlen (s : State) (e : Event) : (s.emit e).eFlen = s.eFlen := rfl
@[simp] theorem State.emit_eHlen (s : State) (e : Event) : (s.emit e).eHlen = s.eHlen := rfl
@[simp] theorem State.emit_rxBase (s : State) (e : Event) : (s.emit e).rxBase = s.rxBase := rfl
@[simp] theorem State.emit_rxValid (s : State) (e : Event) : (s.emit e).rxValid = s.rxValid := rfl
@[simp] theorem State.emit_dFin (s : State) (e : Event) : (s.emit e).dFin = s.dFin := rfl
@[simp] theorem State.emit_dOpc (s : State) (e : Event) : (s.emit e).dOpc = s.dOpc := rfl
@[simp] theorem State.emit_dMask (s : State) (e : Event) : (s.emit e).dMask = s.dMask := rfl
@[simp] theorem State.emit_dKey (s : State) (e : Event) : (s.emit e).dKey = s.dKey := rfl
@[simp] theorem State.emit_dLen (s : State) (e : Event) : (s.emit e).dLen = s.dLen := rfl
@[simp] theorem State.emit_dHlen (s : State) (e : Event) : (s.emit e).dHlen = s.dHlen := rfl
@[simp] theorem State.emit_dFlen (s : State) (e : Event) : (s.emit e).dFlen = s.dFlen := rfl
@[simp] theorem State.emit_dPaddr (s : State) (e : Event) : (s.emit e).dPaddr = s.dPaddr := rfl
@[simp] theorem State.emit_aConsumed (s : State) (e : Event) : (s.emit e).aConsumed = s.aConsumed := rfl
@[simp] theorem State.emit_mem (s : State) (e : Event) : (s.emit e).mem = s.mem := rfl
@[simp] theorem State.emit_hnd (s : State) (e : Event) : (s.emit e).hnd = s.hnd ++ [e] := rfl
@[simp] theorem State.emit_draws (s : State) (e : Event) : (s.emit e).draws = s.draws := rfl
@[simp] theorem State.emit_pending (s : State) (e : Event) : (s.emit e).pending = s.pending := rfl
@[simp] theorem State.emit_reads (s : State) (e : Event) : (s.emit e).reads = s.reads := rfl

/-! ### clearRegisters -/

@[simp] theorem State.clearRegisters_params (s : State) : (s.clearRegisters).params = s.params := rfl
@[simp] theorem State.clearRegisters_status (s : State) : (s.clearRegisters).status = Status.reset := rfl
@[simp] theorem State.clearRegisters_txBase (s : State) : (s.clearRegisters).txBase = 0#64 := rfl
@[simp] theorem State.clearRegisters_txCap (s : State) : (s.clearRegisters).txCap = 0#64 := rfl
@[simp] theorem State.clearRegisters_txWptr (s : State) : (s.clearRegisters).txWptr = 0#64 := rfl
@[simp] theorem State.clearRegisters_eFin (s : State) : (s.clearRegisters).eFin = 0#1 := rfl
@[simp] theorem State.clearRegisters_eOpc (s : State) : (s.clearRegisters).eOpc = 0#3 := rfl
@[simp] theorem State.clearRegisters_eMask (s : State) : (s.clearRegisters).eMask = 0#1 := rfl
@[simp] theorem State.clearRegisters_eKey (s : State) : (s.clearRegisters).eKey = 0#32 := rfl
@[simp] theorem State.clearRegisters_eLen (s : State) : (s.clearRegisters).eLen = 0#64 := rfl
@[simp] theorem State.clearRegisters_eSrc (s : State) : (s.clearRegisters).eSrc = 0#64 := rfl
@[simp] theorem State.clearRegisters_eFlen (s : State) : (s.clearRegisters).eFlen = 0#64 := rfl
@[simp] theorem State.clearRegisters_eHlen (s : State) : (s.clearRegisters).eHlen = 0#4 := rfl
@[simp] theorem State.clearRegisters_rxBase (s : State) : (s.clearRegisters).rxBase = 0#64 := rfl
@[simp] theorem State.clearRegisters_rxValid (s : State) : (s.clearRegisters).rxValid = 0#64 := rfl
@[simp] theorem State.clearRegisters_dFin (s : State) : (s.clearRegisters).dFin = 0#1 := rfl
@[simp] theorem State.clearRegisters_dOpc (s : State) : (s.clearRegisters).dOpc = 0#3 := rfl
@[simp] theorem State.clearRegisters_dMask (s : State) : (s.clearRegisters).dMask = 0#1 := rfl
@[simp] theorem State.clearRegisters_dKey (s : State) : (s.clearRegisters).dKey = 0#32 := rfl
@[simp] theorem State.clearRegisters_dLen (s : State) : (s.clearRegisters).dLen = 0#64 := rfl
@[simp] theorem State.clearRegisters_dHlen (s : State) : (s.clearRegisters).dHlen = 0#4 := rfl
@[simp] theorem State.clearRegisters_dFlen (s : State) : (s.clearRegisters).dFlen = 0#64 := rfl
@[simp] theorem State.clearRegisters_dPaddr (s : State) : (s.clearRegisters).dPaddr = 0#64 := rfl
@[simp] theorem State.clearRegisters_aConsumed (s : State) : (s.clearRegisters).aConsumed = 0#64 := rfl
@[simp] theorem State.clearRegisters_mem (s : State) : (s.clearRegisters).mem = s.mem := rfl
@[simp] theorem State.clearRegisters_hnd (s : State) : (s.clearRegisters).hnd = s.hnd := rfl
@[simp] theorem State.clearRegisters_draws (s : State) : (s.clearRegisters).draws = s.draws := rfl
@[simp] theorem State.clearRegisters_pending (s : State) : (s.clearRegisters).pending = s.pending := rfl
@[simp] theorem State.clearRegisters_reads (s : State) : (s.clearRegisters).reads = s.reads := rfl

/-! ### setDecode -/

@[simp] theorem State.setDecode_params (s : State) (r : Attempt) : (s.setDecode r).params = s.params := rfl
@[simp] theorem State.setDecode_status (s : State) (r : Attempt) : (s.setDecode r).status = { s.status with cpl := r.cpl, hdrv := r.hdrv } := rfl
@[simp] theorem State.setDecode_txBase (s : State) (r : Attempt) : (s.setDecode r).txBase = s.txBase := rfl
@[simp] theorem State.setDecode_txCap (s : State) (r : Attempt) : (s.setDecode r).txCap = s.txCap := rfl
@[simp] theorem State.setDecode_txWptr (s : State) (r : Attempt) : (s.setDecode r).txWptr = s.txWptr := rfl
@[simp] theorem State.setDecode_eFin (s : State) (r : Attempt) : (s.setDecode r).eFin = s.eFin := rfl
@[simp] theorem State.setDecode_eOpc (s : State) (r : Attempt) : (s.setDecode r).eOpc = s.eOpc := rfl
@[simp] theorem State.setDecode_eMask (s : State) (r : Attempt) : (s.setDecode r).eMask = s.eMask := rfl
@[simp] theorem State.setDecode_eKey (s : State) (r : Attempt) : (s.setDecode r).eKey = s.eKey := rfl
@[simp] theorem State.setDecode_eLen (s : State) (r : Attempt) : (s.setDecode r).eLen = s.eLen := rfl
@[simp] theorem State.setDecode_eSrc (s : State) (r : Attempt) : (s.setDecode r).eSrc = s.eSrc := rfl
@[simp] theorem State.setDecode_eFlen (s : State) (r : Attempt) : (s.setDecode r).eFlen = s.eFlen := rfl
@[simp] theorem State.setDecode_eHlen (s : State) (r : Attempt) : (s.setDecode r).eHlen = s.eHlen := rfl
@[simp] theorem State.setDecode_rxBase (s : State) (r : Attempt) : (s.setDecode r).rxBase = s.rxBase := rfl
@[simp] theorem State.setDecode_rxValid (s : State) (r : Attempt) : (s.setDecode r).rxValid = s.rxValid := rfl
@[simp] theorem State.setDecode_dFin (s : State) (r : Attempt) : (s.setDecode r).dFin = r.fin := rfl
@[simp] theorem State.setDecode_dOpc (s : State) (r : Attempt) : (s.setDecode r).dOpc = r.opc := rfl
@[simp] theorem State.setDecode_dMask (s : State) (r : Attempt) : (s.setDecode r).dMask = r.mask := rfl
@[simp] theorem State.setDecode_dKey (s : State) (r : Attempt) : (s.setDecode r).dKey = r.key := rfl
@[simp] theorem State.setDecode_dLen (s : State) (r : Attempt) : (s.setDecode r).dLen = r.len := rfl
@[simp] theorem State.setDecode_dHlen (s : State) (r : Attempt) : (s.setDecode r).dHlen = r.hlen := rfl
@[simp] theorem State.setDecode_dFlen (s : State) (r : Attempt) : (s.setDecode r).dFlen = r.flen := rfl
@[simp] theorem State.setDecode_dPaddr (s : State) (r : Attempt) : (s.setDecode r).dPaddr = r.paddr := rfl
@[simp] theorem State.setDecode_aConsumed (s : State) (r : Attempt) : (s.setDecode r).aConsumed = s.aConsumed := rfl
@[simp] theorem State.setDecode_mem (s : State) (r : Attempt) : (s.setDecode r).mem = s.mem := rfl
@[simp] theorem State.setDecode_hnd (s : State) (r : Attempt) : (s.setDecode r).hnd = s.hnd := rfl
@[simp] theorem State.setDecode_draws (s : State) (r : Attempt) : (s.setDecode r).draws = s.draws + drawsPerAttempt := rfl
@[simp] theorem State.setDecode_pending (s : State) (r : Attempt) : (s.setDecode r).pending = s.pending := rfl
@[simp] theorem State.setDecode_reads (s : State) (r : Attempt) : (s.setDecode r).reads = s.reads := rfl

/-! ### writeFrame -/

@[simp] theorem State.writeFrame_params (s : State) (c : OpClass) : (s.writeFrame c).params = s.params := rfl
@[simp] theorem State.writeFrame_status (s : State) (c : OpClass) : (s.writeFrame c).status = s.status := rfl
@[simp] theorem State.writeFrame_txBase (s : State) (c : OpClass) : (s.writeFrame c).txBase = s.txBase := rfl
@[simp] theorem State.writeFrame_txCap (s : State) (c : OpClass) : (s.writeFrame c).txCap = s.txCap := rfl
@[simp] theorem State.writeFrame_txWptr (s : State) (c : OpClass) : (s.writeFrame c).txWptr = BitVec.ofNat 64 (s.txWptr.toNat + s.encFrameLen) := rfl
@[simp] theorem State.writeFrame_eFin (s : State) (c : OpClass) : (s.writeFrame c).eFin = s.eFin := rfl
@[simp] theorem State.writeFrame_eOpc (s : State) (c : OpClass) : (s.writeFrame c).eOpc = s.eOpc := rfl
@[simp] theorem State.writeFrame_eMask (s : State) (c : OpClass) : (s.writeFrame c).eMask = s.eMask := rfl
@[simp] theorem State.writeFrame_eKey (s : State) (c : OpClass) : (s.writeFrame c).eKey = s.eKey := rfl
@[simp] theorem State.writeFrame_eLen (s : State) (c : OpClass) : (s.writeFrame c).eLen = s.eLen := rfl
@[simp] theorem State.writeFrame_eSrc (s : State) (c : OpClass) : (s.writeFrame c).eSrc = s.eSrc := rfl
@[simp] theorem State.writeFrame_eFlen (s : State) (c : OpClass) : (s.writeFrame c).eFlen = BitVec.ofNat 64 s.encFrameLen := rfl
@[simp] theorem State.writeFrame_eHlen (s : State) (c : OpClass) : (s.writeFrame c).eHlen = BitVec.ofNat 4 s.encHdrLen := rfl
@[simp] theorem State.writeFrame_rxBase (s : State) (c : OpClass) : (s.writeFrame c).rxBase = s.rxBase := rfl
@[simp] theorem State.writeFrame_rxValid (s : State) (c : OpClass) : (s.writeFrame c).rxValid = s.rxValid := rfl
@[simp] theorem State.writeFrame_dFin (s : State) (c : OpClass) : (s.writeFrame c).dFin = s.dFin := rfl
@[simp] theorem State.writeFrame_dOpc (s : State) (c : OpClass) : (s.writeFrame c).dOpc = s.dOpc := rfl
@[simp] theorem State.writeFrame_dMask (s : State) (c : OpClass) : (s.writeFrame c).dMask = s.dMask := rfl
@[simp] theorem State.writeFrame_dKey (s : State) (c : OpClass) : (s.writeFrame c).dKey = s.dKey := rfl
@[simp] theorem State.writeFrame_dLen (s : State) (c : OpClass) : (s.writeFrame c).dLen = s.dLen := rfl
@[simp] theorem State.writeFrame_dHlen (s : State) (c : OpClass) : (s.writeFrame c).dHlen = s.dHlen := rfl
@[simp] theorem State.writeFrame_dFlen (s : State) (c : OpClass) : (s.writeFrame c).dFlen = s.dFlen := rfl
@[simp] theorem State.writeFrame_dPaddr (s : State) (c : OpClass) : (s.writeFrame c).dPaddr = s.dPaddr := rfl
@[simp] theorem State.writeFrame_aConsumed (s : State) (c : OpClass) : (s.writeFrame c).aConsumed = s.aConsumed := rfl
@[simp] theorem State.writeFrame_mem (s : State) (c : OpClass) : (s.writeFrame c).mem = Memory.storeBytes s.mem s.encDst
      (headerBytes s.params.opcWire s.eFin c s.eMask s.eKey s.eLen ++ s.encPayload) := rfl
@[simp] theorem State.writeFrame_hnd (s : State) (c : OpClass) : (s.writeFrame c).hnd = s.hnd := rfl
@[simp] theorem State.writeFrame_draws (s : State) (c : OpClass) : (s.writeFrame c).draws = s.draws := rfl
@[simp] theorem State.writeFrame_pending (s : State) (c : OpClass) : (s.writeFrame c).pending = s.pending := rfl
@[simp] theorem State.writeFrame_reads (s : State) (c : OpClass) : (s.writeFrame c).reads = s.reads := rfl

/-! ### capacityFailure -/

@[simp] theorem State.capacityFailure_params (s : State) : (s.capacityFailure).params = s.params := rfl
@[simp] theorem State.capacityFailure_status (s : State) : (s.capacityFailure).status = { s.status with txab := true } := rfl
@[simp] theorem State.capacityFailure_txBase (s : State) : (s.capacityFailure).txBase = s.txBase := rfl
@[simp] theorem State.capacityFailure_txCap (s : State) : (s.capacityFailure).txCap = s.txCap := rfl
@[simp] theorem State.capacityFailure_txWptr (s : State) : (s.capacityFailure).txWptr = s.txWptr := rfl
@[simp] theorem State.capacityFailure_eFin (s : State) : (s.capacityFailure).eFin = s.eFin := rfl
@[simp] theorem State.capacityFailure_eOpc (s : State) : (s.capacityFailure).eOpc = s.eOpc := rfl
@[simp] theorem State.capacityFailure_eMask (s : State) : (s.capacityFailure).eMask = s.eMask := rfl
@[simp] theorem State.capacityFailure_eKey (s : State) : (s.capacityFailure).eKey = s.eKey := rfl
@[simp] theorem State.capacityFailure_eLen (s : State) : (s.capacityFailure).eLen = s.eLen := rfl
@[simp] theorem State.capacityFailure_eSrc (s : State) : (s.capacityFailure).eSrc = s.eSrc := rfl
@[simp] theorem State.capacityFailure_eFlen (s : State) : (s.capacityFailure).eFlen = s.eFlen := rfl
@[simp] theorem State.capacityFailure_eHlen (s : State) : (s.capacityFailure).eHlen = s.eHlen := rfl
@[simp] theorem State.capacityFailure_rxBase (s : State) : (s.capacityFailure).rxBase = s.rxBase := rfl
@[simp] theorem State.capacityFailure_rxValid (s : State) : (s.capacityFailure).rxValid = s.rxValid := rfl
@[simp] theorem State.capacityFailure_dFin (s : State) : (s.capacityFailure).dFin = s.dFin := rfl
@[simp] theorem State.capacityFailure_dOpc (s : State) : (s.capacityFailure).dOpc = s.dOpc := rfl
@[simp] theorem State.capacityFailure_dMask (s : State) : (s.capacityFailure).dMask = s.dMask := rfl
@[simp] theorem State.capacityFailure_dKey (s : State) : (s.capacityFailure).dKey = s.dKey := rfl
@[simp] theorem State.capacityFailure_dLen (s : State) : (s.capacityFailure).dLen = s.dLen := rfl
@[simp] theorem State.capacityFailure_dHlen (s : State) : (s.capacityFailure).dHlen = s.dHlen := rfl
@[simp] theorem State.capacityFailure_dFlen (s : State) : (s.capacityFailure).dFlen = s.dFlen := rfl
@[simp] theorem State.capacityFailure_dPaddr (s : State) : (s.capacityFailure).dPaddr = s.dPaddr := rfl
@[simp] theorem State.capacityFailure_aConsumed (s : State) : (s.capacityFailure).aConsumed = s.aConsumed := rfl
@[simp] theorem State.capacityFailure_mem (s : State) : (s.capacityFailure).mem = Memory.storeBytes s.mem s.encDst (anyBytes s.draws (min s.encHdrLen s.encRem)) := rfl
@[simp] theorem State.capacityFailure_hnd (s : State) : (s.capacityFailure).hnd = s.hnd := rfl
@[simp] theorem State.capacityFailure_draws (s : State) : (s.capacityFailure).draws = s.draws + min s.encHdrLen s.encRem := rfl
@[simp] theorem State.capacityFailure_pending (s : State) : (s.capacityFailure).pending = s.pending := rfl
@[simp] theorem State.capacityFailure_reads (s : State) : (s.capacityFailure).reads = s.reads := rfl

/-! ### unmask -/

/-- Unmasking changes nothing but memory. -/
theorem State.unmask_eq (s : State) (f : Nat → Byte) (a n : Nat) :
    s.unmask f a n = { s with mem := (s.unmask f a n).mem } := by
  unfold State.unmask; split <;> rfl

@[simp] theorem State.unmask_params (s : State) (f : Nat → Byte) (a n : Nat) : (s.unmask f a n).params = s.params := by
  rw [State.unmask_eq]
@[simp] theorem State.unmask_status (s : State) (f : Nat → Byte) (a n : Nat) : (s.unmask f a n).status = s.status := by
  rw [State.unmask_eq]
@[simp] theorem State.unmask_txBase (s : State) (f : Nat → Byte) (a n : Nat) : (s.unmask f a n).txBase = s.txBase := by
  rw [State.unmask_eq]
@[simp] theorem State.unmask_txCap (s : State) (f : Nat → Byte) (a n : Nat) : (s.unmask f a n).txCap = s.txCap := by
  rw [State.unmask_eq]
@[simp] theorem State.unmask_txWptr (s : State) (f : Nat → Byte) (a n : Nat) : (s.unmask f a n).txWptr = s.txWptr := by
  rw [State.unmask_eq]
@[simp] theorem State.unmask_eFin (s : State) (f : Nat → Byte) (a n : Nat) : (s.unmask f a n).eFin = s.eFin := by
  rw [State.unmask_eq]
@[simp] theorem State.unmask_eOpc (s : State) (f : Nat → Byte) (a n : Nat) : (s.unmask f a n).eOpc = s.eOpc := by
  rw [State.unmask_eq]
@[simp] theorem State.unmask_eMask (s : State) (f : Nat → Byte) (a n : Nat) : (s.unmask f a n).eMask = s.eMask := by
  rw [State.unmask_eq]
@[simp] theorem State.unmask_eKey (s : State) (f : Nat → Byte) (a n : Nat) : (s.unmask f a n).eKey = s.eKey := by
  rw [State.unmask_eq]
@[simp] theorem State.unmask_eLen (s : State) (f : Nat → Byte) (a n : Nat) : (s.unmask f a n).eLen = s.eLen := by
  rw [State.unmask_eq]
@[simp] theorem State.unmask_eSrc (s : State) (f : Nat → Byte) (a n : Nat) : (s.unmask f a n).eSrc = s.eSrc := by
  rw [State.unmask_eq]
@[simp] theorem State.unmask_eFlen (s : State) (f : Nat → Byte) (a n : Nat) : (s.unmask f a n).eFlen = s.eFlen := by
  rw [State.unmask_eq]
@[simp] theorem State.unmask_eHlen (s : State) (f : Nat → Byte) (a n : Nat) : (s.unmask f a n).eHlen = s.eHlen := by
  rw [State.unmask_eq]
@[simp] theorem State.unmask_rxBase (s : State) (f : Nat → Byte) (a n : Nat) : (s.unmask f a n).rxBase = s.rxBase := by
  rw [State.unmask_eq]
@[simp] theorem State.unmask_rxValid (s : State) (f : Nat → Byte) (a n : Nat) : (s.unmask f a n).rxValid = s.rxValid := by
  rw [State.unmask_eq]
@[simp] theorem State.unmask_dFin (s : State) (f : Nat → Byte) (a n : Nat) : (s.unmask f a n).dFin = s.dFin := by
  rw [State.unmask_eq]
@[simp] theorem State.unmask_dOpc (s : State) (f : Nat → Byte) (a n : Nat) : (s.unmask f a n).dOpc = s.dOpc := by
  rw [State.unmask_eq]
@[simp] theorem State.unmask_dMask (s : State) (f : Nat → Byte) (a n : Nat) : (s.unmask f a n).dMask = s.dMask := by
  rw [State.unmask_eq]
@[simp] theorem State.unmask_dKey (s : State) (f : Nat → Byte) (a n : Nat) : (s.unmask f a n).dKey = s.dKey := by
  rw [State.unmask_eq]
@[simp] theorem State.unmask_dLen (s : State) (f : Nat → Byte) (a n : Nat) : (s.unmask f a n).dLen = s.dLen := by
  rw [State.unmask_eq]
@[simp] theorem State.unmask_dHlen (s : State) (f : Nat → Byte) (a n : Nat) : (s.unmask f a n).dHlen = s.dHlen := by
  rw [State.unmask_eq]
@[simp] theorem State.unmask_dFlen (s : State) (f : Nat → Byte) (a n : Nat) : (s.unmask f a n).dFlen = s.dFlen := by
  rw [State.unmask_eq]
@[simp] theorem State.unmask_dPaddr (s : State) (f : Nat → Byte) (a n : Nat) : (s.unmask f a n).dPaddr = s.dPaddr := by
  rw [State.unmask_eq]
@[simp] theorem State.unmask_aConsumed (s : State) (f : Nat → Byte) (a n : Nat) : (s.unmask f a n).aConsumed = s.aConsumed := by
  rw [State.unmask_eq]
@[simp] theorem State.unmask_hnd (s : State) (f : Nat → Byte) (a n : Nat) : (s.unmask f a n).hnd = s.hnd := by
  rw [State.unmask_eq]
@[simp] theorem State.unmask_draws (s : State) (f : Nat → Byte) (a n : Nat) : (s.unmask f a n).draws = s.draws := by
  rw [State.unmask_eq]
@[simp] theorem State.unmask_pending (s : State) (f : Nat → Byte) (a n : Nat) : (s.unmask f a n).pending = s.pending := by
  rw [State.unmask_eq]
@[simp] theorem State.unmask_reads (s : State) (f : Nat → Byte) (a n : Nat) : (s.unmask f a n).reads = s.reads := by
  rw [State.unmask_eq]

/-! ### reading memory after an update that leaves it alone -/

@[simp] theorem State.memRead_finish (s : State) (c : Completion) (a : Nat) : (s.finish c).memRead a = s.memRead a := rfl
@[simp] theorem State.memRead_clearDecodeFlags (s : State) (a : Nat) : (s.clearDecodeFlags).memRead a = s.memRead a := rfl
@[simp] theorem State.memRead_emit (s : State) (e : Event) (a : Nat) : (s.emit e).memRead a = s.memRead a := rfl
@[simp] theorem State.memRead_clearRegisters (s : State) (a : Nat) : (s.clearRegisters).memRead a = s.memRead a := rfl
@[simp] theorem State.memRead_setDecode (s : State) (r : Attempt) (a : Nat) : (s.setDecode r).memRead a = s.memRead a := rfl

/-! ### status -/

@[simp] theorem Status.finish_code (st : Status) (c : Completion) : (st.finish c).code = c.code := rfl
@[simp] theorem Status.finish_txab (st : Status) (c : Completion) : (st.finish c).txab = st.txab := rfl
@[simp] theorem Status.finish_cpl (st : Status) (c : Completion) : (st.finish c).cpl = st.cpl := rfl
@[simp] theorem Status.finish_hdrv (st : Status) (c : Completion) : (st.finish c).hdrv = st.hdrv := rfl
@[simp] theorem Status.finish_sticky (st : Status) (c : Completion) :
    (st.finish c).sticky = st.sticky ||| c.stickyBit := rfl

/-- Success changes no `STICKY` bit. -/
theorem Status.finish_ok (st : Status) : st.finish .ok = { st with code := 0#3 } := by
  simp [Status.finish, Completion.code, Completion.stickyBit]

end Sys2Proof.Machine
end

