-- ==== Sys2Proof/Laws/Decoder.lean ====
section
/-! SUPPORT. Laws of the decode attempt (42_decode R110 to R120): what an attempt reads, what it leaves in every
field and at every address. -/

namespace Sys2Proof.Machine

/-! ### Completeness -/

theorem headerValid_iff (n h : Nat) : headerValid n h = true ↔ 2 ≤ n ∧ h ≤ n := by
  simp [headerValid]

theorem frameComplete_iff (n h len : Nat) :
    frameComplete n h len = true ↔ 2 ≤ n ∧ h ≤ n ∧ h + len ≤ n := by
  simp [frameComplete, headerValid, and_assoc]

theorem frameHdrLen_bounds (f : Nat → Byte) : 2 ≤ frameHdrLen f ∧ frameHdrLen f ≤ 14 :=
  hdrLen_bounds _ _

theorem frameHdrLen_eq (f : Nat → Byte) :
    frameHdrLen f = 2 + frameExt f + 4 * (maskOf (f 1)).toNat := rfl

theorem frameHdrLen_masked {f : Nat → Byte} (h : maskOf (f 1) = 1#1) : frameHdrLen f = 6 + frameExt f := by
  rw [frameHdrLen_eq, h]; simp; omega

/-! ### An attempt looks only at bytes below the valid length -/

@[simp] theorem length_sourceBytes (f : Nat → Byte) (k n : Nat) : (sourceBytes f k n).length = n := by
  induction n generalizing k with
  | zero => rfl
  | succ n ih => simp [sourceBytes, ih]

theorem sourceBytes_congr {f g : Nat → Byte} {k n : Nat} (h : ∀ j, k ≤ j → j < k + n → f j = g j) :
    sourceBytes f k n = sourceBytes g k n := by
  induction n generalizing k with
  | zero => rfl
  | succ n ih =>
    simp only [sourceBytes]
    rw [h k (by omega) (by omega), ih (fun j h1 h2 => h j (by omega) (by omega))]

/-- The bytes of a window, read as a source, are the bytes of memory. -/
theorem sourceBytes_readBytes (s : State) (a k n : Nat) :
    sourceBytes (fun j => s.memRead (a + j)) k n = s.readBytes (a + k) n := by
  induction n generalizing k with
  | zero => rfl
  | succ n ih => simp [sourceBytes, State.readBytes, ih, Nat.add_assoc]

/-- Two sources that agree up to the extension announce the same payload length. -/
theorem framePayloadLen_congr {f g : Nat → Byte} (h : ∀ k, k < 2 + frameExt f → f k = g k) :
    framePayloadLen f = framePayloadLen g := by
  have h1 : f 1 = g 1 := h 1 (by omega)
  simp only [framePayloadLen, frameExt, ← h1] at h ⊢
  rw [sourceBytes_congr (fun j _ h2 => h j h2)]

theorem frameKey_congr {f g : Nat → Byte} (h : ∀ k, k < 6 + frameExt f → f k = g k) :
    frameKey f = frameKey g := by
  have h1 : f 1 = g 1 := h 1 (by omega)
  have he : frameExt g = frameExt f := by simp [frameExt, h1]
  simp only [frameKey, he]
  rw [h _ (by omega), h _ (by omega), h _ (by omega), h _ (by omega)]

/-- Two sources that agree below the valid length are complete alike. -/
theorem frameComplete_congr {f g : Nat → Byte} {n : Nat} (h : ∀ k, k < n → f k = g k) :
    frameComplete n (frameHdrLen f) (framePayloadLen f).toNat =
      frameComplete n (frameHdrLen g) (framePayloadLen g).toNat := by
  by_cases h2 : 2 ≤ n
  · have h1 : f 1 = g 1 := h 1 (by omega)
    have hH : frameHdrLen f = frameHdrLen g := by simp [frameHdrLen, h1]
    by_cases hv : frameHdrLen f ≤ n
    · have : framePayloadLen f = framePayloadLen g :=
        framePayloadLen_congr fun k hk => h k (by rw [frameHdrLen_eq] at hv; omega)
      rw [hH, this]
    · simp [frameComplete, headerValid, hv, ← hH]
  · simp [frameComplete, headerValid, h2]

/-- An attempt is determined by the bytes below the valid length (R110: no over-read). -/
theorem attempt_congr (wire : OpcWire) {f g : Nat → Byte} (a d : Nat) {n : Nat}
    (h : ∀ k, k < n → f k = g k) : attempt wire f a n d = attempt wire g a n d := by
  have hc := frameComplete_congr h
  unfold attempt
  rw [hc]
  by_cases h1 : 1 ≤ n
  · have h0 : f 0 = g 0 := h 0 (by omega)
    by_cases h2 : 2 ≤ n
    · have h1' : f 1 = g 1 := h 1 (by omega)
      have hH : frameHdrLen f = frameHdrLen g := by simp [frameHdrLen, h1']
      have hE : frameExt f = frameExt g := by simp [frameExt, h1']
      have hL : 2 + frameExt f ≤ n → framePayloadLen f = framePayloadLen g := fun hv =>
        framePayloadLen_congr fun k hk => h k (by omega)
      have hK : maskOf (f 1) = 1#1 ∧ frameHdrLen f ≤ n → frameKey f = frameKey g := fun hv =>
        frameKey_congr fun k hk => h k (by
          have := frameHdrLen_masked hv.1; omega)
      have hHE : frameHdrLen f ≤ n → 2 + frameExt f ≤ n := fun hv => by
        rw [frameHdrLen_eq] at hv; omega
      have hlen : (if 2 ≤ n ∧ 2 + frameExt f ≤ n then framePayloadLen f else Config.any 64 (d + 4)) =
          (if 2 ≤ n ∧ 2 + frameExt g ≤ n then framePayloadLen g else Config.any 64 (d + 4)) := by
        rw [← hE]; split_ifs with hv
        · exact hL hv.2
        · rfl
      have hkey : (if 2 ≤ n ∧ maskOf (f 1) = 1#1 ∧ frameHdrLen f ≤ n then frameKey f
            else Config.any 32 (d + 5)) =
          (if 2 ≤ n ∧ maskOf (g 1) = 1#1 ∧ frameHdrLen g ≤ n then frameKey g
            else Config.any 32 (d + 5)) := by
        rw [← h1', ← hH]; split_ifs with hv
        · exact hK hv.2
        · rfl
      have hflen : (if frameComplete n (frameHdrLen g) (framePayloadLen g).toNat = true then
            BitVec.ofNat 64 (frameHdrLen f + (framePayloadLen f).toNat) else Config.any 64 (d + 6)) =
          (if frameComplete n (frameHdrLen g) (framePayloadLen g).toNat = true then
            BitVec.ofNat 64 (frameHdrLen g + (framePayloadLen g).toNat) else Config.any 64 (d + 6)) := by
        split_ifs with hv
        · rw [← hc, frameComplete_iff] at hv
          rw [hH, hL (hHE hv.2.1)]
        · rfl
      rw [hlen, hkey, hflen, h0, h1', hH]
    · simp [h0, h2, frameComplete, headerValid]
  · have h2 : ¬ 2 ≤ n := by omega
    simp [h1, h2, frameComplete, headerValid]

/-! ### What an attempt leaves in the state -/

theorem State.decodeAt_eq (s : State) (given : List Byte) (a n : Nat) :
    s.decodeAt given a n =
      { s.setDecode (attempt s.params.opcWire (s.frameByte given a) a n s.draws) with
        mem := (s.decodeAt given a n).mem } := by
  unfold State.decodeAt
  rw [State.unmask_eq]

@[simp] theorem State.decodeAt_params (s : State) (g : List Byte) (a n : Nat) :
    (s.decodeAt g a n).params = s.params := by rw [State.decodeAt_eq]; rfl
@[simp] theorem State.decodeAt_rxBase (s : State) (g : List Byte) (a n : Nat) :
    (s.decodeAt g a n).rxBase = s.rxBase := by rw [State.decodeAt_eq]; rfl
@[simp] theorem State.decodeAt_rxValid (s : State) (g : List Byte) (a n : Nat) :
    (s.decodeAt g a n).rxValid = s.rxValid := by rw [State.decodeAt_eq]; rfl
@[simp] theorem State.decodeAt_hnd (s : State) (g : List Byte) (a n : Nat) :
    (s.decodeAt g a n).hnd = s.hnd := by rw [State.decodeAt_eq]; rfl
@[simp] theorem State.decodeAt_draws (s : State) (g : List Byte) (a n : Nat) :
    (s.decodeAt g a n).draws = s.draws + drawsPerAttempt := by rw [State.decodeAt_eq]; rfl
@[simp] theorem State.decodeAt_dFin (s : State) (g : List Byte) (a n : Nat) :
    (s.decodeAt g a n).dFin = (attempt s.params.opcWire (s.frameByte g a) a n s.draws).fin := by
  rw [State.decodeAt_eq]; rfl
@[simp] theorem State.decodeAt_dOpc (s : State) (g : List Byte) (a n : Nat) :
    (s.decodeAt g a n).dOpc = (attempt s.params.opcWire (s.frameByte g a) a n s.draws).opc := by
  rw [State.decodeAt_eq]; rfl
@[simp] theorem State.decodeAt_dMask (s : State) (g : List Byte) (a n : Nat) :
    (s.decodeAt g a n).dMask = (attempt s.params.opcWire (s.frameByte g a) a n s.draws).mask := by
  rw [State.decodeAt_eq]; rfl
@[simp] theorem State.decodeAt_dKey (s : State) (g : List Byte) (a n : Nat) :
    (s.decodeAt g a n).dKey = (attempt s.params.opcWire (s.frameByte g a) a n s.draws).key := by
  rw [State.decodeAt_eq]; rfl
@[simp] theorem State.decodeAt_dLen (s : State) (g : List Byte) (a n : Nat) :
    (s.decodeAt g a n).dLen = (attempt s.params.opcWire (s.frameByte g a) a n s.draws).len := by
  rw [State.decodeAt_eq]; rfl
@[simp] theorem State.decodeAt_dHlen (s : State) (g : List Byte) (a n : Nat) :
    (s.decodeAt g a n).dHlen = (attempt s.params.opcWire (s.frameByte g a) a n s.draws).hlen := by
  rw [State.decodeAt_eq]; rfl
@[simp] theorem State.decodeAt_dFlen (s : State) (g : List Byte) (a n : Nat) :
    (s.decodeAt g a n).dFlen = (attempt s.params.opcWire (s.frameByte g a) a n s.draws).flen := by
  rw [State.decodeAt_eq]; rfl
@[simp] theorem State.decodeAt_dPaddr (s : State) (g : List Byte) (a n : Nat) :
    (s.decodeAt g a n).dPaddr = (attempt s.params.opcWire (s.frameByte g a) a n s.draws).paddr := by
  rw [State.decodeAt_eq]; rfl
@[simp] theorem State.decodeAt_status (s : State) (g : List Byte) (a n : Nat) :
    (s.decodeAt g a n).status = { s.status with
      hdrv := headerValid n (frameHdrLen (s.frameByte g a))
      cpl := frameComplete n (frameHdrLen (s.frameByte g a))
        (framePayloadLen (s.frameByte g a)).toNat } := by
  rw [State.decodeAt_eq]; rfl

/-- The outputs an attempt makes determinate when the frame is complete (R111). -/
theorem attempt_of_complete {wire : OpcWire} {f : Nat → Byte} {a n d : Nat}
    (h : frameComplete n (frameHdrLen f) (framePayloadLen f).toNat = true) (hn : n < 2 ^ 64) :
    (attempt wire f a n d).fin = finOf (f 0) ∧
    (attempt wire f a n d).opc = classOf wire (opcOf (f 0)) ∧
    (attempt wire f a n d).mask = maskOf (f 1) ∧
    (attempt wire f a n d).hlen.toNat = frameHdrLen f ∧
    (attempt wire f a n d).len = framePayloadLen f ∧
    (maskOf (f 1) = 1#1 → (attempt wire f a n d).key = frameKey f) ∧
    (attempt wire f a n d).flen.toNat = frameHdrLen f + (framePayloadLen f).toNat ∧
    (attempt wire f a n d).paddr = BitVec.ofNat 64 (a + frameHdrLen f) := by
  have hb := frameHdrLen_bounds f
  obtain ⟨h2, hH, hL⟩ := (frameComplete_iff _ _ _).1 h
  have hE : 2 + frameExt f ≤ n := by rw [frameHdrLen_eq] at hH; omega
  refine ⟨?_, ?_, ?_, ?_, ?_, fun hm => ?_, ?_, ?_⟩
  · simp only [attempt]; rw [if_pos (by omega)]
  · simp only [attempt]; rw [if_pos (by omega)]
  · simp only [attempt]; rw [if_pos h2]
  · simp only [attempt]; rw [if_pos h2, BitVec.toNat_ofNat, Nat.mod_eq_of_lt (by omega)]
  · simp only [attempt]; rw [if_pos ⟨h2, hE⟩]
  · simp only [attempt]; rw [if_pos ⟨h2, hm, hH⟩]
  · simp only [attempt]; rw [if_pos h, BitVec.toNat_ofNat, Nat.mod_eq_of_lt (by omega)]
  · simp only [attempt]; rw [if_pos h]

/-! ### What an attempt leaves in memory -/

/-- In-place masking, address by address. -/
theorem State.memRead_maskRegion (s : State) (key : BitVec 32) (a n a' : Nat) :
    (s.maskRegion key a n).memRead a' =
      if a ≤ a' ∧ a' < a + n then s.memRead a' ^^^ keyByte key (a' - a) else s.memRead a' := by
  unfold State.maskRegion
  rw [State.memRead_writeBytes]
  by_cases h : a ≤ a' ∧ a' < a + n
  · rw [dif_pos ⟨h.1, by simp; omega⟩, if_pos h, getElem_xorMask (h' := by simp; omega),
      State.getElem_readBytes]
    congr 2; omega
  · rw [dif_neg (by simp; omega), if_neg h]

/-- The memory after an attempt, address by address (R116 to R118): the payload of a complete masked frame is
XORed, every other byte is as it was. -/
theorem State.memRead_decodeAt (s : State) (g : List Byte) (a n a' : Nat) :
    (s.decodeAt g a n).memRead a' =
      if (frameComplete n (frameHdrLen (s.frameByte g a)) (framePayloadLen (s.frameByte g a)).toNat ∧
          maskOf (s.frameByte g a 1) = 1#1) ∧
          a + frameHdrLen (s.frameByte g a) ≤ a' ∧
          a' < a + frameHdrLen (s.frameByte g a) + (framePayloadLen (s.frameByte g a)).toNat then
        s.memRead a' ^^^ keyByte (frameKey (s.frameByte g a)) (a' - (a + frameHdrLen (s.frameByte g a)))
      else s.memRead a' := by
  unfold State.decodeAt State.unmask
  by_cases h : frameComplete n (frameHdrLen (s.frameByte g a)) (framePayloadLen (s.frameByte g a)).toNat ∧
      maskOf (s.frameByte g a 1) = 1#1
  · rw [if_pos h, State.memRead_maskRegion]
    simp only [h, true_and, State.memRead_setDecode, and_self]
  · rw [if_neg h]
    simp [h]

/-- An attempt that is not complete, or is unmasked, changes no byte (R116). -/
theorem State.mem_decodeAt_of_not (s : State) (g : List Byte) (a n : Nat)
    (h : ¬ (frameComplete n (frameHdrLen (s.frameByte g a)) (framePayloadLen (s.frameByte g a)).toNat ∧
      maskOf (s.frameByte g a 1) = 1#1)) : (s.decodeAt g a n).mem = s.mem := by
  unfold State.decodeAt State.unmask
  rw [if_neg h]
  rfl

/-- The bytes a `DEC` attempt looks at are those of memory. -/
@[simp] theorem State.frameByte_nil (s : State) (a k : Nat) : s.frameByte [] a k = s.memRead (a + k) := rfl

/-- Where memory holds the bytes `given`, they make no difference. -/
theorem State.frameByte_of_memory (s : State) (given : List Byte) (a : Nat)
    (h : s.readBytes a given.length = given) : s.frameByte given a = s.frameByte [] a := by
  funext k
  unfold State.frameByte
  by_cases hk : k < given.length
  · have : given[k] = s.memRead (a + k) := by
      have := State.getElem_readBytes s a given.length k (by simpa using hk)
      rw [← this]; congr 1; exact h.symm
    simp [hk, this]
  · simp [hk]

/-- An attempt keeps the canonical form and the range of the memory. -/
theorem State.wf_decodeAt (s : State) (g : List Byte) (a n : Nat) (h : s.mem.wf = true) :
    (s.decodeAt g a n).mem.wf = true := by
  unfold State.decodeAt State.unmask
  split
  · exact Memory.wf_storeBytes _ _ h
  · exact h

theorem State.range_decodeAt (s : State) (g : List Byte) {a n m : Nat} (hm : ∀ c ∈ s.mem, c.1 < m)
    (h : a + n ≤ m) : ∀ c ∈ (s.decodeAt g a n).mem, c.1 < m := by
  unfold State.decodeAt State.unmask
  split
  · rename_i hc
    have := (frameComplete_iff _ _ _).1 hc.1
    exact Memory.storeBytes_below hm (by simp; omega)
  · exact hm

/-! ### The window check -/

theorem State.inMem_iff (s : State) (base len : Nat) : s.inMem base len = true ↔ base + len ≤ s.params.memSize := by
  simp [State.inMem]

theorem State.decodeWindow_in (s : State) (g : List Byte)
    (h : s.rxBase.toNat + s.rxValid.toNat ≤ s.params.memSize) :
    s.decodeWindow g = (s.decodeAt g s.rxBase.toNat s.rxValid.toNat).finish .ok := by
  unfold State.decodeWindow
  rw [if_pos ((State.inMem_iff _ _ _).2 h)]

theorem State.decodeWindow_out (s : State) (g : List Byte)
    (h : s.params.memSize < s.rxBase.toNat + s.rxValid.toNat) :
    s.decodeWindow g = s.clearDecodeFlags.finish .window := by
  unfold State.decodeWindow
  rw [if_neg (by rw [State.inMem_iff]; omega)]

end Sys2Proof.Machine
end

