-- ==== Sys2Proof/Laws/Commands.lean ====
section
/-! SUPPORT. Laws of the commands: the checks of `ENC` as arithmetic, what a written frame leaves at every address,
the loop of `ASM` as an invariant principle, and one inversion lemma for `exec`. -/

namespace Sys2Proof.Machine

/-! ### The encoder's checks (41_encode R95 to R100) -/

theorem State.encWindowOk_iff (s : State) : s.encWindowOk = true ↔
    s.txBase.toNat + s.txCap.toNat ≤ s.params.memSize ∧ s.txWptr.toNat ≤ s.txCap.toNat := by
  simp [State.encWindowOk, State.inMem]

theorem State.encSourceOk_iff (s : State) : s.encSourceOk = true ↔
    s.eLen.toNat = 0 ∨ s.eSrc.toNat + s.eLen.toNat ≤ s.params.memSize := by
  simp [State.encSourceOk, State.inMem]

theorem State.encOverlap_iff (s : State) : s.encOverlap = true ↔
    0 < s.eLen.toNat ∧ s.eSrc.toNat < s.encDst + s.encFrameLen ∧ s.encDst < s.eSrc.toNat + s.eLen.toNat := by
  simp [State.encOverlap]

theorem State.encHdrLen_eq (s : State) : s.encHdrLen = hdrLen (lenClass s.eLen).1 s.eMask :=
  (hdrLen_lenClass _ _).symm

theorem State.encHdrLen_bounds (s : State) : 2 ≤ s.encHdrLen ∧ s.encHdrLen ≤ 14 := by
  rw [State.encHdrLen_eq]; exact hdrLen_bounds _ _

/-- A class code below 6 names a class (30_encoding R72). -/
theorem classOfCode_isSome_iff (k : BitVec 3) : (∃ c, classOfCode k = some c) ↔ k.toNat < 6 := by
  rw [← Option.isSome_iff_exists]
  revert k; decide

theorem classOfCode_eq_none_iff (k : BitVec 3) : classOfCode k = none ↔ 6 ≤ k.toNat := by
  revert k; decide

/-- Everything `ENC` can do (R104): a refusal that changes `CODE` and `STICKY` only, a capacity failure, or the
frame. -/
theorem execEnc_cases (s : State) :
    (∃ e, e ∈ [Completion.abandoned, .opcode, .window, .overlap] ∧ execEnc s = .next (s.finish e)) ∨
    (s.status.txab = false ∧ s.encWindowOk = true ∧ s.encRem < s.encFrameLen ∧
      execEnc s = .next (s.capacityFailure.finish .capacity)) ∨
    (∃ c, s.status.txab = false ∧ classOfCode s.eOpc = some c ∧ s.encWindowOk = true ∧
      s.encFrameLen ≤ s.encRem ∧ s.encSourceOk = true ∧ s.encOverlap = false ∧
      execEnc s = .next ((s.writeFrame c).finish .ok)) := by
  unfold execEnc
  by_cases h1 : s.status.txab = true
  · exact .inl ⟨.abandoned, by simp, by rw [if_pos h1]⟩
  rw [if_neg h1]
  cases hc : classOfCode s.eOpc with
  | none => exact .inl ⟨.opcode, by simp, rfl⟩
  | some c =>
    simp only
    by_cases h2 : s.encWindowOk = false
    · exact .inl ⟨.window, by simp, by rw [if_pos h2]⟩
    rw [if_neg h2]
    by_cases h3 : s.encRem < s.encFrameLen
    · exact .inr (.inl ⟨by simpa using h1, by simpa using h2, h3, by rw [if_pos h3]⟩)
    rw [if_neg h3]
    by_cases h4 : s.encSourceOk = false
    · exact .inl ⟨.window, by simp, by rw [if_pos h4]⟩
    rw [if_neg h4]
    by_cases h5 : s.encOverlap = true
    · exact .inl ⟨.overlap, by simp, by rw [if_pos h5]⟩
    rw [if_neg h5]
    exact .inr (.inr ⟨c, by simpa using h1, rfl, by simpa using h2, by omega, by simpa using h4,
      by simpa using h5, rfl⟩)

/-! ### The frame a successful `ENC` writes (R101, R102) -/

@[simp] theorem State.length_encPayload (s : State) : s.encPayload.length = s.eLen.toNat := by
  unfold State.encPayload; simp only; split <;> simp

theorem State.getElem_encPayload (s : State) {i : Nat} (h : i < s.encPayload.length) :
    s.encPayload[i] = if s.eMask = 1#1 then s.memRead (s.eSrc.toNat + i) ^^^ keyByte s.eKey i
      else s.memRead (s.eSrc.toNat + i) := by
  have hi : i < s.eLen.toNat := by simpa using h
  unfold State.encPayload
  by_cases hm : s.eMask = 1#1
  · simp only [hm, if_true]
    rw [getElem_xorMask (h' := by simpa using hi), State.getElem_readBytes]
  · simp only [hm, if_false]
    rw [State.getElem_readBytes]

/-- The header and the payload lie one after another. -/
theorem State.length_frame (s : State) (c : OpClass) :
    (headerBytes s.params.opcWire s.eFin c s.eMask s.eKey s.eLen ++ s.encPayload).length = s.encFrameLen := by
  rw [List.length_append, length_headerBytes, State.length_encPayload]; rfl

/-- Outside the frame's place every byte is as it was. -/
theorem State.memRead_writeFrame_outside (s : State) (c : OpClass) {a : Nat}
    (h : a < s.encDst ∨ s.encDst + s.encFrameLen ≤ a) : (s.writeFrame c).memRead a = s.memRead a :=
  State.memRead_writeBytes_outside s _ _ (by rw [State.length_frame]; exact h)

/-- Byte `k` of the header (R101). -/
theorem State.memRead_writeFrame_header (s : State) (c : OpClass) {k : Nat} (h : k < s.encHdrLen)
    (h' : k < (headerBytes s.params.opcWire s.eFin c s.eMask s.eKey s.eLen).length) :
    (s.writeFrame c).memRead (s.encDst + k) =
      (headerBytes s.params.opcWire s.eFin c s.eMask s.eKey s.eLen)[k] := by
  have := State.memRead_writeBytes_inside s s.encDst
    (headerBytes s.params.opcWire s.eFin c s.eMask s.eKey s.eLen ++ s.encPayload) (i := k)
    (by rw [State.length_frame]; unfold State.encFrameLen; omega)
  rw [List.getElem_append_left h'] at this
  exact this

/-- Byte `i` of the payload (R102). -/
theorem State.memRead_writeFrame_payload (s : State) (c : OpClass) {i : Nat} (h : i < s.eLen.toNat) :
    (s.writeFrame c).memRead (s.encDst + s.encHdrLen + i) =
      if s.eMask = 1#1 then s.memRead (s.eSrc.toNat + i) ^^^ keyByte s.eKey i
      else s.memRead (s.eSrc.toNat + i) := by
  have hl : (headerBytes s.params.opcWire s.eFin c s.eMask s.eKey s.eLen).length = s.encHdrLen :=
    length_headerBytes _ _ _ _ _ _
  have := State.memRead_writeBytes_inside s s.encDst
    (headerBytes s.params.opcWire s.eFin c s.eMask s.eKey s.eLen ++ s.encPayload) (i := s.encHdrLen + i)
    (by rw [State.length_frame]; unfold State.encFrameLen; omega)
  rw [List.getElem_append_right (by omega)] at this
  have e : s.encHdrLen + i - (headerBytes s.params.opcWire s.eFin c s.eMask s.eKey s.eLen).length = i := by
    omega
  simp only [e] at this
  rw [State.getElem_encPayload] at this
  rw [Nat.add_assoc]
  exact this

/-! ### The loop of `ASM` (43_assemble R131, R132) -/

/-- The loop as an invariant principle: what holds at the start and is kept by every turn that finds a complete
frame holds when the loop ends, at the attempt that finds none. Fuel `(v - cur) / 2 + 1` is enough. -/
theorem assembleLoop_ends {base v : Nat} (hv : v < 2 ^ 64) (P : Nat → State → Prop)
    (turn : ∀ cur s, P cur s → cur ≤ v →
      let t := s.decodeAt [] (base + cur) (v - cur)
      t.status.cpl = true → cur + t.dFlen.toNat ≤ v → 2 ≤ t.dFlen.toNat →
      P (cur + t.dFlen.toNat) (t.emit t.frameEvent))
    (fuel cur : Nat) (s : State) (hfuel : v - cur < 2 * fuel) (hcur : cur ≤ v) (h : P cur s) :
    ∃ cur' s', P cur' s' ∧ cur' ≤ v ∧
      (s'.decodeAt [] (base + cur') (v - cur')).status.cpl = false ∧
      assembleLoop base v fuel cur s = (s'.decodeAt [] (base + cur') (v - cur'), cur') := by
  induction fuel generalizing cur s with
  | zero => omega
  | succ fuel ih =>
    unfold assembleLoop
    by_cases hc : (s.decodeAt [] (base + cur) (v - cur)).status.cpl = true
    · simp only [hc, if_true]
      have hcc : frameComplete (v - cur) (frameHdrLen (s.frameByte [] (base + cur)))
          (framePayloadLen (s.frameByte [] (base + cur))).toNat = true := by
        rw [State.decodeAt_status] at hc; exact hc
      have hlen : (s.decodeAt [] (base + cur) (v - cur)).dFlen.toNat =
          frameHdrLen (s.frameByte [] (base + cur))
            + (framePayloadLen (s.frameByte [] (base + cur))).toNat := by
        rw [State.decodeAt_dFlen]
        exact (attempt_of_complete hcc (by omega)).2.2.2.2.2.2.1
      have hb := frameHdrLen_bounds (s.frameByte [] (base + cur))
      have hle := ((frameComplete_iff _ _ _).1 hcc).2.2
      exact ih _ _ (by omega) (by omega) (turn cur s h hcur hc (by omega) (by omega))
    · refine ⟨cur, s, h, hcur, by simpa using hc, ?_⟩
      simp only [hc]
      rfl

/-- What `ASM` answers on a window inside `MEM`. -/
theorem execAsm_in (s : State) (h : s.rxBase.toNat + s.rxValid.toNat ≤ s.params.memSize) :
    execAsm s = .next ({ (assembleLoop s.rxBase.toNat s.rxValid.toNat (s.rxValid.toNat / 2 + 1) 0 s).1 with
      aConsumed := BitVec.ofNat 64
        (assembleLoop s.rxBase.toNat s.rxValid.toNat (s.rxValid.toNat / 2 + 1) 0 s).2 }.finish .ok) := by
  unfold execAsm
  rw [if_pos ((State.inMem_iff _ _ _).2 h)]

theorem execAsm_out (s : State) (h : s.params.memSize < s.rxBase.toNat + s.rxValid.toNat) :
    execAsm s = .next (s.clearDecodeFlags.finish .window) := by
  unfold execAsm
  rw [if_neg (by rw [State.inMem_iff]; omega)]

/-! ### The masking command (40_subunits R92) -/

theorem execMsk_in (s : State) (h : s.eLen.toNat = 0 ∨ s.eSrc.toNat + s.eLen.toNat ≤ s.params.memSize) :
    execMsk s = .next ((s.maskRegion s.eKey s.eSrc.toNat s.eLen.toNat).finish .ok) := by
  unfold execMsk
  rw [if_neg]
  rintro ⟨h1, h2⟩
  have : ¬ s.inMem s.eSrc.toNat s.eLen.toNat = true := by simp [h2]
  rw [State.inMem_iff] at this
  omega

theorem execMsk_out (s : State) (h0 : 0 < s.eLen.toNat)
    (h : s.params.memSize < s.eSrc.toNat + s.eLen.toNat) : execMsk s = .next (s.finish .window) := by
  unfold execMsk
  rw [if_pos]
  refine ⟨h0, ?_⟩
  have : ¬ s.inMem s.eSrc.toNat s.eLen.toNat = true := by rw [State.inMem_iff]; omega
  simpa using this

/-! ### Every instruction -/

/-- The frame rows are one operation over their bytes (log entry 5). -/
theorem exec_frameRow (i : Instr) (s : State) (h : commandWord i = none) :
    exec i s = .next (s.decodeWindow (frameBytes s.params.opcWire i)) := by
  cases i <;> first | rfl | (simp [commandWord] at h)

/-- Everything an instruction can do, by the operation it comes down to. -/
theorem exec_cases (i : Instr) (s : State) :
    (i = .nop ∧ exec i s = .next (s.finish .ok)) ∨
    (i = .srst ∧ exec i s = .next (s.clearRegisters.finish .ok)) ∨
    (i = .txinit ∧ exec i s =
      .next ({ s with txWptr := 0#64, status := { s.status with txab := false } }.finish .ok)) ∨
    (i = .enc ∧ exec i s = execEnc s) ∨
    (i = .asm ∧ exec i s = execAsm s) ∨
    (i = .msk ∧ exec i s = execMsk s) ∨
    (∃ given, (i = .dec ∨ commandWord i = none) ∧ exec i s = .next (s.decodeWindow given)) := by
  cases i
  case nop => exact .inl ⟨rfl, rfl⟩
  case srst => exact .inr (.inl ⟨rfl, rfl⟩)
  case txinit => exact .inr (.inr (.inl ⟨rfl, rfl⟩))
  case enc => exact .inr (.inr (.inr (.inl ⟨rfl, rfl⟩)))
  case asm => exact .inr (.inr (.inr (.inr (.inl ⟨rfl, rfl⟩))))
  case msk => exact .inr (.inr (.inr (.inr (.inr (.inl ⟨rfl, rfl⟩)))))
  case dec => exact .inr (.inr (.inr (.inr (.inr (.inr ⟨[], .inl rfl, rfl⟩)))))
  all_goals
    exact .inr (.inr (.inr (.inr (.inr (.inr ⟨_, .inr rfl, exec_frameRow _ s rfl⟩)))))

end Sys2Proof.Machine
end

