-- ==== Sys2Proof/Laws/Frames.lean ====
section
/-! SUPPORT. Laws of headers as bytes: a header read back field by field from any source that holds it, the pieces of
the header decoder, and the `STATUS` word bit by bit. -/

namespace Sys2Proof.Machine

/-! ### Numbers and keys as bytes -/

/-- A field written big-endian and read back (00_scope R10). -/
theorem ofNat_beNat_beBytes (n w : Nat) (v : BitVec w) (h : 256 ^ n = 2 ^ w) :
    BitVec.ofNat w (beNat (beBytes n v.toNat)) = v := by
  rw [beNat_beBytes, h]
  apply BitVec.eq_of_toNat_eq
  simp

/-- Bytes read as a field and written back. -/
theorem beBytes_ofNat_beNat (w : Nat) (bs : List Byte) (h : 256 ^ bs.length = 2 ^ w) :
    beBytes bs.length (BitVec.ofNat w (beNat bs)).toNat = bs := by
  rw [BitVec.toNat_ofNat, ← h, Nat.mod_eq_of_lt (beNat_lt bs), beBytes_beNat]

/-- The key bytes are the bytes of the masking unit (40_subunits R90). -/
theorem keyBytes_getD (key : BitVec 32) (i : Nat) : (keyBytes key).getD (i % 4) 0 = keyByte key i := by
  have h : i % 4 < 4 := Nat.mod_lt _ (by norm_num)
  rw [← keyByte_mod]
  generalize i % 4 = j at h
  interval_cases j <;> rfl

/-! ### A header in a byte source (30_encoding R64 to R70) -/

/-- The source holds the list from offset `k` on. -/
theorem sourceBytes_eq_of_reads {f : Nat → Byte} {bs : List Byte} {k : Nat}
    (h : ∀ j (hj : j < bs.length), f (k + j) = bs[j]) : sourceBytes f k bs.length = bs := by
  induction bs generalizing k with
  | nil => rfl
  | cons b bs ih =>
    have h0 := h 0 (by simp)
    rw [Nat.add_zero] at h0
    rw [List.length_cons, sourceBytes, h0, ih]
    · simp
    · intro j hj
      have := h (j + 1) (by simpa using hj)
      rw [show k + 1 + j = k + (j + 1) by omega, this]
      simp

/-- Everything the decoder reads from a source that begins with a header: byte 0, byte 1, the extension, the key. -/
theorem header_in_source {f : Nat → Byte} {b0 : Byte} {m : BitVec 1} {sel : BitVec 7} {ext : List Byte}
    {key : BitVec 32} (hext : ext.length = extOf sel)
    (h : ∀ k (hk : k < ([b0, packB1 m sel] ++ ext ++ (if m = 1#1 then keyBytes key else [])).length),
      f k = ([b0, packB1 m sel] ++ ext ++ (if m = 1#1 then keyBytes key else []))[k]) :
    f 0 = b0 ∧ maskOf (f 1) = m ∧ selOf (f 1) = sel ∧ frameHdrLen f = hdrLen sel m ∧
      framePayloadLen f = lenDecode sel ext ∧ (m = 1#1 → frameKey f = key) := by
  have h0 : f 0 = b0 := by rw [h 0 (by simp)]; simp
  have h1 : f 1 = packB1 m sel := by rw [h 1 (by simp)]; simp
  have hsel : selOf (f 1) = sel := by rw [h1]; simp
  have hm : maskOf (f 1) = m := by rw [h1]; simp
  have he : frameExt f = ext.length := by rw [frameExt, hsel, hext]
  refine ⟨h0, hm, hsel, by rw [frameHdrLen, hsel, hm], ?_, ?_⟩
  · rw [framePayloadLen, hsel, he, sourceBytes_eq_of_reads]
    intro j hj
    rw [h (2 + j) (by simp; omega), List.getElem_append_left (by simp; omega),
      List.getElem_append_right (by simp)]
    simp
  · intro h1m
    have hk : ∀ j (hj : j < 4), f (j + 2 + ext.length) = (keyBytes key)[j] := by
      intro j hj
      rw [h (j + 2 + ext.length) (by simp [h1m]; omega), List.getElem_append_right (by simp; omega)]
      simp only [h1m, if_true, List.length_append, List.length_cons, List.length_nil]
      congr 1
      omega
    have k0 := hk 0 (by omega)
    have k1 := hk 1 (by omega)
    have k2 := hk 2 (by omega)
    have k3 := hk 3 (by omega)
    simp only [Nat.zero_add, Nat.reduceAdd] at k0 k1 k2 k3
    rw [frameKey, he, k0, k1, k2, k3]
    exact packKey_keyBytes key

/-- Offset `k` of a source that begins with `given`. -/
theorem State.frameByte_given (s : State) (given : List Byte) (a k : Nat) (h : k < given.length) :
    s.frameByte given a k = given[k] := by
  simp [State.frameByte, h]

/-! ### The pieces of the header decoder (30_encoding R68 to R71) -/

theorem decodeKey_unmasked (plain : Instr) (masked : BitVec 32 → Instr) (rest : List Byte) :
    decodeKey 0#1 plain masked rest = .ok (plain, rest) := rfl

theorem decodeKey_masked (plain : Instr) (masked : BitVec 32 → Instr) (key : BitVec 32) (rest : List Byte) :
    decodeKey 1#1 plain masked (keyBytes key ++ rest) = .ok (masked key, rest) := by
  simp only [decodeKey, keyBytes, List.cons_append, List.nil_append, if_true, packKey_keyBytes]

theorem decodeKey_ok {m : BitVec 1} {plain : Instr} {masked : BitVec 32 → Instr} {bs rest : List Byte} {i : Instr}
    (h : decodeKey m plain masked bs = .ok (i, rest)) :
    (m = 0#1 ∧ i = plain ∧ rest = bs) ∨
    (m = 1#1 ∧ ∃ key, i = masked key ∧ bs = keyBytes key ++ rest) := by
  unfold decodeKey at h
  split_ifs at h with hm
  · split at h
    · rename_i k0 k1 k2 k3 r
      simp only [Except.ok.injEq, Prod.mk.injEq] at h
      refine .inr ⟨hm, packKey k0 k1 k2 k3, h.1.symm, ?_⟩
      obtain ⟨h0, h1, h2, h3⟩ := keyByte_packKey k0 k1 k2 k3
      simp [keyBytes, h0, h1, h2, h3, h.2]
    · simp at h
  · simp only [Except.ok.injEq, Prod.mk.injEq] at h
    rcases bit_cases m with rfl | rfl
    · exact .inl ⟨rfl, h.1.symm, h.2.symm⟩
    · exact absurd rfl hm

theorem inlineLengthOk_iff (len : BitVec 7) : inlineLengthOk len = true ↔ len.toNat ≤ 125 := by
  simp [inlineLengthOk]

theorem byte1_of {b1 : Byte} {m : BitVec 1} {sel : BitVec 7} (hm : maskOf b1 = m) (hs : selOf b1 = sel) :
    b1 = packB1 m sel := by rw [← hm, ← hs, packB1_fields]

/-! ### Registers -/

/-- `STATUS` bit by bit (10_state R17). -/
theorem Status.getLsbD_word (st : Status) (b : Nat) : st.word.getLsbD b =
    if b < 3 then st.code.getLsbD b
    else if b = 3 then st.txab
    else if b = 4 then st.cpl
    else if b = 5 then st.hdrv
    else if b < 9 then false
    else st.sticky.getLsbD (b - 9) := by
  unfold Status.word
  simp only [BitVec.getLsbD_append, BitVec.getLsbD_zero]
  by_cases h0 : b < 3
  · simp [h0]
  · by_cases h : b < 9
    · have : 3 ≤ b := by omega
      interval_cases b <;> simp
    · have a1 : ¬ b - 3 < 1 := by omega
      have a2 : ¬ b - 3 - 1 < 1 := by omega
      have a3 : ¬ b - 3 - 1 - 1 < 1 := by omega
      have a4 : ¬ b - 3 - 1 - 1 - 1 < 2 := by omega
      have a5 : ¬ b - 3 - 1 - 1 - 1 - 2 < 1 := by omega
      have e : b - 3 - 1 - 1 - 1 - 2 - 1 = b - 9 := by omega
      have b3 : b ≠ 3 := by omega
      have b4 : b ≠ 4 := by omega
      have b5 : b ≠ 5 := by omega
      simp only [h0, a1, a2, a3, a4, a5, e, h, b3, b4, b5, if_false]
      by_cases h7 : b - 9 < 7
      · simp [h7]
      · simp [h7, BitVec.getLsbD_of_ge _ _ (show 7 ≤ b - 9 by omega)]

/-- A cleared register block reads 0 in every slot (10_state R48). -/
theorem State.readSlot_clearRegisters (s : State) (slot : BitVec 5) : s.clearRegisters.readSlot slot = 0 := by
  have hw : Status.reset.word = 0 := by decide
  unfold State.readSlot
  cases h : Reg.ofSlot slot with
  | none => rfl
  | some r => cases r <;> simp [State.readReg, hw, State.txRem]

/-- The register in a defined slot. -/
@[simp] theorem Reg.ofSlot_slot (r : Reg) : Reg.ofSlot r.slot = some r := by cases r <;> rfl

/-- A slot holds at most one register. -/
theorem Reg.slot_of_ofSlot {n : BitVec 5} {r : Reg} (h : Reg.ofSlot n = some r) : r.slot = n := by
  revert h; revert n; cases r <;> decide

/-- Registers in different slots are different registers. -/
theorem Reg.slot_inj {r r' : Reg} (h : r.slot = r'.slot) : r = r' := by
  have := Reg.ofSlot_slot r
  rw [h, Reg.ofSlot_slot] at this
  exact (Option.some.inj this).symm

/-! ### Everything a host step can do (44_control R140 to R142) -/

/-- Inversion of `hostStep`: a command, a register write, nothing, a recorded read, a stored byte, or a reset. -/
theorem hostStep_cases {op : HostOp} {s t : State} (h : hostStep op s = .next t) :
    (∃ i, exec i s = .next t) ∨
    (∃ c, t = s.finish c ∧ c = .badcmd) ∨
    (∃ r v, t = s.writeReg r v) ∨
    t = s ∨
    (∃ e, t = { s with reads := s.reads ++ [e] }) ∨
    (∃ a b, a < s.params.memSize ∧ t = s.memWrite a b) ∨
    t = s.clearRegisters := by
  cases op with
  | wr slot v =>
    simp only [hostStep, hostWrite] at h
    split at h
    · unfold runCommand at h
      split at h
      · exact .inl ⟨_, h⟩
      · cases h; exact .inr (.inl ⟨_, rfl, rfl⟩)
    · cases h; exact .inr (.inr (.inl ⟨_, _, rfl⟩))
    · cases h; exact .inr (.inr (.inr (.inl rfl)))
  | rd slot => cases h; exact .inr (.inr (.inr (.inr (.inl ⟨_, rfl⟩))))
  | st8 a b =>
    simp only [hostStep] at h
    split at h
    · rename_i ha; cases h; exact .inr (.inr (.inr (.inr (.inr (.inl ⟨_, _, ha, rfl⟩)))))
    · cases h
  | ld8 a =>
    simp only [hostStep] at h
    split at h
    · cases h; exact .inr (.inr (.inr (.inr (.inl ⟨_, rfl⟩))))
    · cases h
  | hardReset => cases h; exact .inr (.inr (.inr (.inr (.inr (.inr rfl)))))

/-- Inversion of `step`: nothing to do, or the host's next step. -/
theorem step_cases {s t : State} (h : step s = .next t) :
    (s.pending = [] ∧ t = s) ∨
    (∃ op rest, s.pending = op :: rest ∧ hostStep op { s with pending := rest } = .next t) := by
  unfold step at h
  split at h
  · cases h; exact .inl ⟨by assumption, rfl⟩
  · exact .inr ⟨_, _, by assumption, h⟩

/-! ### A decode attempt from `MEM`, by its completeness flag (42_decode R115 to R117) -/

/-- What a complete attempt of `DEC` or `ASM` leaves in the registers a handler event and a cursor are made of. -/
theorem State.decodeAt_complete (s : State) {a n : Nat} (hc : (s.decodeAt [] a n).status.cpl = true)
    (hn : n < 2 ^ 64) :
    let t := s.decodeAt [] a n
    let f := fun k => s.memRead (a + k)
    frameComplete n (frameHdrLen f) (framePayloadLen f).toNat = true ∧
    t.dFlen.toNat = frameHdrLen f + (framePayloadLen f).toNat ∧
    t.dPaddr = BitVec.ofNat 64 (a + frameHdrLen f) ∧ t.dLen = framePayloadLen f ∧
    t.dOpc = classOf s.params.opcWire (opcOf (f 0)) := by
  simp only
  rw [State.decodeAt_status] at hc
  have hcc : frameComplete n (frameHdrLen (s.frameByte [] a)) (framePayloadLen (s.frameByte [] a)).toNat = true := hc
  have h := attempt_of_complete (wire := s.params.opcWire) (a := a) (d := s.draws) hcc hn
  refine ⟨hcc, ?_, ?_, ?_, ?_⟩
  · rw [State.decodeAt_dFlen]; exact h.2.2.2.2.2.2.1
  · rw [State.decodeAt_dPaddr]; exact h.2.2.2.2.2.2.2
  · rw [State.decodeAt_dLen]; exact h.2.2.2.2.1
  · rw [State.decodeAt_dOpc]; exact h.2.1

/-- A complete attempt changes no byte outside its frame. -/
theorem State.memRead_decodeAt_outside (s : State) {a n a' : Nat} (hn : n < 2 ^ 64)
    (hc : (s.decodeAt [] a n).status.cpl = true)
    (h : a' < a ∨ a + (s.decodeAt [] a n).dFlen.toNat ≤ a') : (s.decodeAt [] a n).memRead a' = s.memRead a' := by
  have hx := s.decodeAt_complete hc hn
  simp only at hx
  rw [hx.2.1] at h
  rw [State.memRead_decodeAt, if_neg]
  rintro ⟨_, h1, h2⟩
  have e : s.frameByte [] a = fun k => s.memRead (a + k) := rfl
  rw [e] at h1 h2
  omega

/-- An incomplete attempt changes no byte (R116). -/
theorem State.mem_decodeAt_incomplete (s : State) {a n : Nat} (hc : (s.decodeAt [] a n).status.cpl = false) :
    (s.decodeAt [] a n).mem = s.mem := by
  apply State.mem_decodeAt_of_not
  rintro ⟨h, _⟩
  rw [State.decodeAt_status] at hc
  simp only at hc
  rw [hc] at h; cases h

/-! ### Runs of bytes -/

theorem State.readBytes_append (s : State) (a n m : Nat) :
    s.readBytes a (n + m) = s.readBytes a n ++ s.readBytes (a + n) m := by
  apply List.ext_getElem (by simp)
  intro i h1 h2
  rw [State.getElem_readBytes]
  by_cases h : i < n
  · rw [List.getElem_append_left (by simpa using h), State.getElem_readBytes]
  · rw [List.getElem_append_right (by simpa using h), State.getElem_readBytes]; congr 1; simp; omega

/-- A run that reads as a list, byte by byte. -/
theorem State.memRead_of_readBytes {s : State} {a : Nat} {bs : List Byte} (h : s.readBytes a bs.length = bs)
    {k : Nat} (hk : k < bs.length) : s.memRead (a + k) = bs[k] := by
  have hx := State.getElem_readBytes s a bs.length k (by simpa using hk)
  rw [← hx]
  exact List.getElem_of_eq h _

/-- Receiving bytes leaves the parameters. -/
@[simp] theorem State.receive_params (s : State) (bs : List Byte) : (s.receive bs).params = s.params := by
  simp only [State.receive]
  split_ifs <;> rfl

/-- Receiving bytes leaves the host's steps to come. -/
@[simp] theorem State.receive_pending (s : State) (bs : List Byte) : (s.receive bs).pending = s.pending := by
  simp only [State.receive]
  split_ifs <;> rfl

/-- Bytes received in the window are what the window then reads as, or `MEM` is too small for them and the window
does not lie in it. -/
theorem State.receive_cases (s : State) {bs : List Byte} (h : bs.length < 2 ^ 64) :
    (s.receive bs).readBytes (s.receive bs).rxBase.toNat bs.length = bs ∨
    (s.receive bs).params.memSize < (s.receive bs).rxBase.toNat + (s.receive bs).rxValid.toNat := by
  have hv : (s.receive bs).rxValid.toNat = bs.length := by
    rw [State.receive, BitVec.toNat_ofNat, Nat.mod_eq_of_lt h]
  rw [State.receive_params, hv]
  set base : Word := if s.inMem s.rxBase.toNat bs.length then s.rxBase else 0#64 with hb
  have hbase : (s.receive bs).rxBase = base := rfl
  rw [hbase]
  by_cases hin : s.inMem base.toNat bs.length = true
  · have hmem : (s.receive bs).mem = (s.writeBytes base.toNat bs).mem := by
      simp only [State.receive]
      rw [← hb, if_pos hin]
    left
    apply List.ext_getElem (by simp)
    intro i h1 h2
    rw [State.getElem_readBytes]
    have hw := State.memRead_writeBytes_inside s base.toNat bs h2
    unfold State.memRead at hw ⊢
    rw [hmem]; exact hw
  · right
    rw [State.inMem_iff] at hin
    omega

/-- Receiving bytes keeps the memory canonical and inside `MEM_SIZE`, whatever the size of `MEM`. -/
theorem State.receive_mem (s : State) (bs : List Byte) (hw : s.mem.wf = true)
    (hr : ∀ c ∈ s.mem, c.1 < s.params.memSize) :
    (s.receive bs).mem.wf = true ∧ ∀ c ∈ (s.receive bs).mem, c.1 < (s.receive bs).params.memSize := by
  rw [State.receive_params]
  simp only [State.receive]
  generalize (if s.inMem s.rxBase.toNat bs.length then s.rxBase else 0#64) = base
  split
  · rename_i h
    rw [State.inMem_iff] at h
    exact ⟨Memory.wf_storeBytes _ _ hw, Memory.storeBytes_below hr h⟩
  · exact ⟨hw, hr⟩

end Sys2Proof.Machine
end

