-- ==== Sys2Proof/Laws/PerInstr.lean ====
section
/-! SUPPORT. The statements made of every instruction as syntax, one lemma per constructor. -/

open Sys2Proof Sys2Proof.Machine

/-- The width in bits of an instruction's row of spec/opcode_table.json. -/
def Sys2Proof.Laws.EncodingWidth.width : Instr → Nat
  | .nop | .srst | .txinit | .enc | .dec | .asm | .msk => 32
  | .f7u _ _ _ _ => 16
  | .f7m _ _ _ _ _ => 48
  | .f16u _ _ _ _ => 32
  | .f16m _ _ _ _ _ => 64
  | .f64u _ _ _ _ => 80
  | .f64m _ _ _ _ _ => 112
  | .opcContinuation _ _ | .opcText _ _ | .opcBinary _ _ => 8
  | .opcClose _ _ | .opcPing _ _ | .opcPong _ _ => 8

/-- An instruction's encoding is a word of its row's width (30_encoding R70, R73, R75), whatever the wire values. -/
def Sys2Proof.Laws.EncodingWidth.Statement (i : Instr) : Prop :=
  ∀ w : OpcWire, (encode w i).1 = Sys2Proof.Laws.EncodingWidth.width i ∧ (encode w i).2 < 2 ^ (encode w i).1

/-- A frame row's word has eight bits per byte. -/
theorem Sys2Proof.Laws.EncodingWidth.ofFrame (i : Instr) (h : commandWord i = none)
    (hl : ∀ w, 8 * (frameBytes w i).length = Sys2Proof.Laws.EncodingWidth.width i) :
    Sys2Proof.Laws.EncodingWidth.Statement i := by
  intro w
  have e : encode w i = (8 * (frameBytes w i).length, beNat (frameBytes w i)) := by simp [encode, h]
  rw [e]
  refine ⟨hl w, ?_⟩
  have := beNat_lt (frameBytes w i)
  rwa [show (256 : Nat) = 2 ^ 8 by norm_num, ← Nat.pow_mul] at this

theorem Sys2Proof.Laws.EncodingWidth.nop : Sys2Proof.Laws.EncodingWidth.Statement .nop :=
  fun _ => ⟨rfl, by simp [encode, commandWord]⟩

theorem Sys2Proof.Laws.EncodingWidth.srst : Sys2Proof.Laws.EncodingWidth.Statement .srst :=
  fun _ => ⟨rfl, by simp [encode, commandWord]⟩

theorem Sys2Proof.Laws.EncodingWidth.txinit : Sys2Proof.Laws.EncodingWidth.Statement .txinit :=
  fun _ => ⟨rfl, by simp [encode, commandWord]⟩

theorem Sys2Proof.Laws.EncodingWidth.enc : Sys2Proof.Laws.EncodingWidth.Statement .enc :=
  fun _ => ⟨rfl, by simp [encode, commandWord]⟩

theorem Sys2Proof.Laws.EncodingWidth.dec : Sys2Proof.Laws.EncodingWidth.Statement .dec :=
  fun _ => ⟨rfl, by simp [encode, commandWord]⟩

theorem Sys2Proof.Laws.EncodingWidth.asm : Sys2Proof.Laws.EncodingWidth.Statement .asm :=
  fun _ => ⟨rfl, by simp [encode, commandWord]⟩

theorem Sys2Proof.Laws.EncodingWidth.msk : Sys2Proof.Laws.EncodingWidth.Statement .msk :=
  fun _ => ⟨rfl, by simp [encode, commandWord]⟩

theorem Sys2Proof.Laws.EncodingWidth.f7u (fin : BitVec 1) (rsv : BitVec 3) (opc : BitVec 4) (len : BitVec 7) :
    Sys2Proof.Laws.EncodingWidth.Statement (.f7u fin rsv opc len) :=
  Sys2Proof.Laws.EncodingWidth.ofFrame _ rfl fun _ => rfl

theorem Sys2Proof.Laws.EncodingWidth.f7m (fin : BitVec 1) (rsv : BitVec 3) (opc : BitVec 4) (len : BitVec 7)
    (key : BitVec 32) : Sys2Proof.Laws.EncodingWidth.Statement (.f7m fin rsv opc len key) :=
  Sys2Proof.Laws.EncodingWidth.ofFrame _ rfl fun _ => rfl

theorem Sys2Proof.Laws.EncodingWidth.f16u (fin : BitVec 1) (rsv : BitVec 3) (opc : BitVec 4) (len : BitVec 16) :
    Sys2Proof.Laws.EncodingWidth.Statement (.f16u fin rsv opc len) :=
  Sys2Proof.Laws.EncodingWidth.ofFrame _ rfl fun _ => rfl

theorem Sys2Proof.Laws.EncodingWidth.f16m (fin : BitVec 1) (rsv : BitVec 3) (opc : BitVec 4) (len : BitVec 16)
    (key : BitVec 32) : Sys2Proof.Laws.EncodingWidth.Statement (.f16m fin rsv opc len key) :=
  Sys2Proof.Laws.EncodingWidth.ofFrame _ rfl fun _ => rfl

theorem Sys2Proof.Laws.EncodingWidth.f64u (fin : BitVec 1) (rsv : BitVec 3) (opc : BitVec 4) (len : BitVec 64) :
    Sys2Proof.Laws.EncodingWidth.Statement (.f64u fin rsv opc len) :=
  Sys2Proof.Laws.EncodingWidth.ofFrame _ rfl fun _ => rfl

theorem Sys2Proof.Laws.EncodingWidth.f64m (fin : BitVec 1) (rsv : BitVec 3) (opc : BitVec 4) (len : BitVec 64)
    (key : BitVec 32) : Sys2Proof.Laws.EncodingWidth.Statement (.f64m fin rsv opc len key) :=
  Sys2Proof.Laws.EncodingWidth.ofFrame _ rfl fun _ => rfl

theorem Sys2Proof.Laws.EncodingWidth.opcContinuation (fin : BitVec 1) (rsv : BitVec 3) :
    Sys2Proof.Laws.EncodingWidth.Statement (.opcContinuation fin rsv) :=
  Sys2Proof.Laws.EncodingWidth.ofFrame _ rfl fun _ => rfl

theorem Sys2Proof.Laws.EncodingWidth.opcText (fin : BitVec 1) (rsv : BitVec 3) :
    Sys2Proof.Laws.EncodingWidth.Statement (.opcText fin rsv) :=
  Sys2Proof.Laws.EncodingWidth.ofFrame _ rfl fun _ => rfl

theorem Sys2Proof.Laws.EncodingWidth.opcBinary (fin : BitVec 1) (rsv : BitVec 3) :
    Sys2Proof.Laws.EncodingWidth.Statement (.opcBinary fin rsv) :=
  Sys2Proof.Laws.EncodingWidth.ofFrame _ rfl fun _ => rfl

theorem Sys2Proof.Laws.EncodingWidth.opcClose (fin : BitVec 1) (rsv : BitVec 3) :
    Sys2Proof.Laws.EncodingWidth.Statement (.opcClose fin rsv) :=
  Sys2Proof.Laws.EncodingWidth.ofFrame _ rfl fun _ => rfl

theorem Sys2Proof.Laws.EncodingWidth.opcPing (fin : BitVec 1) (rsv : BitVec 3) :
    Sys2Proof.Laws.EncodingWidth.Statement (.opcPing fin rsv) :=
  Sys2Proof.Laws.EncodingWidth.ofFrame _ rfl fun _ => rfl

theorem Sys2Proof.Laws.EncodingWidth.opcPong (fin : BitVec 1) (rsv : BitVec 3) :
    Sys2Proof.Laws.EncodingWidth.Statement (.opcPong fin rsv) :=
  Sys2Proof.Laws.EncodingWidth.ofFrame _ rfl fun _ => rfl
end

