-- ==== Sys2Proof/Tests/Slice0.lean ====
section
/-! SUPPORT. Tests of the model against spec/95_test_vectors.md and the worked examples, and one witness for every
obligation that has hypotheses. Every expected value is the spec's. -/

namespace Sys2Proof.Tests

open Sys2Proof.Machine

/-! ### Small states -/

/-- Did the outcome give a next state, and which? -/
def next : Host.Outcome State Fault Refusal → Option State
  | .next t => some t
  | .fault _ => none
  | .refused _ => none

/-- The next state of an outcome, `s` where there is none. -/
def after (o : Host.Outcome State Fault Refusal) (s : State) : State := (next o).getD s

/-- "hello". -/
def hello : List Byte := [0x68, 0x65, 0x6C, 0x6C, 0x6F]

/-- The frame of V-ENC-1: masked TEXT "hello" with the key 37 FA 21 3D. -/
def helloFrame : List Byte := [0x81, 0x85, 0x37, 0xFA, 0x21, 0x3D, 0x5F, 0x9F, 0x4D, 0x51, 0x58]

/-- The operands of V-ENC-1 (41_encode R107), with a transmit window of `cap` bytes. -/
def encState (cap : Word) : State :=
  { State.reset.writeBytes 0x2000 hello with
    txBase := 0x1000, txCap := cap, eFin := 1, eOpc := 1, eMask := 1, eKey := 0x37FA213D
    eSrc := 0x2000, eLen := 5 }

/-- The operands of V-ENC-30: an unmasked TEXT frame of 4 bytes at 0x200, the source at `src`. -/
def overlapState (src : Word) : State :=
  { State.reset with txBase := 0x200, txCap := 16, eFin := 1, eOpc := 1, eSrc := src, eLen := 4 }

/-- A receive window at 0x1000 that holds `bs`, with `n` valid bytes (95_test_vectors 2.5). -/
def rxState (bs : List Byte) (n : Word) : State :=
  { State.reset.writeBytes 0x1000 bs with rxBase := 0x1000, rxValid := n }

/-- The window of V-ASM-4 (43_assemble R135): two whole frames and 4 bytes of a third. -/
def streamBytes : List Byte :=
  [0x02, 0x03, 0xDE, 0xAD, 0xBE] ++ [0x89, 0x80, 0x37, 0xFA, 0x21, 0x3D] ++ [0x81, 0x85, 0x37, 0xFA]

/-- The region of 40_subunits R92's example. -/
def mskState : State :=
  { State.reset.writeBytes 0x100 [0x00, 0xFF, 0x55, 0xAA, 0x01, 0x02, 0x03] with
    eKey := 0xAABBCCDD, eSrc := 0x100, eLen := 7 }

/-! ### Well-formedness -/

/-- The one check refuses an inline length of 126 or 127 (opcode_table.json, "constraint"). -/
theorem test_ill_formed_inline_length :
    (Instr.f7u 1 0 1 126).illFormed = some .inlineLength ∧ (Instr.f7m 1 0 1 127 0).illFormed = some .inlineLength ∧
    (Instr.f7u 1 0 1 125).WellFormed ∧ (Instr.f7m 1 0 1 0 0).WellFormed := by decide

/-! ### Decoding: a word of every row, written out from spec/opcode_table.json -/

theorem test_decode_nop : decodeTableWord 32 0b00000000000000000000000000000000 = some .nop := by decide
theorem test_decode_srst : decodeTableWord 32 0b00000000000000000000000000000001 = some .srst := by decide
theorem test_decode_txinit : decodeTableWord 32 0b00000000000000000000000000000010 = some .txinit := by decide
theorem test_decode_enc : decodeTableWord 32 0b00000000000000000000000000010000 = some .enc := by decide
theorem test_decode_dec : decodeTableWord 32 0b00000000000000000000000000100000 = some .dec := by decide
theorem test_decode_asm : decodeTableWord 32 0b00000000000000000000000000100001 = some .asm := by decide
theorem test_decode_msk : decodeTableWord 32 0b00000000000000000000000000110000 = some .msk := by decide

/-- `F` 1, `rrr` 010, `oooo` 0001, MASK 0, `lllllll` 0000101. -/
theorem test_decode_f7u : decodeTableWord 16 0b1010000100000101 = some (.f7u 1 2 1 5) := by decide

/-- V-ENC-4's header, `89 80 37 FA 21 3D`. -/
theorem test_decode_f7m : decodeTableWord 48 0x898037FA213D = some (.f7m 1 0 9 0 0x37FA213D) := by decide

/-- V-RT-9's header, `82 7E 01 F4`. -/
theorem test_decode_f16u : decodeTableWord 32 0b10000010011111100000000111110100 = some (.f16u 1 0 2 500) := by decide

/-- V-RT-10's header, `82 FE 01 F4 37 FA 21 3D`. -/
theorem test_decode_f16m : decodeTableWord 64 0x82FE01F437FA213D = some (.f16m 1 0 2 500 0x37FA213D) := by decide

/-- V-RT-15's header, `82 7F 00 00 00 00 00 1E 84 80`. -/
theorem test_decode_f64u : decodeTableWord 80 0x827F00000000001E8480 = some (.f64u 1 0 2 2000000) := by decide

/-- V-RT-14's header, `82 FF 00 00 00 00 00 01 00 00 37 FA 21 3D`. -/
theorem test_decode_f64m :
    decodeTableWord 112 0x82FF000000000001000037FA213D = some (.f64m 1 0 2 65536 0x37FA213D) := by decide

theorem test_decode_opcContinuation : decodeTableWord 8 0b00000000 = some (.opcContinuation 0 0) := by decide
theorem test_decode_opcText : decodeTableWord 8 0b11110001 = some (.opcText 1 7) := by decide
theorem test_decode_opcBinary : decodeTableWord 8 0b10000010 = some (.opcBinary 1 0) := by decide
theorem test_decode_opcClose : decodeTableWord 8 0b10001000 = some (.opcClose 1 0) := by decide
theorem test_decode_opcPing : decodeTableWord 8 0b00001001 = some (.opcPing 0 0) := by decide
theorem test_decode_opcPong : decodeTableWord 8 0b00011010 = some (.opcPong 0 1) := by decide

/-- Reserved command words (V-CTL-4, V-CTL-5) and wire values no class has (V-PAR-8) are refused; so are widths that
no row has, and a header with bytes missing or left over. -/
theorem test_decode_refuses :
    decodeTableWord 32 0x11 = none ∧ decodeTableWord 32 0x110 = none ∧ decodeTableWord 8 0x83 = none ∧
    decodeTableWord 24 0 = none ∧ decodeTableWord 16 0x8185 = none ∧ decodeTableWord 48 0x810500000000 = none := by
  decide

/-! ### The sub-units (95_test_vectors 2.1 to 2.3) -/

/-- V-LEN-3, V-LEN-4, V-LEN-7, V-LEN-8, V-LEN-11. -/
theorem test_len_class :
    lenClass 125 = (125, 0) ∧ lenClass 126 = (126, 2) ∧ lenClass 65535 = (126, 2) ∧ lenClass 65536 = (127, 8) ∧
    lenClass 0xFFFFFFFFFFFFFFFF = (127, 8) := by decide

/-- V-LEN-6, V-LEN-9. -/
theorem test_len_ext_bytes :
    lenExtBytes 500 = [0x01, 0xF4] ∧ lenExtBytes 2000000 = [0, 0, 0, 0, 0, 0x1E, 0x84, 0x80] := by decide

/-- V-LEN-15, V-LEN-17, V-LEN-20. -/
theorem test_len_decode :
    lenDecode 126 [0x00, 0x05] = 5 ∧ lenDecode 126 [0xFF, 0xFF] = 65535 ∧
    lenDecode 127 [0x80, 0, 0, 0, 0, 0, 0, 0] = 0x8000000000000000 := by decide

/-- V-PAR-3, V-PAR-7, V-PAR-10. -/
theorem test_pack_parse :
    packB0 Config.params.opcWire 0 .binary = 0x02 ∧ packB1 1 126 = 0xFE ∧
    parseB0 Config.params.opcWire 0xF1 = (1, classCode .text) ∧ parseB0 Config.params.opcWire 0x83 = (1, 6) := by
  decide

/-- V-XOR-1, V-XOR-3, V-XOR-7. -/
theorem test_xor_mask :
    xorMask 0x37FA213D hello = [0x5F, 0x9F, 0x4D, 0x51, 0x58] ∧ xorMask 0x37FA213D [] = [] ∧
    xorMask 0x37FA213D [0, 1, 2, 3, 4, 5, 6, 7] = [0x37, 0xFB, 0x23, 0x3E, 0x33, 0xFF, 0x27, 0x3A] := by decide

/-! ### Control commands (95_test_vectors 2.7) -/

/-- V-CTL-1. -/
theorem test_nop :
    (after (exec .nop { State.reset with status :=
      { code := 1, txab := true, cpl := false, hdrv := false, sticky := 1 } }) State.reset).status.word = 0x208 := by
  decide

/-- V-CTL-2, on a register and on memory. -/
theorem test_srst :
    (after (exec .srst (encState 11)) State.reset).readReg .txCap = 0 ∧
    (after (exec .srst (encState 11)) State.reset).memRead 0x2000 = 0x68 := by decide

/-- V-ENC-25: after V-ENC-24, `TXINIT` gives `STATUS = 0x00002200`. -/
theorem test_txinit :
    (after (exec .txinit { State.reset with txWptr := 11, status :=
      { code := 5, txab := true, cpl := false, hdrv := false, sticky := 0b0010001 } }) State.reset).status.word
      = 0x2200 := by decide

/-- V-CTL-4 and V-CTL-6: an undefined word; a word whose bits 63:32 are ignored. -/
theorem test_command_words :
    (after (step { State.reset with pending := [.wr 0 0x11] }) State.reset).status.word = 0x8007 ∧
    (after (step { State.reset with pending := [.wr 0 0xFFFFFFFF00000000] }) State.reset).status.word = 0 := by decide

/-- V-CTL-7, V-CTL-8, V-CTL-9, V-CTL-10. -/
theorem test_registers :
    ((after (step { State.reset with pending := [.wr Reg.eOpc.slot 0xFF] }) State.reset).readReg .eOpc) = 7 ∧
    ((after (step { State.reset with pending := [.wr Reg.eFin.slot 2] }) State.reset).readReg .eFin) = 0 ∧
    ((after (step { State.reset with pending := [.wr Reg.dLen.slot 9] }) State.reset).readReg .dLen) = 0 ∧
    ({ State.reset with txCap := 4, txWptr := 7 } : State).readReg .txRem = 0 := by decide

/-! ### The encoder (95_test_vectors 2.4) -/

/-- V-ENC-1 and V-ENC-20: the frame's bytes and the results, in a window it fills exactly. -/
theorem test_enc :
    (after (exec .enc (encState 11)) State.reset).readBytes 0x1000 11 = helloFrame ∧
    (after (exec .enc (encState 11)) State.reset).eHlen = 6 ∧
    (after (exec .enc (encState 11)) State.reset).eFlen = 11 ∧
    (after (exec .enc (encState 11)) State.reset).txWptr = 11 ∧
    (after (exec .enc (encState 11)) State.reset).status.word = 0 := by decide

/-- V-ENC-21, V-ENC-26, V-ENC-28 and V-ENC-30 to V-ENC-32: the `STATUS` word of each refusal, and of the frame that
touches its source. -/
theorem test_enc_refusals :
    (after (exec .enc (encState 10)) State.reset).status.word = 0x209 ∧
    (after (exec .enc { encState 10 with eOpc := 6 }) State.reset).status.word = 0x803 ∧
    (after (exec .enc { encState 64 with eSrc := 0xFFFFFE }) State.reset).status.word = 0x1004 ∧
    (after (exec .enc (overlapState 0x204)) State.reset).status.word = 0x4006 ∧
    (after (exec .enc (overlapState 0x206)) State.reset).status.word = 0 ∧
    (after (exec .enc (overlapState 0x1FD)) State.reset).status.word = 0x4006 := by decide

/-! ### The decoder (95_test_vectors 2.5) -/

/-- V-DEC-1. -/
theorem test_dec :
    (after (exec .dec (rxState helloFrame 11)) State.reset).readBytes 0x1000 11 =
      [0x81, 0x85, 0x37, 0xFA, 0x21, 0x3D] ++ hello ∧
    (after (exec .dec (rxState helloFrame 11)) State.reset).dOpc = 1 ∧
    (after (exec .dec (rxState helloFrame 11)) State.reset).dKey = 0x37FA213D ∧
    (after (exec .dec (rxState helloFrame 11)) State.reset).dPaddr = 0x1006 ∧
    (after (exec .dec (rxState helloFrame 11)) State.reset).status.word = 0x30 := by decide

/-- V-DEC-14: a length whose sum with the header length passes 2^64 does not wrap. -/
theorem test_dec_no_wrap :
    (after (exec .dec (rxState [0x82, 0x7F, 0xFF, 0xFF, 0xFF, 0xFF, 0xFF, 0xFF, 0xFF, 0xFF] 10)) State.reset).status.word
      = 0x20 ∧
    (after (exec .dec (rxState [0x82, 0x7F, 0xFF, 0xFF, 0xFF, 0xFF, 0xFF, 0xFF, 0xFF, 0xFF] 10)) State.reset).dLen
      = 0xFFFFFFFFFFFFFFFF := by decide

/-! ### The assembler (95_test_vectors 2.6), its window at 0x1000 here -/

/-- V-ASM-4. -/
theorem test_asm :
    (after (exec .asm (rxState streamBytes 15)) State.reset).hnd =
      [{ cls := 2, addr := 0x1002, len := 3 }, { cls := 4, addr := 0x100B, len := 0 }] ∧
    (after (exec .asm (rxState streamBytes 15)) State.reset).aConsumed = 11 ∧
    (after (exec .asm (rxState streamBytes 15)) State.reset).dLen = 5 ∧
    (after (exec .asm (rxState streamBytes 15)) State.reset).status.word = 0 := by decide

/-- V-ASM-8: a frame that is never complete hides the one behind it. -/
theorem test_asm_blocked :
    (after (exec .asm (rxState [0x82, 0x7F, 0xFF, 0xFF, 0xFF, 0xFF, 0xFF, 0xFF, 0xFF, 0xFF, 0x81, 0x00] 12))
      State.reset).hnd = [] := by decide

/-! ### The masking unit -/

/-- V-XOR-5, the example of 40_subunits R92. -/
theorem test_msk :
    (after (exec .msk mskState) State.reset).readBytes 0x100 7 = [0xAA, 0x44, 0x99, 0x77, 0xAB, 0xB9, 0xCF] := by
  decide

/-- Program P5's refused `MSK`: a region past the end of `MEM`. -/
theorem test_msk_window :
    (after (exec .msk { mskState with eSrc := 0xFFFFFD }) State.reset).status.word = 0x1004 := by decide

/-! ### The frame rows: what the decoder makes of each (30_encoding R70, R73) -/

/-- V-DEC-4's header in a window of its own length. -/
theorem test_f7u :
    (after (exec (.f7u 1 0 1 0) (rxState [] 2)) State.reset).status.word = 0x30 ∧
    (after (exec (.f7u 1 0 1 0) (rxState [] 2)) State.reset).dHlen = 2 := by decide

/-- V-DEC-7: the header alone, its payload missing. -/
theorem test_f7m :
    (after (exec (.f7m 1 0 1 5 0x37FA213D) (rxState [] 6)) State.reset).status.word = 0x20 ∧
    (after (exec (.f7m 1 0 1 5 0x37FA213D) (rxState [] 6)) State.reset).dKey = 0x37FA213D := by decide

/-- V-DEC-13. -/
theorem test_f16u :
    (after (exec (.f16u 1 0 2 500) (rxState [] 4)) State.reset).dLen = 500 ∧
    (after (exec (.f16u 1 0 2 500) (rxState [] 4)) State.reset).status.word = 0x20 := by decide

/-- V-RT-10's header. -/
theorem test_f16m :
    (after (exec (.f16m 1 0 2 500 0x37FA213D) (rxState [] 8)) State.reset).dHlen = 8 ∧
    (after (exec (.f16m 1 0 2 500 0x37FA213D) (rxState [] 8)) State.reset).dMask = 1 := by decide

/-- V-RT-13's header. -/
theorem test_f64u :
    (after (exec (.f64u 1 0 2 65536) (rxState [] 10)) State.reset).dLen = 65536 ∧
    (after (exec (.f64u 1 0 2 65536) (rxState [] 10)) State.reset).dHlen = 10 := by decide

/-- V-RT-14's header; with a byte less the header is cut (V-DEC-8's case). -/
theorem test_f64m :
    (after (exec (.f64m 1 0 2 65536 0x37FA213D) (rxState [] 14)) State.reset).dKey = 0x37FA213D ∧
    (after (exec (.f64m 1 0 2 65536 0x37FA213D) (rxState [] 13)) State.reset).status.word = 0 := by decide

/-- V-PAR-8 and V-DEC-10: one valid byte, of each class. -/
theorem test_opcode_rows :
    (after (exec (.opcContinuation 1 0) (rxState [] 1)) State.reset).dOpc = 0 ∧
    (after (exec (.opcText 1 0) (rxState [] 1)) State.reset).dOpc = 1 ∧
    (after (exec (.opcBinary 1 0) (rxState [] 1)) State.reset).dOpc = 2 ∧
    (after (exec (.opcClose 1 0) (rxState [] 1)) State.reset).dOpc = 3 ∧
    (after (exec (.opcPing 1 0) (rxState [] 1)) State.reset).dOpc = 4 ∧
    (after (exec (.opcPong 1 0) (rxState [] 1)) State.reset).dOpc = 5 := by decide

/-! ### The host -/

/-- 30_encoding R81: `FILL a, b0 b1` is `ST8` at `a`, then at `a + 1`; no address wraps at 2^64 (log entry 7). -/
theorem test_fill :
    scriptFill 0x100 [0xAA, 0xBB] = [.st8 0x100 0xAA, .st8 0x101 0xBB] ∧
    scriptFill 0xFFFFFFFFFFFFFFFF [1, 2] = [.st8 0xFFFFFFFFFFFFFFFF 1, .st8 0x10000000000000000 2] := by decide

/-! ### Placed words run -/

/-- 00_scope R11, 42_decode R109: with `MEM_SIZE = 4` a placed header of 6 bytes stores no byte, and the `DEC` that
meets it ends with `E_WINDOW` (log entry 4). -/
theorem test_placed_word_small_memory :
    (after (step ({ State.reset with params := { Config.params with memSize := 4 } }.withFetchWord 48 0x818037FA213D))
      State.reset).status.word = 0x1004 ∧
    (after (step ({ State.reset with params := { Config.params with memSize := 4 } }.withFetchWord 48 0x818037FA213D))
      State.reset).mem = [] := by decide

/-- The first step after reset runs the word placed. -/
theorem test_placed_word_runs :
    (after (step (State.reset.withFetchWord 32 0x10)) State.reset).status.word = 0x209 ∧
    (after (step (State.reset.withFetchWord 48 0x818037FA213D)) State.reset).dKey = 0x37FA213D ∧
    (after (step (State.reset.withFetchWord 48 0x818037FA213D)) State.reset).status.word = 0x30 ∧
    (after (step (State.reset.withFetchWord 8 0x89)) State.reset).dOpc = 4 := by decide

/-! ### Witnesses: for each obligation with hypotheses, operands and a state that meet them -/

/-- `DecodeOfEncodeIsTheInstruction`, at the largest inline length. -/
theorem witness_DecodeOfEncodeIsTheInstruction :
    Config.params.opcWire.Distinct ∧ (Instr.f7m 1 7 15 125 0xFFFFFFFF).WellFormed := by decide

/-- `HeaderDecoderAcceptsExactlyTheHeaders`, both sides. -/
theorem witness_HeaderDecoderAcceptsExactlyTheHeaders :
    decodeHeader [0x81, 0x05, 0x99] = .ok (.f7u 1 0 1 5, [0x99]) ∧
    [0x81, 0x05, 0x99] = frameBytes Config.params.opcWire (.f7u 1 0 1 5) ++ [0x99] := by
  exact ⟨rfl, rfl⟩

/-- `HeaderIsRefusedOnlyWhenCut`: a whole header, and one short by a byte. -/
theorem witness_HeaderIsRefusedOnlyWhenCut :
    frameHdrLen (listByte [0x81, 0x80, 1, 2, 3, 4]) = 6 ∧ frameHdrLen (listByte [0x81, 0x80, 1, 2, 3]) = 6 := by
  decide

/-- `LengthFormIsTheSmallest`, each clause at both ends of its range. -/
theorem witness_LengthFormIsTheSmallest :
    (125 : Word).toNat < 126 ∧ (126 ≤ (126 : Word).toNat ∧ (126 : Word).toNat < 65536) ∧
    (126 ≤ (65535 : Word).toNat ∧ (65535 : Word).toNat < 65536) ∧ 65536 ≤ (65536 : Word).toNat ∧
    65536 ≤ (0xFFFFFFFFFFFFFFFF : Word).toNat := by decide

/-- `LengthSerializerRoundTrip`: the largest inline selector. -/
theorem witness_LengthSerializerRoundTrip : (125 : BitVec 7).toNat ≤ 125 ∧ ¬ (126 : BitVec 7).toNat ≤ 125 := by decide

/-- `ParserUndoesPacker`. -/
theorem witness_ParserUndoesPacker : Config.params.opcWire.Distinct := by decide

/-- `MaskingXorsByteWise`: an index past the first key round. -/
theorem witness_MaskingXorsByteWise : 4 < hello.length := by decide

/-- `RaiseWritesCodeAndStickyOnly`: the lowest and the highest code, and a bit each must leave. -/
theorem witness_RaiseWritesCodeAndStickyOnly :
    Completion.capacity ≠ .ok ∧ Completion.badcmd ≠ .ok ∧ 3 ≤ 3 ∧ (3 : Nat) ≠ 8 + Completion.capacity.code.toNat := by
  decide

/-- `EncodeWritesTheFrame`: a window the frame fills exactly; a source that touches the frame; an empty payload. -/
theorem witness_EncodeWritesTheFrame :
    (encState 11).status.txab = false ∧ classOfCode (encState 11).eOpc = some .text ∧
    (encState 11).txBase.toNat + (encState 11).txCap.toNat ≤ (encState 11).params.memSize ∧
    (encState 11).txWptr.toNat + (encState 11).encFrameLen = (encState 11).txCap.toNat ∧
    ((encState 11).eSrc.toNat + (encState 11).eLen.toNat ≤ (encState 11).params.memSize ∧
      (encState 11).encDst + (encState 11).encFrameLen ≤ (encState 11).eSrc.toNat) ∧
    (overlapState 0x206).encDst + (overlapState 0x206).encFrameLen = (overlapState 0x206).eSrc.toNat ∧
    (({ overlapState 0x200 with eLen := 0 } : State).eLen.toNat = 0) := by decide

/-- `CapacityFailureEffects`: short by one byte; no room at all. -/
theorem witness_CapacityFailureEffects :
    ((encState 10).status.txab = false ∧ classOfCode (encState 10).eOpc = some .text ∧
      (encState 10).txBase.toNat + (encState 10).txCap.toNat ≤ (encState 10).params.memSize ∧
      (encState 10).txWptr.toNat ≤ (encState 10).txCap.toNat ∧
      (encState 10).txCap.toNat - (encState 10).txWptr.toNat + 1 =
        (encState 10).encHdrLen + (encState 10).eLen.toNat) ∧
    0 < min (encState 10).encHdrLen ((encState 10).txCap.toNat - (encState 10).txWptr.toNat) ∧
    (encState 0).txCap.toNat - (encState 0).txWptr.toNat < (encState 0).encHdrLen + (encState 0).eLen.toNat := by
  decide

/-- `EncodeChecksInOrder`, a state for each clause: V-ENC-24, V-ENC-26, V-ENC-27 and V-ENC-34, V-ENC-28, V-ENC-30. -/
theorem witness_EncodeChecksInOrder :
    (({ encState 11 with status := { Status.reset with txab := true } } : State).status.txab = true) ∧
    ((encState 11).status.txab = false ∧ 6 ≤ ({ encState 11 with eOpc := 6 } : State).eOpc.toNat) ∧
    (({ encState 11 with txBase := 0xFFFFF6 } : State).params.memSize <
      ({ encState 11 with txBase := 0xFFFFF6 } : State).txBase.toNat + (encState 11).txCap.toNat) ∧
    (({ encState 4 with txWptr := 5 } : State).txCap.toNat < ({ encState 4 with txWptr := 5 } : State).txWptr.toNat) ∧
    ((encState 64).eOpc.toNat < 6 ∧
      (encState 64).txBase.toNat + (encState 64).txCap.toNat ≤ (encState 64).params.memSize ∧
      (encState 64).txWptr.toNat + (encState 64).encFrameLen ≤ (encState 64).txCap.toNat ∧
      0 < (encState 64).eLen.toNat ∧ (encState 64).params.memSize <
        ({ encState 64 with eSrc := 0xFFFFFC } : State).eSrc.toNat + (encState 64).eLen.toNat) ∧
    ((overlapState 0x205).txWptr.toNat + (overlapState 0x205).encFrameLen ≤ (overlapState 0x205).txCap.toNat ∧
      0 < (overlapState 0x205).eLen.toNat ∧
      (overlapState 0x205).eSrc.toNat + (overlapState 0x205).eLen.toNat ≤ (overlapState 0x205).params.memSize ∧
      (overlapState 0x205).eSrc.toNat < (overlapState 0x205).encDst + (overlapState 0x205).encFrameLen ∧
      (overlapState 0x205).encDst < (overlapState 0x205).eSrc.toNat + (overlapState 0x205).eLen.toNat) := by decide

/-- `EncodeKeepsEarlierFrames`: a second frame, behind a first of 7 bytes. -/
theorem witness_EncodeKeepsEarlierFrames :
    ∃ t, exec .enc { encState 64 with txWptr := 7 } = .next t ∧ 0x1006 < ({ encState 64 with txWptr := 7 } : State).encDst :=
  ⟨_, rfl, by decide⟩

/-- `UnmaskedEncodeIgnoresTheKey`. -/
theorem witness_UnmaskedEncodeIgnoresTheKey :
    ∃ t, (overlapState 0x300).eMask = 0 ∧ exec .enc (overlapState 0x300) = .next t ∧ t.status.code = 0 :=
  ⟨_, by decide, rfl, by decide⟩

/-- `DecodeDeterminateOutputs`: each clause at the smallest valid length it speaks of. -/
theorem witness_DecodeDeterminateOutputs :
    ((rxState helloFrame 11).rxBase.toNat + (rxState helloFrame 11).rxValid.toNat ≤
      (rxState helloFrame 11).params.memSize) ∧
    1 ≤ (rxState helloFrame 1).rxValid.toNat ∧ 2 ≤ (rxState helloFrame 2).rxValid.toNat ∧
    2 + extOf (selOf ((rxState helloFrame 2).memRead 0x1001)) ≤ (rxState helloFrame 2).rxValid.toNat ∧
    (maskOf ((rxState helloFrame 6).memRead 0x1001) = 1 ∧
      hdrLen (selOf ((rxState helloFrame 6).memRead 0x1001)) 1 ≤ (rxState helloFrame 6).rxValid.toNat) ∧
    ((rxState helloFrame 11).decodeWindow []).status.cpl = true := by decide

/-- `DecodeUnmasksInPlace`: an incomplete attempt, an unmasked frame, a complete masked one. -/
theorem witness_DecodeUnmasksInPlace :
    (∃ t, exec .dec (rxState helloFrame 10) = .next t ∧ t.status.cpl = false) ∧
    (∃ t, exec .dec (rxState [0x81, 0x00] 2) = .next t ∧ t.dMask = 0) ∧
    (∃ t, exec .dec (rxState helloFrame 11) = .next t ∧ t.status.cpl = true ∧ t.dMask = 1 ∧ 4 < t.dLen.toNat) :=
  ⟨⟨_, rfl, by decide⟩, ⟨_, rfl, by decide⟩, ⟨_, rfl, by decide⟩⟩

/-- `ReceiveWindowError`: V-DEC-20, one byte past the end of `MEM`. -/
theorem witness_ReceiveWindowError :
    ({ State.reset with rxBase := 0xFFFFFF, rxValid := 2 } : State).params.memSize + 1 =
      ({ State.reset with rxBase := 0xFFFFFF, rxValid := 2 } : State).rxBase.toNat + 2 := by decide

/-- `DecodeNeverOverReads`: another memory with another byte behind the frame. -/
theorem witness_DecodeNeverOverReads :
    (∀ k, k < (rxState helloFrame 11).rxValid.toNat →
      Memory.read (Memory.store (rxState helloFrame 11).mem 0x100B 0x99) ((rxState helloFrame 11).rxBase.toNat + k) =
        (rxState helloFrame 11).memRead ((rxState helloFrame 11).rxBase.toNat + k)) ∧
    ∃ t, exec .dec (rxState helloFrame 11) = .next t :=
  ⟨by decide, _, rfl⟩

/-- `TruncatedFrameIsIncomplete`: short by one byte, with the header whole; and with the header cut. -/
theorem witness_TruncatedFrameIsIncomplete :
    ∃ t, exec .dec (rxState helloFrame 11) = .next t ∧ t.status.code = 0 ∧ t.status.cpl = true ∧
      (10 : Word).toNat < t.dFlen.toNat ∧ t.dHlen.toNat ≤ (6 : Word).toNat ∧ (5 : Word).toNat < t.dHlen.toNat ∧
      t.dMask = 1 :=
  ⟨_, rfl, by decide⟩

/-- `DecodingTwiceRestoresTheBytes`: V-DEC-1, then V-DEC-19. -/
theorem witness_DecodingTwiceRestoresTheBytes :
    ∃ t, exec .dec (rxState helloFrame 11) = .next t ∧ t.status.code = 0 ∧ t.status.cpl = true ∧ t.dMask = 1 :=
  ⟨_, rfl, by decide⟩

/-- `EncodeThenDecodeRoundTrip`: V-ENC-1, with exactly the frame valid. -/
theorem witness_EncodeThenDecodeRoundTrip :
    ∃ t, (encState 11).params.Valid ∧ exec .enc (encState 11) = .next t ∧ t.status.code = 0 ∧
      t.eFlen.toNat = (11 : Word).toNat ∧
      (encState 11).encDst + (11 : Word).toNat ≤ (encState 11).params.memSize ∧ (encState 11).eMask = 1 :=
  ⟨_, by decide, rfl, by decide⟩

/-- `HeaderRowsSetTheDecodeRegisters`: the shortest and the longest header in windows of just their length. -/
theorem witness_HeaderRowsSetTheDecodeRegisters :
    ((rxState [] 2).rxBase.toNat + (rxState [] 2).rxValid.toNat ≤ (rxState [] 2).params.memSize ∧
      (Instr.f7u 1 0 1 125).WellFormed ∧ 2 ≤ (rxState [] 2).rxValid.toNat) ∧
    ((rxState [] 14).rxBase.toNat + (rxState [] 14).rxValid.toNat ≤ (rxState [] 14).params.memSize ∧
      (Instr.f64m 1 0 1 0 7).WellFormed ∧ 14 ≤ (rxState [] 14).rxValid.toNat ∧
      ((rxState [] 14).meetFrame (.f64m 1 0 1 0 7)).status.cpl = true) := by decide

/-- `HeaderRowsCutByTheWindow`: a byte short of the shortest and of the longest header; a length whose extension is
whole, and one whose extension lacks a byte. -/
theorem witness_HeaderRowsCutByTheWindow :
    ((rxState [] 13).rxBase.toNat + (rxState [] 13).rxValid.toNat ≤ (rxState [] 13).params.memSize ∧
      (Instr.f7u 1 0 1 125).WellFormed ∧ 1 ≤ (rxState [] 1).rxValid.toNat ∧ (rxState [] 1).rxValid.toNat < 2) ∧
    ((Instr.f7m 1 0 1 125 7).WellFormed ∧ 2 + 0 ≤ (rxState [] 5).rxValid.toNat ∧ (rxState [] 5).rxValid.toNat < 6) ∧
    ((Instr.f64m 1 0 1 0 7).WellFormed ∧ 2 + 8 ≤ (rxState [] 13).rxValid.toNat ∧
      (rxState [] 13).rxValid.toNat < 14 ∧ 2 ≤ (rxState [] 9).rxValid.toNat ∧
      ¬ 2 + 8 ≤ (rxState [] 9).rxValid.toNat) := by decide

/-- `OpcodeRowsSetFinAndClass`: one valid byte. -/
theorem witness_OpcodeRowsSetFinAndClass :
    (rxState [] 1).params.opcWire.Distinct ∧
    (rxState [] 1).rxBase.toNat + (rxState [] 1).rxValid.toNat ≤ (rxState [] 1).params.memSize ∧
    1 ≤ (rxState [] 1).rxValid.toNat := by decide

/-- `DecRunsTheFrameRowInTheWindow`. -/
theorem witness_DecRunsTheFrameRowInTheWindow :
    (rxState [0x81, 0x05] 2).readBytes (rxState [0x81, 0x05] 2).rxBase.toNat
        (frameBytes (rxState [0x81, 0x05] 2).params.opcWire (.f7u 1 0 1 5)).length =
      frameBytes (rxState [0x81, 0x05] 2).params.opcWire (.f7u 1 0 1 5) ∧
    commandWord (.f7u 1 0 1 5) = none := by decide

/-- `FrameRowsFrame`: a window outside `MEM`, and one that ends where `MEM` does. -/
theorem witness_FrameRowsFrame :
    commandWord (.opcText 1 0) = none ∧
    ({ State.reset with rxBase := 0xFFFFFF, rxValid := 2 } : State).params.memSize < 0xFFFFFF + 2 ∧
    (0xFFFFFF + ({ State.reset with rxBase := 0xFFFFFF, rxValid := 1 } : State).rxValid.toNat ≤
      State.reset.params.memSize) ∧
    ((rxState [0x81, 0x80, 1, 2, 3, 4] 6).meetFrame (.f7m 1 0 1 0 7)).status.cpl = true ∧
    ((rxState [0x81, 0x80, 1, 2, 3, 4] 6).meetFrame (.f7m 1 0 1 0 7)).dMask = 1 := by decide

/-- `AssembleConsumesWholeFrames`: V-ASM-4; and a whole masked frame with a payload before a partial one. -/
theorem witness_AssembleConsumesWholeFrames :
    (rxState streamBytes 15).rxBase.toNat + (rxState streamBytes 15).rxValid.toNat ≤
      (rxState streamBytes 15).params.memSize ∧
    (rxState streamBytes 15).readBytes (rxState streamBytes 15).rxBase.toNat (rxState streamBytes 15).rxValid.toNat =
      [[0x02, 0x03, 0xDE, 0xAD, 0xBE], [0x89, 0x80, 0x37, 0xFA, 0x21, 0x3D]].flatten ++ [0x81, 0x85, 0x37, 0xFA] ∧
    (∀ bs ∈ ([[0x02, 0x03, 0xDE, 0xAD, 0xBE], [0x89, 0x80, 0x37, 0xFA, 0x21, 0x3D]] : List (List Byte)),
      isWholeFrame bs = true) ∧
    isPartialFrame [0x81, 0x85, 0x37, 0xFA] = true ∧
    ((rxState (helloFrame ++ helloFrame) 21).readBytes 0x1000 21 = [helloFrame].flatten ++ helloFrame.take 10 ∧
      isWholeFrame helloFrame = true ∧ maskOf 0x85 = 1 ∧ isPartialFrame (helloFrame.take 10) = true) := by decide

/-- `AssembleBoundsAndFrame`, with a window that ends where `MEM` does. -/
theorem witness_AssembleBoundsAndFrame :
    ({ State.reset with rxBase := 0xFFFFFF, rxValid := 1 } : State).rxBase.toNat + 1 = State.reset.params.memSize := by
  decide

/-- `AssembleOfNoFrame`: V-DEC-6's window, and V-DEC-1's. -/
theorem witness_AssembleOfNoFrame :
    ((rxState helloFrame 10).rxBase.toNat + (rxState helloFrame 10).rxValid.toNat ≤
      (rxState helloFrame 10).params.memSize) ∧
    (∃ t, exec .dec (rxState helloFrame 10) = .next t ∧ t.status.cpl = false) ∧
    (∃ t, exec .dec (rxState helloFrame 11) = .next t ∧ t.status.cpl = true) :=
  ⟨by decide, ⟨_, rfl, by decide⟩, ⟨_, rfl, by decide⟩⟩

/-- `AssembleInTwoPolls`: V-ASM-4's window with its first 7 bytes valid, then all. -/
theorem witness_AssembleInTwoPolls :
    (rxState streamBytes 15).params.Valid ∧
    (rxState streamBytes 15).rxBase.toNat + (rxState streamBytes 15).rxValid.toNat ≤
      (rxState streamBytes 15).params.memSize ∧
    (7 : Word).toNat ≤ (rxState streamBytes 15).rxValid.toNat ∧
    ∃ t u, exec .asm { rxState streamBytes 15 with rxValid := 7 } = .next t ∧ t.aConsumed = 5 ∧
      exec .asm { t with
        rxBase := (rxState streamBytes 15).rxBase + t.aConsumed
        rxValid := (rxState streamBytes 15).rxValid - t.aConsumed } = .next u ∧ u.aConsumed = 6 :=
  ⟨by decide, by decide, by decide, _, _, rfl, by decide, rfl, by decide⟩

/-- `MaskCommandXorsTheRegion`: the spec's example, and an empty region anywhere. -/
theorem witness_MaskCommandXorsTheRegion :
    mskState.eSrc.toNat + mskState.eLen.toNat ≤ mskState.params.memSize ∧ 6 < mskState.eLen.toNat ∧
    ({ mskState with eSrc := 0xFFFFFFFFFFFFFFFF, eLen := 0 } : State).eLen.toNat = 0 := by decide

/-- `MaskCommandWindowError`: one byte past the end of `MEM`. -/
theorem witness_MaskCommandWindowError :
    0 < ({ mskState with eSrc := 0xFFFFFA } : State).eLen.toNat ∧
    mskState.params.memSize + 1 = ({ mskState with eSrc := 0xFFFFFA } : State).eSrc.toNat + mskState.eLen.toNat := by
  decide

/-- `MaskCommandTwiceRestores`. -/
theorem witness_MaskCommandTwiceRestores :
    ∃ t u, exec .msk mskState = .next t ∧ exec .msk t = .next u ∧ t.memRead 0x100 = 0xAA ∧ u.memRead 0x100 = 0 :=
  ⟨_, _, rfl, rfl, by decide⟩

/-- `HostWriteStoresTheLowBits`: an `RW` register, an `RO` one and a reserved slot. -/
theorem witness_HostWriteStoresTheLowBits :
    ({ State.reset with pending := [.wr Reg.eOpc.slot 0xFF] } : State).pending = .wr Reg.eOpc.slot 0xFF :: [] ∧
    Reg.eOpc.slot ≠ 0 ∧ Reg.eOpc.access = .readWrite ∧ Reg.txWptr.slot ≠ Reg.eOpc.slot ∧
    (∀ r ∈ Reg.all, r.slot = Reg.dLen.slot → r.access ≠ .readWrite) ∧
    (∀ r ∈ Reg.all, r.slot = 25 → r.access ≠ .readWrite) ∧
    Reg.txBase.slot = 2 ∧ Reg.rxValid.slot = 15 ∧
    (16 : BitVec 5) ∉ [(2 : BitVec 5), 3, 6, 7, 8, 9, 10, 11, 14, 15] := by decide

/-- `HostReadReturnsTheRegister`: `CMD`, and the first and last reserved slots. -/
theorem witness_HostReadReturnsTheRegister :
    ({ State.reset with pending := [.rd 25] } : State).pending = .rd 25 :: [] ∧ 25 ≤ (25 : BitVec 5).toNat ∧
    25 ≤ (31 : BitVec 5).toNat ∧ (0 : BitVec 5) = 0 := by decide

/-- `HostMemoryAccess`: the last address that exists, and the first that does not. -/
theorem witness_HostMemoryAccess :
    ({ State.reset with pending := [.st8 0xFFFFFF 1] } : State).pending = .st8 0xFFFFFF 1 :: [] ∧
    ({ State.reset with pending := [.ld8 0xFFFFFF] } : State).pending = .ld8 0xFFFFFF :: [] ∧
    0xFFFFFF < State.reset.params.memSize ∧ State.reset.params.memSize ≤ 0x1000000 := by decide

/-- `StepRunsTheDecodedCommand`: no host step to come, a command, and a word that is none. -/
theorem witness_StepRunsTheDecodedCommand :
    State.reset.pending = [] ∧
    ({ State.reset with pending := [.wr 0 0x10] } : State).pending = .wr 0 0x10 :: [] ∧
    decodeCommand ((0x10 : Word).setWidth 32) = .ok .enc ∧
    (∀ i, decodeCommand ((0x11 : Word).setWidth 32) ≠ .ok i) :=
  ⟨rfl, rfl, rfl, fun i h => by
    have e : decodeCommand ((0x11 : Word).setWidth 32) = .error .undefinedCommand := rfl
    rw [e] at h
    cases h⟩

/-- `PlacedWordIsRunByTheNextStep`: a command and a frame row. -/
theorem witness_PlacedWordIsRunByTheNextStep :
    commandWord .asm ≠ none ∧ commandWord (.f16u 1 0 2 500) = none := by decide

/-- `CommandsLeaveOperandRegisters`. -/
theorem witness_CommandsLeaveOperandRegisters :
    ∃ t, Instr.enc ≠ .srst ∧ exec .enc (encState 11) = .next t ∧ Reg.eKey.access = .readWrite :=
  ⟨_, by decide, rfl, by decide⟩

/-- `StickyAndAbandonedPersist`: an `ENC` on an abandoned buffer. -/
theorem witness_StickyAndAbandonedPersist :
    ∃ t, exec .enc { encState 11 with status := { Status.reset with txab := true, sticky := 1 } } = .next t ∧
      Instr.enc ≠ .srst ∧ Instr.enc ≠ .txinit ∧ t.status.sticky = 0b0010001 :=
  ⟨_, rfl, by decide⟩

/-- `EventsAreOnlyAppended`: a step that appends two events, and an instruction that appends none. -/
theorem witness_EventsAreOnlyAppended :
    (∃ t, step { rxState streamBytes 15 with pending := [.wr 0 0x21] } = .next t ∧ t.hnd.length = 2) ∧
    (∃ t, Instr.dec ≠ .asm ∧ exec .dec (rxState helloFrame 11) = .next t) :=
  ⟨⟨_, rfl, by decide⟩, ⟨_, by decide, rfl⟩⟩

/-- `ParametersNeverChange`: a step that goes on and one that faults. -/
theorem witness_ParametersNeverChange :
    (∃ t, step { State.reset with pending := [.hardReset] } = .next t) ∧
    step { State.reset with pending := [.ld8 0x1000000] } = .fault .hostAddress :=
  ⟨⟨_, rfl⟩, rfl⟩

/-- `EveryStepKeepsTheInvariant`: a state on the way, with memory, results and an event of its own. -/
theorem witness_EveryStepKeepsTheInvariant :
    ∃ t, Inv { rxState helloFrame 11 with
        hnd := [{ cls := 6, addr := 0, len := 0 }], eHlen := 6, eFlen := 11, pending := [.wr 0 0x21] } ∧
      step { rxState helloFrame 11 with
        hnd := [{ cls := 6, addr := 0, len := 0 }], eHlen := 6, eFlen := 11, pending := [.wr 0 0x21] } = .next t :=
  ⟨_, by decide, rfl⟩

end Sys2Proof.Tests
end

namespace Sys2Proof.Machine

/-! ### The parameters under the shared operations (10_state R47) -/

@[simp] theorem State.writeReg_params (s : State) (r : Reg) (v : Word) : (s.writeReg r v).params = s.params := by
  cases r <;> rfl

@[simp] theorem State.decodeWindow_params (s : State) (given : List Byte) :
    (s.decodeWindow given).params = s.params := by
  unfold State.decodeWindow
  split <;> simp

@[simp] theorem assembleLoop_params (base v fuel cur : Nat) (s : State) :
    (assembleLoop base v fuel cur s).1.params = s.params := by
  induction fuel generalizing cur s with
  | zero => rfl
  | succ fuel ih =>
    simp only [assembleLoop]
    split
    · rw [ih, State.emit_params, State.decodeAt_params]
    · exact State.decodeAt_params ..

/-! ### Every command answers a next state, with the same parameters (60_exceptions R143) -/

theorem execEnc_next_params (s : State) : ∃ t, execEnc s = .next t ∧ t.params = s.params := by
  obtain ⟨e, -, h⟩ | ⟨-, -, -, h⟩ | ⟨c, -, -, -, -, -, -, h⟩ := execEnc_cases s <;>
    exact ⟨_, h, by simp⟩

theorem execAsm_next_params (s : State) : ∃ t, execAsm s = .next t ∧ t.params = s.params := by
  rcases Nat.lt_or_ge s.params.memSize (s.rxBase.toNat + s.rxValid.toNat) with h | h
  · exact ⟨_, execAsm_out s h, by simp⟩
  · exact ⟨_, execAsm_in s h, by simp⟩

theorem execMsk_next_params (s : State) : ∃ t, execMsk s = .next t ∧ t.params = s.params := by
  unfold execMsk
  split <;> exact ⟨_, rfl, by simp⟩

theorem exec_next_params (i : Instr) (s : State) : ∃ t, exec i s = .next t ∧ t.params = s.params := by
  obtain ⟨-, h⟩ | ⟨-, h⟩ | ⟨-, h⟩ | ⟨-, h⟩ | ⟨-, h⟩ | ⟨-, h⟩ | ⟨given, -, h⟩ := exec_cases i s
  · exact ⟨_, h, by simp⟩
  · exact ⟨_, h, by simp⟩
  · exact ⟨_, h, by simp⟩
  · exact h ▸ execEnc_next_params s
  · exact h ▸ execAsm_next_params s
  · exact h ▸ execMsk_next_params s
  · exact ⟨_, h, by simp⟩

/-! ### Host steps and steps: what keeps the parameters, and what faults (44_control R140 to R142) -/

theorem hostStep_params {op : HostOp} {s t : State} (h : hostStep op s = .next t) : t.params = s.params := by
  obtain ⟨i, h⟩ | ⟨c, rfl, -⟩ | ⟨r, v, rfl⟩ | rfl | ⟨e, rfl⟩ | ⟨a, b, -, rfl⟩ | rfl := hostStep_cases h
  case inl =>
    obtain ⟨t', h', hp⟩ := exec_next_params i s
    cases h'.symm.trans h
    exact hp
  all_goals simp

theorem step_params {s t : State} (h : step s = .next t) : t.params = s.params := by
  obtain ⟨-, rfl⟩ | ⟨op, rest, -, h⟩ := step_cases h
  · rfl
  · exact (hostStep_params h :)

/-- A register write never stops the machine: a command word runs to a completion code, an undefined one too. -/
theorem hostWrite_completes (slot : BitVec 5) (v : Word) (s : State) : ∃ t, hostWrite slot v s = .next t := by
  unfold hostWrite
  split
  · unfold runCommand
    split
    · exact (exec_next_params _ s).imp fun _ h => h.1
    · exact ⟨_, rfl⟩
  · exact ⟨_, rfl⟩
  · exact ⟨_, rfl⟩

/-- The only host steps that fault are memory accesses at an address that does not exist (log entry 7). -/
theorem hostStep_fault {op : HostOp} {s : State} {r : Fault} (h : hostStep op s = .fault r) :
    ∃ a, s.params.memSize ≤ a ∧ ((∃ b, op = .st8 a b) ∨ op = .ld8 a) := by
  cases op with
  | wr slot v =>
    obtain ⟨t, ht⟩ := hostWrite_completes slot v s
    cases ht.symm.trans h
  | rd slot => cases h
  | st8 a b =>
    simp only [hostStep] at h
    split at h
    · cases h
    · exact ⟨a, by omega, .inl ⟨b, rfl⟩⟩
  | ld8 a =>
    simp only [hostStep] at h
    split at h
    · cases h
    · exact ⟨a, by omega, .inr rfl⟩
  | hardReset => cases h

theorem step_fault {s : State} {r : Fault} (h : step s = .fault r) :
    ∃ op rest, s.pending = op :: rest ∧ hostStep op { s with pending := rest } = .fault r := by
  unfold step at h
  split at h
  · cases h
  · exact ⟨_, _, by assumption, h⟩

/-- Settles O51: every operation a step comes down to keeps the parameters, and every host step but `ST8` and `LD8`
answers a next state. -/
theorem parametersNeverChange : Obligations.ParametersNeverChange := by
  refine ⟨fun _ _ => step_params, fun s r h => ?_⟩
  obtain ⟨op, rest, hp, h⟩ := step_fault h
  obtain ⟨a, ha, hop⟩ := hostStep_fault h
  exact ⟨a, ha, by simpa [hp] using hop⟩

end Sys2Proof.Machine

namespace Sys2Proof.Machine

/-! ### The parts a command's work is made of (60_exceptions R143: a command runs to a completion code) -/

/-- One part of the work of instruction `i`. The invariants below are each proved once for every part, and
`exec_keeps` carries them to whole instructions. -/
inductive CommandPart (i : Instr) : State → State → Prop
  | finish (s : State) (c : Completion) (hc : c ≠ .malformed) : CommandPart i s (s.finish c)
  | clearRegisters (s : State) (hi : i = .srst) : CommandPart i s s.clearRegisters
  | rewind (s : State) (hi : i = .txinit) :
    CommandPart i s { s with txWptr := 0#64, status := { s.status with txab := false } }
  | capacity (s : State) (hw : s.encWindowOk = true) :
    CommandPart i s (s.capacityFailure.finish .capacity)
  | writeFrame (s : State) (c : OpClass) (hw : s.encWindowOk = true) (hfit : s.encFrameLen ≤ s.encRem) :
    CommandPart i s (s.writeFrame c)
  | maskRegion (s : State) (key : BitVec 32) (a n : Nat) (h : a + n ≤ s.params.memSize) :
    CommandPart i s (s.maskRegion key a n)
  | clearDecodeFlags (s : State) : CommandPart i s s.clearDecodeFlags
  | decodeAt (s : State) (given : List Byte) (a n : Nat) (h : a + n ≤ s.params.memSize) (hn : n < 2 ^ 64) :
    CommandPart i s (s.decodeAt given a n)
  | emit (s : State) (hi : i = .asm) (hc : s.status.cpl = true) : CommandPart i s (s.emit s.frameEvent)
  | setConsumed (s : State) (v : Word) : CommandPart i s { s with aConsumed := v }

/-- The work of an instruction: its parts one after another. -/
abbrev CommandWork (i : Instr) : State → State → Prop := Relation.ReflTransGen (CommandPart i)

/-- A last part, and then the completion code. -/
theorem CommandPart.finished {i : Instr} {s t : State} (h : CommandPart i s t) {c : Completion}
    (hc : c ≠ .malformed) : CommandWork i s (t.finish c) :=
  .tail (.single h) (.finish _ _ hc)

theorem execEnc_work (s : State) : ∃ t, execEnc s = .next t ∧ CommandWork .enc s t := by
  obtain ⟨e, he, h⟩ | ⟨-, hw, -, h⟩ | ⟨c, -, -, hw, hfit, -, -, h⟩ := execEnc_cases s
  · exact ⟨_, h, .single (.finish _ _ fun hm => by simp [hm] at he)⟩
  · exact ⟨_, h, .single (.capacity _ hw)⟩
  · exact ⟨_, h, (CommandPart.writeFrame _ c hw hfit).finished (by decide)⟩

/-- Every turn of the loop of `ASM` is an attempt inside the window and, when it is complete, an event. -/
theorem assembleLoop_work {s : State} (h : s.rxBase.toNat + s.rxValid.toNat ≤ s.params.memSize) :
    CommandWork .asm s (assembleLoop s.rxBase.toNat s.rxValid.toNat (s.rxValid.toNat / 2 + 1) 0 s).1 := by
  have hv := s.rxValid.isLt
  have attempt : ∀ {cur u}, cur ≤ s.rxValid.toNat → CommandWork .asm s u ∧ u.params = s.params →
      CommandWork .asm s (u.decodeAt [] (s.rxBase.toNat + cur) (s.rxValid.toNat - cur)) :=
    fun hcur hu => hu.1.tail (.decodeAt _ _ _ _ (by rw [hu.2]; omega) (by omega))
  obtain ⟨cur, u, hu, hcur, -, hloop⟩ := assembleLoop_ends hv
    (fun _ u => CommandWork .asm s u ∧ u.params = s.params)
    (fun cur u hu hcur hc _ _ => ⟨(attempt hcur hu).tail (.emit _ rfl hc), by simp [hu.2]⟩)
    (s.rxValid.toNat / 2 + 1) 0 s (by omega) (by omega) ⟨.refl, rfl⟩
  rw [hloop]
  exact attempt hcur hu

theorem execAsm_work (s : State) : ∃ t, execAsm s = .next t ∧ CommandWork .asm s t := by
  rcases Nat.lt_or_ge s.params.memSize (s.rxBase.toNat + s.rxValid.toNat) with h | h
  · exact ⟨_, execAsm_out s h, (CommandPart.clearDecodeFlags s).finished (by decide)⟩
  · exact ⟨_, execAsm_in s h, .tail (.tail (assembleLoop_work h) (.setConsumed _ _)) (.finish _ _ (by decide))⟩

theorem execMsk_work (s : State) : ∃ t, execMsk s = .next t ∧ CommandWork .msk s t := by
  by_cases h0 : s.eLen.toNat = 0
  · refine ⟨_, execMsk_in s (.inl h0), ?_⟩
    rw [h0]
    exact .single (.finish s _ (by decide))
  · rcases Nat.lt_or_ge s.params.memSize (s.eSrc.toNat + s.eLen.toNat) with h | h
    · exact ⟨_, execMsk_out s (by omega) h, .single (.finish _ _ (by decide))⟩
    · exact ⟨_, execMsk_in s (.inr h), (CommandPart.maskRegion _ _ _ _ h).finished (by decide)⟩

theorem State.decodeWindow_work (i : Instr) (s : State) (given : List Byte) :
    CommandWork i s (s.decodeWindow given) := by
  rcases Nat.lt_or_ge s.params.memSize (s.rxBase.toNat + s.rxValid.toNat) with h | h
  · rw [s.decodeWindow_out given h]
    exact (CommandPart.clearDecodeFlags s).finished (by decide)
  · rw [s.decodeWindow_in given h]
    exact (CommandPart.decodeAt s given _ _ h s.rxValid.isLt).finished (by decide)

/-- What every instruction does is work made of the parts. -/
theorem exec_work (i : Instr) (s : State) : ∃ t, exec i s = .next t ∧ CommandWork i s t := by
  obtain ⟨-, h⟩ | ⟨hi, h⟩ | ⟨hi, h⟩ | ⟨rfl, h⟩ | ⟨rfl, h⟩ | ⟨rfl, h⟩ | ⟨given, -, h⟩ := exec_cases i s
  · exact ⟨_, h, .single (.finish _ _ (by decide))⟩
  · exact ⟨_, h, (CommandPart.clearRegisters s hi).finished (by decide)⟩
  · exact ⟨_, h, (CommandPart.rewind s hi).finished (by decide)⟩
  · exact h ▸ execEnc_work s
  · exact h ▸ execAsm_work s
  · exact h ▸ execMsk_work s
  · exact ⟨_, h, s.decodeWindow_work i given⟩

/-- The induction over a command's work: what every part keeps, the instruction keeps. -/
theorem exec_keeps {Q : State → Prop} {i : Instr} (part : ∀ s t, CommandPart i s t → Q s → Q t)
    {s t : State} (h : exec i s = .next t) (hs : Q s) : Q t := by
  obtain ⟨u, hu, hw⟩ := exec_work i s
  cases hu.symm.trans h
  clear h hu
  induction hw with
  | refl => exact hs
  | tail _ hp ih => exact part _ _ hp ih

/-! ### What every part of a command keeps -/

/-- What the `RW` registers read as (10_state R15). -/
def State.operands (s : State) : List Word :=
  [.txBase, .txCap, .eFin, .eOpc, .eMask, .eKey, .eLen, .eSrc, .rxBase, .rxValid].map s.readReg

theorem State.readReg_of_operands {s t : State} (h : t.operands = s.operands) {r : Reg}
    (hr : r.access = .readWrite) : t.readReg r = s.readReg r := by
  refine List.map_inj_left.1 h r ?_
  revert hr
  cases r <;> decide

theorem CommandPart.operands_eq {i : Instr} {s t : State} (hi : i ≠ .srst) (h : CommandPart i s t) :
    t.operands = s.operands := by
  cases h with
  | clearRegisters hs => exact absurd hs hi
  | decodeAt given a n => rw [State.decodeAt_eq]; rfl
  | _ => simp [State.operands, State.readReg]

theorem CommandPart.hnd_eq {i : Instr} {s t : State} (hi : i ≠ .asm) (h : CommandPart i s t) : t.hnd = s.hnd := by
  cases h with
  | emit hs => exact absurd hs hi
  | decodeAt given a n => simp
  | _ => rfl

theorem CommandPart.hnd_append {i : Instr} {s t : State} (h : CommandPart i s t) :
    ∃ es, t.hnd = s.hnd ++ es := by
  cases h with
  | emit => exact ⟨_, rfl⟩
  | decodeAt given a n => exact ⟨[], by simp⟩
  | _ => exact ⟨[], (List.append_nil _).symm⟩

theorem CommandPart.sticky_or {i : Instr} {s t : State} (hi : i ≠ .srst) (h : CommandPart i s t) :
    ∃ b, t.status.sticky = s.status.sticky ||| b := by
  cases h with
  | finish c => exact ⟨_, rfl⟩
  | capacity => exact ⟨_, rfl⟩
  | clearRegisters hs => exact absurd hs hi
  | decodeAt given a n => exact ⟨0#7, by simp⟩
  | _ => exact ⟨0#7, BitVec.or_zero.symm⟩

theorem CommandPart.txab_of_txab {i : Instr} {s t : State} (hi : i ≠ .srst) (hi' : i ≠ .txinit)
    (h : CommandPart i s t) (hs : s.status.txab = true) : t.status.txab = true := by
  cases h with
  | clearRegisters h => exact absurd h hi
  | rewind h => exact absurd h hi'
  | capacity => rfl
  | decodeAt given a n => simpa using hs
  | _ => exact hs

/-- Settles O48: no part of a command but the clearing of the registers writes an operand register. -/
theorem commandsLeaveOperandRegisters : Obligations.CommandsLeaveOperandRegisters := by
  intro i s t hi h r hr
  exact State.readReg_of_operands (exec_keeps (Q := fun u => u.operands = s.operands)
    (fun _ _ hp hu => (hp.operands_eq hi).trans hu) h rfl) hr

/-- Settles O49: a part of a command only sets `STICKY` bits, and only the rewinding of the cursor clears `TXAB`. -/
theorem stickyAndAbandonedPersist : Obligations.StickyAndAbandonedPersist := by
  intro i s t h hi
  refine ⟨?_, fun hi' => exec_keeps (fun _ _ hp => hp.txab_of_txab hi hi') h⟩
  refine exec_keeps (Q := fun u => u.status.sticky ||| s.status.sticky = u.status.sticky) ?_ h (by simp)
  intro u v hp hu
  obtain ⟨b, hb⟩ := hp.sticky_or hi
  rw [hb, BitVec.or_assoc, BitVec.or_comm b, ← BitVec.or_assoc, hu]

/-! ### Handler events (10_state R44) -/

theorem exec_hnd_append {i : Instr} {s t : State} (h : exec i s = .next t) : ∃ es, t.hnd = s.hnd ++ es := by
  refine exec_keeps (Q := fun u => ∃ es, u.hnd = s.hnd ++ es) ?_ h ⟨[], by simp⟩
  rintro u v hp ⟨es, hu⟩
  obtain ⟨es', hv⟩ := hp.hnd_append
  exact ⟨es ++ es', by rw [hv, hu, List.append_assoc]⟩

@[simp] theorem State.writeReg_hnd (s : State) (r : Reg) (v : Word) : (s.writeReg r v).hnd = s.hnd := by
  cases r <;> rfl

theorem hostStep_hnd_append {op : HostOp} {s t : State} (h : hostStep op s = .next t) :
    ∃ es, t.hnd = s.hnd ++ es := by
  obtain ⟨i, h⟩ | ⟨c, rfl, -⟩ | ⟨r, v, rfl⟩ | rfl | ⟨e, rfl⟩ | ⟨a, b, -, rfl⟩ | rfl := hostStep_cases h
  case inl => exact exec_hnd_append h
  all_goals exact ⟨[], by simp⟩

/-- Settles O50: of the parts of commands only the event of `ASM` touches `HND`, and it appends; no host step does. -/
theorem eventsAreOnlyAppended : Obligations.EventsAreOnlyAppended := by
  refine ⟨fun s t h => ?_, fun i s t hi h => ?_⟩
  · obtain ⟨-, rfl⟩ | ⟨op, rest, -, h⟩ := step_cases h
    · exact ⟨[], by simp⟩
    · exact (hostStep_hnd_append h :)
  · exact exec_keeps (Q := fun u => u.hnd = s.hnd) (fun _ _ hp hu => (hp.hnd_eq hi).trans hu) h rfl

/-! ### The invariant under every part of a command and every host step -/

/-- A run of bytes stored inside `MEM` leaves a memory that is canonical and inside `MEM`. -/
theorem MemoryOk.storeBytes {s t : State} (h : MemoryOk s) {a : Nat} {bs : List Byte}
    (hp : t.params = s.params) (hm : t.mem = Memory.storeBytes s.mem a bs)
    (hb : a + bs.length ≤ s.params.memSize) : MemoryOk t := by
  obtain ⟨hwf, hlt⟩ := h
  unfold MemoryOk
  rw [hp, hm]
  exact ⟨Memory.wf_storeBytes _ _ hwf, Memory.storeBytes_below hlt hb⟩

theorem MemoryOk.decodeAt {s : State} (h : MemoryOk s) (given : List Byte) {a n : Nat}
    (hin : a + n ≤ s.params.memSize) : MemoryOk (s.decodeAt given a n) := by
  obtain ⟨hwf, hlt⟩ := h
  refine ⟨s.wf_decodeAt given a n hwf, ?_⟩
  rw [State.decodeAt_params]
  exact s.range_decodeAt given hlt hin

/-- Bits of the completion codes (60_exceptions R144): the reserved code's bit is bit 1, code `k` sets bit `k - 1`. -/
theorem Completion.code_bits {c : Completion} (hc : c ≠ .malformed) :
    (c.code ≠ 2#3 ∧ c.stickyBit.getLsbD 1 = false) ∧
      (c.code ≠ 0#3 → c.stickyBit.getLsbD (c.code.toNat - 1) = true) := by
  revert hc
  cases c <;> decide

/-- Any completion code but the reserved one leaves its own `STICKY` bit set and bit 1 of the field clear. -/
theorem StatusOk.finish {st : Status} (h : StatusOk st) {c : Completion} (hc : c ≠ .malformed) :
    StatusOk (st.finish c) := by
  obtain ⟨hcpl, ⟨-, hmal⟩, -, htx⟩ := h
  obtain ⟨⟨hcode, hbit⟩, hown⟩ := Completion.code_bits hc
  unfold StatusOk
  rw [Status.finish_code, Status.finish_sticky]
  simp only [BitVec.getLsbD_or, hmal, hbit]
  exact ⟨hcpl, ⟨hcode, rfl⟩, fun h0 => by rw [hown h0, Bool.or_true], fun ht => by rw [htx ht, Bool.true_or]⟩

/-- A capacity failure records the bit that `TXAB` is explained by. -/
theorem StatusOk.capacity {st : Status} (h : StatusOk st) :
    StatusOk ({ st with txab := true }.finish .capacity) := by
  obtain ⟨hcpl, hmal, hcode, -⟩ := h.finish (c := .capacity) (by decide)
  exact ⟨hcpl, hmal, hcode, fun _ => hcode (by simp [Completion.code])⟩

theorem StatusOk.decodeAt {s : State} (h : StatusOk s.status) (given : List Byte) (a n : Nat) :
    StatusOk (s.decodeAt given a n).status := by
  obtain ⟨-, hcode⟩ := h
  rw [State.decodeAt_status]
  refine ⟨fun hc => ?_, hcode⟩
  obtain ⟨h2, hH, -⟩ := (frameComplete_iff _ _ _).1 hc
  exact (headerValid_iff _ _).2 ⟨h2, hH⟩

/-- The header fields an attempt makes determinate when the header is whole (42_decode R111). -/
theorem attempt_of_headerValid {wire : OpcWire} {f : Nat → Byte} {a n d : Nat}
    (h : headerValid n (frameHdrLen f) = true) :
    (attempt wire f a n d).hlen.toNat = frameHdrLen f ∧
      (attempt wire f a n d).opc = classOf wire (opcOf (f 0)) := by
  have hb := frameHdrLen_bounds f
  obtain ⟨h2, -⟩ := (headerValid_iff _ _).1 h
  simp only [attempt, if_pos h2, if_pos (show 1 ≤ n by omega), BitVec.toNat_ofNat, and_true]
  omega

theorem ResultsOk.decodeAt {s : State} (h : ResultsOk s) (given : List Byte) {a n : Nat} (hn : n < 2 ^ 64) :
    ResultsOk (s.decodeAt given a n) := by
  obtain ⟨hE, hF, -, -⟩ := h
  unfold ResultsOk
  rw [State.decodeAt_status]
  refine ⟨?_, ?_, fun hv => ?_, fun hc => ?_⟩
  · rw [State.decodeAt_eq]; exact hE
  · rw [State.decodeAt_eq]; exact hF
  · obtain ⟨hlen, hopc⟩ := attempt_of_headerValid (wire := s.params.opcWire) (a := a) (d := s.draws) hv
    rw [State.decodeAt_dHlen, State.decodeAt_dOpc, hlen, hopc]
    exact ⟨hdrLen_mem _ _, classOf_ne_seven _ _⟩
  · obtain ⟨-, -, -, hhlen, hlen, -, hflen, -⟩ :=
      attempt_of_complete (wire := s.params.opcWire) (a := a) (d := s.draws) hc hn
    rw [State.decodeAt_dFlen, State.decodeAt_dHlen, State.decodeAt_dLen, hflen, hhlen, hlen]

/-- A frame that fits gives a header length, and a frame length that is not below it (10_state R28, R29). -/
theorem ResultsOk.writeFrame {s : State} (h : ResultsOk s) (c : OpClass) (hfit : s.encFrameLen ≤ s.encRem) :
    ResultsOk (s.writeFrame c) := by
  obtain ⟨-, -, hD⟩ := h
  have hcap := s.txCap.isLt
  have hb := s.encHdrLen_bounds
  have hrem : s.encRem ≤ s.txCap.toNat := Nat.sub_le _ _
  have hle : s.encHdrLen ≤ s.encFrameLen := Nat.le_add_right _ _
  have hhlen : (s.writeFrame c).eHlen.toNat = s.encHdrLen := by
    rw [State.writeFrame_eHlen, BitVec.toNat_ofNat, Nat.mod_eq_of_lt (by omega)]
  have hflen : (s.writeFrame c).eFlen.toNat = s.encFrameLen := by
    rw [State.writeFrame_eFlen, BitVec.toNat_ofNat, Nat.mod_eq_of_lt (by omega)]
  unfold ResultsOk
  rw [hhlen, hflen]
  exact ⟨.inr (s.encHdrLen_eq ▸ hdrLen_mem _ _), hle, hD⟩

/-- Every part of a command keeps the invariant. -/
theorem CommandPart.inv {i : Instr} {s t : State} (h : CommandPart i s t) (hs : Inv s) : Inv t := by
  obtain ⟨hp, hm, hst, hr, hh⟩ := hs
  cases h with
  | finish c hc => exact ⟨hp, hm, hst.finish hc, hr, hh⟩
  | clearRegisters => exact ⟨hp, hm, (by decide : StatusOk Status.reset), (by decide : ResultsOk State.reset), hh⟩
  | rewind =>
    obtain ⟨hcpl, hmal, hcode, -⟩ := hst
    exact ⟨hp, hm, ⟨hcpl, hmal, hcode, fun h => (nomatch h)⟩, hr, hh⟩
  | capacity hw =>
    obtain ⟨hwin, hcur⟩ := s.encWindowOk_iff.1 hw
    refine ⟨hp, hm.storeBytes rfl s.capacityFailure_mem ?_, hst.capacity, by simpa [ResultsOk] using hr, hh⟩
    simp only [length_anyBytes, State.encDst, State.encRem]
    omega
  | writeFrame c hw hfit =>
    obtain ⟨hwin, hcur⟩ := s.encWindowOk_iff.1 hw
    refine ⟨hp, hm.storeBytes rfl (s.writeFrame_mem c) ?_, hst, hr.writeFrame c hfit, hh⟩
    rw [State.length_frame]
    unfold State.encDst
    unfold State.encRem at hfit
    omega
  | maskRegion key a n hin => exact ⟨hp, hm.storeBytes rfl rfl (by simpa using hin), hst, hr, hh⟩
  | clearDecodeFlags =>
    obtain ⟨-, hcode⟩ := hst
    obtain ⟨hE, hF, -, -⟩ := hr
    exact ⟨hp, hm, ⟨fun h => (nomatch h), hcode⟩, ⟨hE, hF, fun h => (nomatch h), fun h => (nomatch h)⟩, hh⟩
  | decodeAt given a n hin hn =>
    refine ⟨by simpa using hp, hm.decodeAt given hin, hst.decodeAt given a n, hr.decodeAt given hn, ?_⟩
    unfold HistoryOk
    rwa [State.decodeAt_hnd]
  | emit _ hc =>
    have hopc : s.dOpc ≠ 7#3 := by
      obtain ⟨hcpl, -⟩ := hst
      obtain ⟨-, -, hhdr, -⟩ := hr
      exact (hhdr (hcpl hc)).2
    refine ⟨hp, hm, hst, hr, fun e he => ?_⟩
    rcases List.mem_append.1 he with he | he
    · exact hh e he
    · rw [List.mem_singleton.1 he]
      exact hopc
  | setConsumed v => exact ⟨hp, hm, hst, hr, hh⟩

theorem exec_inv {i : Instr} {s t : State} (h : exec i s = .next t) (hs : Inv s) : Inv t :=
  exec_keeps (fun _ _ hp => hp.inv) h hs

/-- The operand registers do not occur in the invariant. -/
theorem State.writeReg_inv {s : State} (r : Reg) (v : Word) (hs : Inv s) : Inv (s.writeReg r v) := by
  cases r <;> exact hs

/-- One stored byte is a run of one byte. -/
theorem State.memWrite_inv {s : State} {a : Nat} (b : Byte) (ha : a < s.params.memSize) (hs : Inv s) :
    Inv (s.memWrite a b) := by
  obtain ⟨hp, hm, hst, hr, hh⟩ := hs
  exact ⟨hp, hm.storeBytes (bs := [b]) rfl rfl (by simpa using ha), hst, hr, hh⟩

theorem hostStep_inv {op : HostOp} {s t : State} (h : hostStep op s = .next t) (hs : Inv s) : Inv t := by
  obtain ⟨i, h⟩ | ⟨c, rfl, rfl⟩ | ⟨r, v, rfl⟩ | rfl | ⟨e, rfl⟩ | ⟨a, b, ha, rfl⟩ | rfl := hostStep_cases h
  · exact exec_inv h hs
  · exact (CommandPart.finish (i := .nop) s _ (by decide)).inv hs
  · exact State.writeReg_inv r v hs
  · exact hs
  · exact hs
  · exact State.memWrite_inv b ha hs
  · exact (CommandPart.clearRegisters (i := .srst) s rfl).inv hs

/-- Settles O53: the invariant is kept by every part of a command and by every host step. -/
theorem everyStepKeepsTheInvariant : Obligations.EveryStepKeepsTheInvariant := by
  intro s t hs h
  obtain ⟨-, rfl⟩ | ⟨op, rest, -, h⟩ := step_cases h
  · exact hs
  · exact hostStep_inv h hs

/-! ### The register file seen by the host (10_state R14, R15) -/

theorem step_of_pending {s : State} {op : HostOp} {rest : List HostOp} (h : s.pending = op :: rest) :
    step s = hostStep op { s with pending := rest } := by
  unfold step
  rw [h]

@[simp] theorem State.readSlot_slot (s : State) (r : Reg) : s.readSlot r.slot = s.readReg r := by
  simp [State.readSlot]

/-- Slots 25 to 31 are reserved. -/
theorem State.readSlot_reserved (s : State) {slot : BitVec 5} (h : 25 ≤ slot.toNat) : s.readSlot slot = 0 := by
  have hnone : Reg.ofSlot slot = none := List.getElem?_eq_none h
  simp [State.readSlot, hnone]

/-- A read register has zeros above its width. -/
theorem State.readReg_lt (s : State) (r : Reg) : (s.readReg r).toNat < 2 ^ r.width := by
  have narrow : ∀ {w : Nat} (x : BitVec w), w ≤ 64 → (x.setWidth 64).toNat < 2 ^ w := fun x hw => by
    rw [BitVec.toNat_setWidth_of_le hw]
    exact x.isLt
  cases r <;> first | exact BitVec.isLt _ | exact narrow _ (by decide) | exact Nat.two_pow_pos _

theorem State.toNat_txRem (s : State) : s.txRem.toNat = s.txCap.toNat - s.txWptr.toNat := by
  have := s.txCap.isLt
  rw [State.txRem, BitVec.toNat_ofNat, Nat.mod_eq_of_lt (by omega)]

/-- Settles O43: every slot holds its register, and a register reads as its own field. -/
theorem hostReadReturnsTheRegister : Obligations.HostReadReturnsTheRegister := by
  intro s rest slot hp
  refine ⟨step_of_pending hp, ?_, ?_, ?_, fun r => ⟨s.readSlot_slot r, s.readReg_lt r⟩⟩
  · rintro (rfl | h)
    · rfl
    · exact s.readSlot_reserved h
  · exact s.toNat_txRem
  · exact ⟨rfl, rfl, rfl, rfl, s.toNat_txRem, rfl, rfl, rfl, rfl, rfl, rfl, rfl, rfl, rfl, rfl, rfl, rfl, rfl,
      rfl, rfl, rfl, rfl, rfl, rfl⟩

/-! ### Register writes (44_control R140) -/

theorem State.writeReg_of_not_readWrite (s : State) {r : Reg} (v : Word) (h : r.access ≠ .readWrite) :
    s.writeReg r v = s := by
  cases r <;> first | rfl | exact absurd rfl h

@[simp] theorem State.writeReg_status (s : State) (r : Reg) (v : Word) : (s.writeReg r v).status = s.status := by
  cases r <;> rfl

@[simp] theorem State.writeReg_mem (s : State) (r : Reg) (v : Word) : (s.writeReg r v).mem = s.mem := by
  cases r <;> rfl

@[simp] theorem State.writeReg_pending (s : State) (r : Reg) (v : Word) : (s.writeReg r v).pending = s.pending := by
  cases r <;> rfl

/-- An `RW` register takes the low bits of the value. -/
theorem State.readReg_writeReg_same (s : State) {r : Reg} (v : Word) (h : r.access = .readWrite) :
    ((s.writeReg r v).readReg r).toNat = v.toNat % 2 ^ r.width := by
  have whole : v.toNat = v.toNat % 2 ^ 64 := (Nat.mod_eq_of_lt v.isLt).symm
  have narrow : ∀ {w : Nat}, w ≤ 64 → ((v.setWidth w).setWidth 64).toNat = v.toNat % 2 ^ w := fun hw => by
    rw [BitVec.toNat_setWidth_of_le hw, BitVec.toNat_setWidth]
  cases r <;> first | cases h; done | exact whole | exact narrow (by decide)

/-- Every other register reads as before, but for the view `TX_REM` of the written `TX_CAP` (10_state R21). -/
theorem State.readReg_writeReg_other (s : State) {r r' : Reg} (v : Word) (h : r' ≠ r) (hv : r' ≠ .txRem) :
    (s.writeReg r v).readReg r' = s.readReg r' := by
  by_cases hr : r.access = .readWrite
  · cases r <;> first
      | cases hr; done
      | cases r' <;> first | rfl | exact absurd rfl h | exact absurd rfl hv
  · rw [s.writeReg_of_not_readWrite v hr]

/-- A host write to a slot other than `CMD` writes the slot's register, if there is one. -/
theorem hostWrite_cases {slot : BitVec 5} (hslot : slot ≠ 0) (v : Word) (s : State) :
    (∃ r : Reg, r.slot = slot ∧ hostWrite slot v s = .next (s.writeReg r v)) ∨
    ((∀ r : Reg, r.slot ≠ slot) ∧ hostWrite slot v s = .next s) := by
  unfold hostWrite
  split
  · rename_i h
    exact absurd (Reg.slot_of_ofSlot h).symm hslot
  · rename_i r _ h
    exact .inl ⟨r, Reg.slot_of_ofSlot h, rfl⟩
  · rename_i h
    refine .inr ⟨fun r hr => ?_, rfl⟩
    rw [← hr, Reg.ofSlot_slot] at h
    cases h

/-- Settles O42: the slot's register is written and no other; a slot without an `RW` register ignores the write. -/
theorem hostWriteStoresTheLowBits : Obligations.HostWriteStoresTheLowBits := by
  intro s rest slot v hp hslot
  rw [step_of_pending hp, hostStep]
  obtain ⟨r, rfl, h⟩ | ⟨hnone, h⟩ := hostWrite_cases hslot v { s with pending := rest }
  · have written : ∀ q : Reg, r.slot = q.slot → State.writeReg { s with pending := rest } r v =
        State.writeReg { s with pending := rest } q v := fun q hq => by rw [Reg.slot_inj hq]
    refine ⟨_, h, by simp, by simp, by simp, by simp, fun q hq hrw => ?_, fun q hq hv => ?_, fun hro => ?_,
      written .txBase, written .txCap, written .eFin, written .eOpc, written .eMask, written .eKey, written .eLen,
      written .eSrc, written .rxBase, written .rxValid, fun hro => ?_⟩
    · rw [Reg.slot_inj hq] at hrw ⊢
      exact State.readReg_writeReg_same _ v hrw
    · exact State.readReg_writeReg_other _ v (fun e => hq (by rw [e])) hv
    · exact State.writeReg_of_not_readWrite _ v (hro r rfl)
    · refine State.writeReg_of_not_readWrite _ v ?_
      revert hro
      cases r <;> decide
  · have unused : ∀ (q : Reg) {P : Prop}, slot = q.slot → P := fun q _ hq => absurd hq.symm (hnone q)
    exact ⟨_, h, rfl, rfl, rfl, rfl, fun q hq => unused q hq.symm, fun _ _ _ => rfl, fun _ => rfl,
      unused .txBase, unused .txCap, unused .eFin, unused .eOpc, unused .eMask, unused .eKey, unused .eLen,
      unused .eSrc, unused .rxBase, unused .rxValid, fun _ => rfl⟩

/-! ### Reset, the layout of `STATUS`, and the command slot -/

/-- Settles O12: the machine at reset is a machine with its registers cleared. -/
theorem resetReadsZero : Obligations.ResetReadsZero :=
  ⟨State.reset.readSlot_clearRegisters, rfl, fun _ => rfl⟩

/-- Settles O52: no memory and no event, and every result register is 0. -/
theorem invariantAtReset : Obligations.InvariantAtReset :=
  ⟨by decide, ⟨rfl, fun _ h => nomatch h⟩, (by decide : StatusOk Status.reset), by decide, fun _ h => nomatch h⟩

/-- A field of a word, bit by bit. -/
theorem extractLsb'_eq {w n k : Nat} {x : BitVec w} {y : BitVec n}
    (h : ∀ i < n, x.getLsbD (k + i) = y.getLsbD i) : x.extractLsb' k n = y := by
  refine BitVec.eq_of_getLsbD_eq fun i hi => ?_
  rw [BitVec.getLsbD_extractLsb', decide_eq_true hi, Bool.true_and, h i hi]

/-- Settles O18, from the value of each bit of the word. -/
theorem statusWordLayout : Obligations.StatusWordLayout := by
  intro st
  refine ⟨extractLsb'_eq fun i hi => ?_, st.getLsbD_word 3, st.getLsbD_word 4, st.getLsbD_word 5,
    extractLsb'_eq fun i hi => ?_, extractLsb'_eq fun i hi => ?_, extractLsb'_eq fun i hi => ?_⟩ <;>
    rw [Status.getLsbD_word]
  · rw [Nat.zero_add, if_pos hi]
  · interval_cases i <;> rfl
  · interval_cases i <;> rfl
  · interval_cases i <;> simp

theorem runCommand_of_ok {w : BitVec 32} {i : Instr} (h : decodeCommand w = .ok i) (s : State) :
    runCommand w s = exec i s := by
  unfold runCommand
  rw [h]

theorem runCommand_of_undefined {w : BitVec 32} (h : ∀ i, decodeCommand w ≠ .ok i) (s : State) :
    runCommand w s = .next (s.finish .badcmd) := by
  unfold runCommand
  split
  · rename_i i hi
    exact absurd hi (h i)
  · rfl

/-- A write to `CMD` runs bits 31:0 of the value (10_state R16). -/
theorem hostStep_wr_cmd (v : Word) (s : State) : hostStep (.wr 0 v) s = runCommand (v.setWidth 32) s := rfl

/-- Settles O45: a write to `CMD` is the decoded command, and a word that decodes to none ends with `E_BADCMD`. -/
theorem stepRunsTheDecodedCommand : Obligations.StepRunsTheDecodedCommand := by
  refine ⟨fun s h => ?_, fun s rest v hp => ?_⟩
  · unfold step
    rw [h]
  · rw [step_of_pending hp, hostStep_wr_cmd]
    exact ⟨fun i hi => runCommand_of_ok hi _, fun hi => runCommand_of_undefined hi _⟩

/-! ### A placed table word (log entries 4 to 6) -/

theorem decodeCommand_commandWord {i : Instr} {w : BitVec 32} (h : commandWord i = some w) :
    decodeCommand w = .ok i := by
  cases i <;> cases h <;> rfl

theorem isCommandWord_commandWord {i : Instr} {w : BitVec 32} (h : commandWord i = some w) :
    isCommandWord 32 w.toNat = true := by
  cases i <;> cases h <;> rfl

theorem encode_of_commandWord (wire : OpcWire) {i : Instr} {w : BitVec 32} (h : commandWord i = some w) :
    encode wire i = (32, w.toNat) := by
  unfold encode
  rw [h]

theorem encode_frameRow (wire : OpcWire) {i : Instr} (h : commandWord i = none) :
    encode wire i = (8 * (frameBytes wire i).length, beNat (frameBytes wire i)) := by
  unfold encode
  rw [h]

/-- Byte 1 of a word of four bytes stands in its bits 23:16. -/
theorem isShortHeaderWord_beNat (b0 b1 b2 b3 : Byte) :
    isShortHeaderWord (beNat [b0, b1, b2, b3]) = decide (b1.toNat = 126) := by
  have h1 := b1.isLt
  have h2 := b2.isLt
  have h3 := b3.isLt
  have : beNat [b0, b1, b2, b3] / 2 ^ 16 % 2 ^ 8 = b1.toNat := by
    simp only [beNat, List.foldl_cons, List.foldl_nil]
    omega
  rw [isShortHeaderWord, this]

/-- The bytes of a frame row are never taken for a command word: of the rows only `F16U` has its width, and byte 1
of that row tells them apart (log entry 6). -/
theorem isCommandWord_frameRow (wire : OpcWire) {i : Instr} (h : commandWord i = none) :
    isCommandWord (8 * (frameBytes wire i).length) (beNat (frameBytes wire i)) = false := by
  cases i
  case f16u fin rsv opc len =>
    have hshort : isShortHeaderWord (beNat (frameBytes wire (.f16u fin rsv opc len))) = true :=
      isShortHeaderWord_beNat _ _ _ _
    rw [isCommandWord, hshort, Bool.not_true, Bool.and_false]
  all_goals first | cases h; done | rfl

/-- A row has 14 bytes at most (30_encoding R70). -/
theorem length_frameBytes_le (wire : OpcWire) (i : Instr) : (frameBytes wire i).length ≤ 14 := by
  cases i <;> simp [frameBytes]

/-- A command mnemonic as a host step (30_encoding R80) runs its word. -/
theorem hostStep_opCommand (w : BitVec 32) (s : State) : hostStep (opCommand w) s = runCommand w s := by
  have hw : (w.setWidth 64).setWidth 32 = w := by
    rw [BitVec.setWidth_setWidth_of_le _ (by decide), BitVec.setWidth_eq]
  rw [opCommand, opWrite]
  exact (hostStep_wr_cmd _ s).trans (by rw [hw])

theorem step_present_commandWord {i : Instr} {w : BitVec 32} (h : commandWord i = some w) (s : State) :
    step (s.present 32 w.toNat) = exec i s := by
  unfold State.present
  rw [if_pos (isCommandWord_commandWord h), step_of_pending rfl, hostStep_opCommand, BitVec.ofNat_toNat,
    BitVec.setWidth_eq, runCommand_of_ok (decodeCommand_commandWord h)]

theorem step_present_frameRow (wire : OpcWire) {i : Instr} (h : commandWord i = none) (s : State) :
    step (s.present (8 * (frameBytes wire i).length) (beNat (frameBytes wire i))) =
      exec .dec (s.receive (frameBytes wire i)) := by
  unfold State.present
  rw [isCommandWord_frameRow wire h, if_neg (by decide), Nat.mul_div_cancel_left _ (by decide), beBytes_beNat,
    step_of_pending rfl, hostStep_opCommand, runCommand_of_ok (decodeCommand_commandWord (i := .dec) rfl),
    ← s.receive_pending (frameBytes wire i)]

/-- Bytes that `MEM` holds at the start of the window make no difference to the attempt (42_decode R110). -/
theorem State.decodeWindow_of_memory (s : State) {given : List Byte}
    (h : s.readBytes s.rxBase.toNat given.length = given) : s.decodeWindow given = s.decodeWindow [] := by
  unfold State.decodeWindow State.decodeAt
  rw [State.frameByte_of_memory s given _ h]

theorem exec_dec (s : State) : exec .dec s = .next (s.decodeWindow []) := rfl

/-- `DEC` on a window that has received a row's bytes is what the row does: `MEM` holds them there, or it is too small
for them and both end with `E_WINDOW`. -/
theorem execDec_receive_frameRow {i : Instr} (h : commandWord i = none) (s : State) :
    exec .dec (s.receive (frameBytes s.params.opcWire i)) = exec i (s.receive (frameBytes s.params.opcWire i)) := by
  have hlen := length_frameBytes_le s.params.opcWire i
  rw [exec_frameRow i _ h, State.receive_params, exec_dec]
  obtain hread | hout := s.receive_cases (bs := frameBytes s.params.opcWire i) (by omega)
  · rw [State.decodeWindow_of_memory _ hread]
  · rw [State.decodeWindow_out _ _ hout, State.decodeWindow_out _ _ hout]

/-- Settles O46: a command word waits at `CMD` as itself; a row's bytes wait in the window, and `DEC` at `CMD`. -/
theorem placedWordIsRunByTheNextStep : Obligations.PlacedWordIsRunByTheNextStep := by
  refine fun s i => ⟨fun h => ?_, fun h => ?_⟩
  · obtain ⟨w, hw⟩ := Option.ne_none_iff_exists'.1 h
    rw [encode_of_commandWord _ hw]
    exact step_present_commandWord hw s
  · rw [encode_frameRow _ h]
    exact (step_present_frameRow _ h s).trans (execDec_receive_frameRow h s)

/-! ### `ENC` without a mask (41_encode R94, R105) -/

theorem headerBytes_unmasked (w : OpcWire) (fin : BitVec 1) (c : OpClass) (key key' : BitVec 32) (len : Word) :
    headerBytes w fin c 0#1 key len = headerBytes w fin c 0#1 key' len := rfl

theorem State.encPayload_unmasked {s : State} (h : s.eMask = 0#1) :
    s.encPayload = s.readBytes s.eSrc.toNat s.eLen.toNat := by
  simp [State.encPayload, h]

/-- The state with another key in `E_KEY`. -/
def State.withKey (s : State) (key : BitVec 32) : State := { s with eKey := key }

section
variable (s : State) (key : BitVec 32)

@[simp] theorem State.withKey_status : (s.withKey key).status = s.status := rfl
@[simp] theorem State.withKey_eOpc : (s.withKey key).eOpc = s.eOpc := rfl
@[simp] theorem State.withKey_encWindowOk : (s.withKey key).encWindowOk = s.encWindowOk := rfl
@[simp] theorem State.withKey_encRem : (s.withKey key).encRem = s.encRem := rfl
@[simp] theorem State.withKey_encFrameLen : (s.withKey key).encFrameLen = s.encFrameLen := rfl
@[simp] theorem State.withKey_encSourceOk : (s.withKey key).encSourceOk = s.encSourceOk := rfl
@[simp] theorem State.withKey_encOverlap : (s.withKey key).encOverlap = s.encOverlap := rfl
@[simp] theorem State.withKey_finish (c : Completion) : (s.withKey key).finish c = (s.finish c).withKey key := rfl
@[simp] theorem State.withKey_capacityFailure :
    (s.withKey key).capacityFailure = s.capacityFailure.withKey key := rfl
@[simp] theorem State.withKey_readBytes (a n : Nat) : (s.withKey key).readBytes a n = s.readBytes a n :=
  State.readBytes_congr fun _ _ => rfl

end

/-- The key goes into no byte of a frame without a mask. -/
theorem State.withKey_writeFrame {s : State} (h : s.eMask = 0#1) (key : BitVec 32) (c : OpClass) :
    (s.withKey key).writeFrame c = (s.writeFrame c).withKey key := by
  have hpay : (s.withKey key).encPayload = s.encPayload := by
    rw [State.encPayload_unmasked h, State.encPayload_unmasked (s := s.withKey key) h]
    exact s.withKey_readBytes key _ _
  have hhdr : headerBytes s.params.opcWire s.eFin c s.eMask key s.eLen =
      headerBytes s.params.opcWire s.eFin c s.eMask s.eKey s.eLen := by
    rw [h]
    exact headerBytes_unmasked ..
  have hmem : ((s.withKey key).writeFrame c).mem = (s.writeFrame c).mem := by
    rw [State.writeFrame_mem, State.writeFrame_mem, hpay, ← hhdr]
    rfl
  calc (s.withKey key).writeFrame c
      = { (s.writeFrame c).withKey key with mem := ((s.withKey key).writeFrame c).mem } := rfl
    _ = (s.writeFrame c).withKey key := by rw [hmem]; rfl

/-- The checks of `ENC` do not look at the key, and each of its ends commutes with a change of the key. -/
theorem execEnc_withKey {s t : State} (hm : s.eMask = 0#1) (h : execEnc s = .next t) (key : BitVec 32) :
    execEnc (s.withKey key) = .next (t.withKey key) := by
  unfold execEnc at h ⊢
  simp only [State.withKey_status, State.withKey_eOpc, State.withKey_encWindowOk, State.withKey_encRem,
    State.withKey_encFrameLen, State.withKey_encSourceOk, State.withKey_encOverlap, State.withKey_finish,
    State.withKey_capacityFailure, State.withKey_writeFrame hm]
  cases hc : classOfCode s.eOpc with
  | none =>
    simp only [hc] at h ⊢
    split_ifs at h ⊢ <;> (cases h; rfl)
  | some c =>
    simp only [hc] at h ⊢
    split_ifs at h ⊢ <;> (cases h; rfl)

/-- Settles O23: without a mask the key is in no check and in no byte of the frame. -/
theorem unmaskedEncodeIgnoresTheKey : Obligations.UnmaskedEncodeIgnoresTheKey :=
  fun _ _ key hm h => execEnc_withKey hm h key

end Sys2Proof.Machine

namespace Sys2Proof.Machine

/-! ### What the registers of an attempt say of its payload (42_decode R116 to R118) -/

/-- `CPL` after an attempt is the completeness of the frame it met. -/
theorem State.decodeAt_cpl (s : State) (given : List Byte) (a n : Nat) :
    (s.decodeAt given a n).status.cpl =
      frameComplete n (frameHdrLen (s.frameByte given a)) (framePayloadLen (s.frameByte given a)).toNat := by
  rw [State.decodeAt_status]

/-- After a complete attempt `D_MASK`, `D_HLEN` and `D_LEN` hold what the frame's bytes say. -/
theorem State.decodeAt_registers_of_cpl {s : State} {given : List Byte} {a n : Nat} (hn : n < 2 ^ 64)
    (hc : (s.decodeAt given a n).status.cpl = true) :
    (s.decodeAt given a n).dMask = maskOf (s.frameByte given a 1) ∧
      (s.decodeAt given a n).dHlen.toNat = frameHdrLen (s.frameByte given a) ∧
      (s.decodeAt given a n).dLen = framePayloadLen (s.frameByte given a) := by
  rw [State.decodeAt_cpl] at hc
  obtain ⟨-, -, hmask, hhlen, hlen, -⟩ :=
    attempt_of_complete (wire := s.params.opcWire) (a := a) (d := s.draws) hc hn
  rw [State.decodeAt_dMask, State.decodeAt_dHlen, State.decodeAt_dLen]
  exact ⟨hmask, hhlen, hlen⟩

/-- An attempt that leaves `CPL` or `D_MASK` clear has changed no byte. -/
theorem State.mem_decodeAt_of_registers {s : State} {given : List Byte} {a n : Nat} (hn : n < 2 ^ 64)
    (h : (s.decodeAt given a n).status.cpl = false ∨ (s.decodeAt given a n).dMask = 0) :
    (s.decodeAt given a n).mem = s.mem := by
  refine s.mem_decodeAt_of_not given a n ?_
  rintro ⟨hc, hm⟩
  rw [← State.decodeAt_cpl] at hc
  obtain ⟨hmask, -, -⟩ := State.decodeAt_registers_of_cpl hn hc
  rw [hc, hmask, hm] at h
  exact absurd h (by decide)

/-- A complete attempt changes no byte outside the payload that `D_HLEN` and `D_LEN` tell. -/
theorem State.memRead_decodeAt_outside_payload {s : State} {given : List Byte} {a n a' : Nat} (hn : n < 2 ^ 64)
    (hc : (s.decodeAt given a n).status.cpl = true)
    (h : a' < a + (s.decodeAt given a n).dHlen.toNat ∨
      a + (s.decodeAt given a n).dHlen.toNat + (s.decodeAt given a n).dLen.toNat ≤ a') :
    (s.decodeAt given a n).memRead a' = s.memRead a' := by
  obtain ⟨-, hhlen, hlen⟩ := State.decodeAt_registers_of_cpl hn hc
  rw [hhlen, hlen] at h
  rw [State.memRead_decodeAt, if_neg]
  rintro ⟨-, hlow, hhigh⟩
  omega

/-- An attempt that ends with success writes the decode registers, the decode flags, `CODE` and memory. -/
theorem State.decodeAt_finish_eq (s : State) (given : List Byte) (a n : Nat) :
    let t := (s.decodeAt given a n).finish .ok
    t = { s with
      dFin := t.dFin, dOpc := t.dOpc, dMask := t.dMask, dKey := t.dKey, dLen := t.dLen, dHlen := t.dHlen,
      dFlen := t.dFlen, dPaddr := t.dPaddr, mem := t.mem, draws := t.draws,
      status := { s.status with code := 0, hdrv := t.status.hdrv, cpl := t.status.cpl } } := by
  simp only [State.finish, Status.finish_ok]
  rw [State.decodeAt_eq]
  rfl

/-- Settles O34: a frame row is an attempt at its window, whose registers tell where the payload lies. -/
theorem frameRowsFrame : Obligations.FrameRowsFrame := by
  intro i s hi
  rw [exec_frameRow i s hi]
  refine ⟨fun hout => ?_, fun hin => ?_⟩
  · rw [s.decodeWindow_out _ hout]
    rfl
  · have hn := s.rxValid.isLt
    rw [s.decodeWindow_in _ hin]
    exact ⟨_, rfl, s.decodeAt_finish_eq _ _ _, State.mem_decodeAt_of_registers hn,
      fun hc _ _ => State.memRead_decodeAt_outside_payload hn hc⟩

/-! ### The host's accesses to `MEM` (44_control R142) -/

theorem hostStep_st8_in {a : Nat} (b : Byte) {s : State} (h : a < s.params.memSize) :
    hostStep (.st8 a b) s = .next (s.memWrite a b) := if_pos h

theorem hostStep_st8_out {a : Nat} (b : Byte) {s : State} (h : s.params.memSize ≤ a) :
    hostStep (.st8 a b) s = .fault .hostAddress := if_neg (Nat.not_lt.2 h)

theorem hostStep_ld8_in {a : Nat} {s : State} (h : a < s.params.memSize) :
    hostStep (.ld8 a) s = .next { s with reads := s.reads ++ [.byte a (s.memRead a)] } := if_pos h

theorem hostStep_ld8_out {a : Nat} {s : State} (h : s.params.memSize ≤ a) :
    hostStep (.ld8 a) s = .fault .hostAddress := if_neg (Nat.not_lt.2 h)

/-- Settles O44: both accesses are split at `MEM_SIZE`; a stored byte is read back, and every other as before. -/
theorem hostMemoryAccess : Obligations.HostMemoryAccess := by
  intro s rest a b
  refine ⟨fun hp ha => ?_, fun hp ha => ?_, fun hp ha => ?_⟩
  · rw [step_of_pending hp]
    exact ⟨_, hostStep_st8_in b ha, rfl, fun x => Memory.read_store s.mem a x b⟩
  · rw [step_of_pending hp]
    exact hostStep_ld8_in ha
  · obtain hp | hp := hp
    · rw [step_of_pending hp]
      exact hostStep_st8_out b ha
    · rw [step_of_pending hp]
      exact hostStep_ld8_out ha

end Sys2Proof.Machine

namespace Sys2Proof.Machine

/-! ### The one constraint on a row (30_encoding R70) -/

theorem f7u_wellFormed_iff {fin : BitVec 1} {rsv : BitVec 3} {opc : BitVec 4} {len : BitVec 7} :
    (Instr.f7u fin rsv opc len).WellFormed ↔ len.toNat ≤ 125 := by
  simp [Instr.WellFormed, Instr.illFormed, inlineLengthOk_iff]

theorem f7m_wellFormed_iff {fin : BitVec 1} {rsv : BitVec 3} {opc : BitVec 4} {len : BitVec 7} {key : BitVec 32} :
    (Instr.f7m fin rsv opc len key).WellFormed ↔ len.toNat ≤ 125 :=
  f7u_wellFormed_iff (fin := fin) (rsv := rsv) (opc := opc)

/-! ### Headers as one shape (30_encoding R64 to R70) -/

/-- A header by its fields: bytes 0 and 1, the extension that byte 1's selector announces, and the key, which is on
the wire only when MASK is 1. -/
structure Header where
  fin  : BitVec 1
  rsv  : BitVec 3
  opc  : BitVec 4
  mask : BitVec 1
  sel  : BitVec 7
  ext  : List Byte
  key  : BitVec 32
  length_ext : ext.length = extOf sel

/-- The unmasked row of a selector. -/
def unmaskedRow (fin : BitVec 1) (rsv : BitVec 3) (opc : BitVec 4) (sel : BitVec 7) (ext : List Byte) : Instr :=
  if sel.toNat ≤ 125 then .f7u fin rsv opc sel
  else if sel.toNat = 126 then .f16u fin rsv opc (BitVec.ofNat 16 (beNat ext))
  else .f64u fin rsv opc (BitVec.ofNat 64 (beNat ext))

/-- The masked row of a selector, for each key. -/
def maskedRow (fin : BitVec 1) (rsv : BitVec 3) (opc : BitVec 4) (sel : BitVec 7) (ext : List Byte) :
    BitVec 32 → Instr :=
  if sel.toNat ≤ 125 then .f7m fin rsv opc sel
  else if sel.toNat = 126 then .f16m fin rsv opc (BitVec.ofNat 16 (beNat ext))
  else .f64m fin rsv opc (BitVec.ofNat 64 (beNat ext))

/-- The key bytes of a header with this MASK. -/
def maskKeyBytes (m : BitVec 1) (key : BitVec 32) : List Byte := if m = 1#1 then keyBytes key else []

namespace Header

/-- The header row of the table. -/
def row (h : Header) : Instr :=
  if h.mask = 1#1 then maskedRow h.fin h.rsv h.opc h.sel h.ext h.key
  else unmaskedRow h.fin h.rsv h.opc h.sel h.ext

/-- The header on the wire. -/
def bytes (h : Header) : List Byte :=
  [byte0 h.fin h.rsv h.opc, packB1 h.mask h.sel] ++ h.ext ++ maskKeyBytes h.mask h.key

/-- `H` of the header (40_subunits R86). -/
def length (h : Header) : Nat := hdrLen h.sel h.mask

/-- The payload length the header spells (40_subunits R85). -/
def payloadLen (h : Header) : Word := lenDecode h.sel h.ext

/-- The header of `F7U` and `F7M`. -/
def inline (fin : BitVec 1) (rsv : BitVec 3) (opc : BitVec 4) (m : BitVec 1) (key : BitVec 32) (len : BitVec 7)
    (hlen : len.toNat ≤ 125) : Header :=
  ⟨fin, rsv, opc, m, len, [], key, by rw [extOf, if_pos hlen]; rfl⟩

/-- The header of `F16U` and `F16M`. -/
def short (fin : BitVec 1) (rsv : BitVec 3) (opc : BitVec 4) (m : BitVec 1) (key : BitVec 32)
    (len : BitVec 16) : Header :=
  ⟨fin, rsv, opc, m, 126#7, beBytes 2 len.toNat, key, length_beBytes ..⟩

/-- The header of `F64U` and `F64M`. -/
def long (fin : BitVec 1) (rsv : BitVec 3) (opc : BitVec 4) (m : BitVec 1) (key : BitVec 32)
    (len : BitVec 64) : Header :=
  ⟨fin, rsv, opc, m, 127#7, beBytes 8 len.toNat, key, length_beBytes ..⟩

section
variable (fin : BitVec 1) (rsv : BitVec 3) (opc : BitVec 4) (m : BitVec 1) (key : BitVec 32)

theorem row_inline {len : BitVec 7} (hlen : len.toNat ≤ 125) :
    (inline fin rsv opc m key len hlen).row = if m = 1#1 then .f7m fin rsv opc len key else .f7u fin rsv opc len := by
  simp [row, maskedRow, unmaskedRow, inline, hlen]

theorem row_short (len : BitVec 16) :
    (short fin rsv opc m key len).row = if m = 1#1 then .f16m fin rsv opc len key else .f16u fin rsv opc len := by
  simp [row, maskedRow, unmaskedRow, short, ofNat_beNat_beBytes 2 16 len (by norm_num)]

theorem row_long (len : BitVec 64) :
    (long fin rsv opc m key len).row = if m = 1#1 then .f64m fin rsv opc len key else .f64u fin rsv opc len := by
  simp [row, maskedRow, unmaskedRow, long, ofNat_beNat_beBytes 8 64 len (by norm_num)]

end

/-- Every header has one of the three forms of the length (30_encoding R66, R67). -/
theorem forms (h : Header) : ∃ fin rsv opc m key,
    (∃ len hlen, h = inline fin rsv opc m key len hlen) ∨
    (∃ len, h = short fin rsv opc m key len) ∨ (∃ len, h = long fin rsv opc m key len) := by
  obtain ⟨fin, rsv, opc, m, sel, ext, key, hext⟩ := h
  refine ⟨fin, rsv, opc, m, key, ?_⟩
  by_cases h7 : sel.toNat ≤ 125
  · obtain rfl : ext = [] := List.length_eq_zero_iff.1 (by rw [hext, extOf, if_pos h7])
    exact .inl ⟨sel, h7, rfl⟩
  by_cases h16 : sel.toNat = 126
  · obtain rfl : sel = 126#7 := BitVec.eq_of_toNat_eq h16
    have hread := beBytes_ofNat_beNat 16 ext (by rw [hext]; rfl)
    rw [hext] at hread
    exact .inr (.inl ⟨_, by simp only [short]; congr 1; exact hread.symm⟩)
  · obtain rfl : sel = 127#7 := BitVec.eq_of_toNat_eq (show sel.toNat = 127 by omega)
    have hread := beBytes_ofNat_beNat 64 ext (by rw [hext]; rfl)
    rw [hext] at hread
    exact .inr (.inr ⟨_, by simp only [long]; congr 1; exact hread.symm⟩)

theorem row_wellFormed (h : Header) : h.row.WellFormed := by
  obtain ⟨fin, rsv, opc, m, key, ⟨len, hlen, rfl⟩ | ⟨len, rfl⟩ | ⟨len, rfl⟩⟩ := h.forms
  · rw [row_inline]
    split
    · exact f7m_wellFormed_iff.2 hlen
    · exact f7u_wellFormed_iff.2 hlen
  · rw [row_short]
    split <;> rfl
  · rw [row_long]
    split <;> rfl

theorem frameBytes_row (w : OpcWire) (h : Header) : frameBytes w h.row = h.bytes := by
  obtain ⟨fin, rsv, opc, m, key, ⟨len, hlen, rfl⟩ | ⟨len, rfl⟩ | ⟨len, rfl⟩⟩ := h.forms
  · rw [row_inline]
    obtain rfl | rfl := bit_cases m <;> rfl
  · rw [row_short]
    obtain rfl | rfl := bit_cases m <;> rfl
  · rw [row_long]
    obtain rfl | rfl := bit_cases m <;> rfl

theorem commandWord_row (h : Header) : commandWord h.row = none := by
  unfold row maskedRow unmaskedRow
  split_ifs <;> rfl

end Header

theorem length_maskKeyBytes (m : BitVec 1) (key : BitVec 32) : (maskKeyBytes m key).length = 4 * m.toNat := by
  obtain rfl | rfl := bit_cases m <;> rfl

theorem Header.bytes_append (h : Header) (rest : List Byte) : h.bytes ++ rest =
    byte0 h.fin h.rsv h.opc :: packB1 h.mask h.sel :: (h.ext ++ (maskKeyBytes h.mask h.key ++ rest)) := by
  simp [Header.bytes]

theorem Header.length_bytes (h : Header) : h.bytes.length = h.length := by
  simp only [Header.bytes, List.length_append, length_maskKeyBytes, h.length_ext]
  rfl

/-- A well-formed row of at least 2 bytes is a header row. -/
theorem exists_header_of_wellFormed (w : OpcWire) {i : Instr} (hwf : i.WellFormed)
    (hlen : 2 ≤ (frameBytes w i).length) : ∃ h : Header, h.row = i := by
  cases i
  case f7u fin rsv opc len => exact ⟨_, Header.row_inline fin rsv opc 0#1 0#32 (f7u_wellFormed_iff.1 hwf)⟩
  case f7m fin rsv opc len key => exact ⟨_, Header.row_inline fin rsv opc 1#1 key (f7m_wellFormed_iff.1 hwf)⟩
  case f16u fin rsv opc len => exact ⟨_, Header.row_short fin rsv opc 0#1 0#32 len⟩
  case f16m fin rsv opc len key => exact ⟨_, Header.row_short fin rsv opc 1#1 key len⟩
  case f64u fin rsv opc len => exact ⟨_, Header.row_long fin rsv opc 0#1 0#32 len⟩
  case f64m fin rsv opc len key => exact ⟨_, Header.row_long fin rsv opc 1#1 key len⟩
  all_goals exact absurd hlen (by simp [frameBytes])

/-! ### The header decoder answers exactly on headers (30_encoding R68 to R71, R79) -/

theorem decodeKey_ok_iff {m : BitVec 1} {plain : Instr} {masked : BitVec 32 → Instr} {bs rest : List Byte}
    {i : Instr} : decodeKey m plain masked bs = .ok (i, rest) ↔
      ∃ key, i = (if m = 1#1 then masked key else plain) ∧ bs = maskKeyBytes m key ++ rest := by
  constructor
  · intro h
    obtain ⟨rfl, hi, hrest⟩ | ⟨rfl, key, hi, hbs⟩ := decodeKey_ok h
    · exact ⟨0, hi, hrest.symm⟩
    · exact ⟨key, hi, hbs⟩
  · rintro ⟨key, rfl, rfl⟩
    obtain rfl | rfl := bit_cases m
    · exact decodeKey_unmasked ..
    · exact decodeKey_masked ..

/-- The header decoder past byte 1's extension. -/
theorem decodeHeader_append_ext (b0 b1 : Byte) {ext : List Byte} (hext : ext.length = extOf (selOf b1))
    (bs : List Byte) : decodeHeader (b0 :: b1 :: (ext ++ bs)) =
      decodeKey (maskOf b1) (unmaskedRow (finOf b0) (rsvOf b0) (opcOf b0) (selOf b1) ext)
        (maskedRow (finOf b0) (rsvOf b0) (opcOf b0) (selOf b1) ext) bs := by
  unfold extOf at hext
  simp only [decodeHeader, unmaskedRow, maskedRow]
  split_ifs at hext ⊢
  · obtain rfl := List.length_eq_zero_iff.1 hext
    rfl
  · match ext, hext with
    | [_, _], _ => rfl
  · match ext, hext with
    | [_, _, _, _, _, _, _, _], _ => rfl

theorem extOf_le_of_decodeHeader_ok {b0 b1 : Byte} {bs : List Byte} {r : Instr × List Byte}
    (h : decodeHeader (b0 :: b1 :: bs) = .ok r) : extOf (selOf b1) ≤ bs.length := by
  unfold extOf
  simp only [decodeHeader] at h
  split_ifs at h ⊢
  · exact Nat.zero_le _
  · split at h
    · exact Nat.le_add_left _ _
    · cases h
  · split at h
    · exact Nat.le_add_left _ _
    · cases h

/-- The header two bytes begin, with the extension and the key that follow. -/
def Header.ofBytes (b0 b1 : Byte) (key : BitVec 32) {ext : List Byte} (hext : ext.length = extOf (selOf b1)) : Header :=
  ⟨finOf b0, rsvOf b0, opcOf b0, maskOf b1, selOf b1, ext, key, hext⟩

theorem Header.ofBytes_bytes_append (b0 b1 : Byte) (key : BitVec 32) {ext : List Byte}
    (hext : ext.length = extOf (selOf b1)) (rest : List Byte) :
    (Header.ofBytes b0 b1 key hext).bytes ++ rest = b0 :: b1 :: (ext ++ (maskKeyBytes (maskOf b1) key ++ rest)) := by
  rw [Header.bytes_append, Header.ofBytes, byte0_fields, packB1_fields]

/-- The decoder answers on a header and the rest, and on nothing else. -/
theorem decodeHeader_ok_iff {bs rest : List Byte} {i : Instr} :
    decodeHeader bs = .ok (i, rest) ↔ ∃ h : Header, i = h.row ∧ bs = h.bytes ++ rest := by
  constructor
  · intro hok
    match bs, hok with
    | b0 :: b1 :: bs, hok =>
      have hext : (bs.take (extOf (selOf b1))).length = extOf (selOf b1) :=
        List.length_take_of_le (extOf_le_of_decodeHeader_ok hok)
      rw [← List.take_append_drop (extOf (selOf b1)) bs, decodeHeader_append_ext b0 b1 hext,
        decodeKey_ok_iff] at hok
      obtain ⟨key, hi, hrest⟩ := hok
      refine ⟨.ofBytes b0 b1 key hext, hi, ?_⟩
      rw [Header.ofBytes_bytes_append, ← hrest, List.take_append_drop]
  · rintro ⟨h, rfl, rfl⟩
    rw [h.bytes_append, decodeHeader_append_ext _ _ (by rw [selOf_packB1, h.length_ext]), decodeKey_ok_iff]
    simp only [finOf_byte0, rsvOf_byte0, opcOf_byte0, selOf_packB1, maskOf_packB1]
    exact ⟨h.key, rfl, rfl⟩

/-- Settles O2: both sides say that the bytes are some header and the rest. -/
theorem headerDecoderAcceptsExactlyTheHeaders : Obligations.HeaderDecoderAcceptsExactlyTheHeaders := by
  intro w bs rest i
  rw [decodeHeader_ok_iff]
  constructor
  · rintro ⟨h, rfl, rfl⟩
    refine ⟨h.row_wellFormed, ?_, by rw [h.frameBytes_row]⟩
    rw [h.frameBytes_row, h.length_bytes]
    exact (hdrLen_bounds _ _).1
  · rintro ⟨hwf, hlen, rfl⟩
    obtain ⟨h, rfl⟩ := exists_header_of_wellFormed w hwf hlen
    exact ⟨h, rfl, by rw [h.frameBytes_row]⟩

/-- Enough bytes for the key of a header begin with some key. -/
theorem exists_maskKeyBytes_append {m : BitVec 1} {bs : List Byte} (hlen : 4 * m.toNat ≤ bs.length) :
    ∃ (key : BitVec 32) (rest : List Byte), bs = maskKeyBytes m key ++ rest := by
  obtain rfl | rfl := bit_cases m
  · exact ⟨0, bs, rfl⟩
  · match bs, hlen with
    | k0 :: k1 :: k2 :: k3 :: rest, _ =>
      obtain ⟨h0, h1, h2, h3⟩ := keyByte_packKey k0 k1 k2 k3
      exact ⟨packKey k0 k1 k2 k3, rest, by simp [maskKeyBytes, keyBytes, h0, h1, h2, h3]⟩

/-- As many bytes as byte 1 announces begin with a header. -/
theorem exists_header_append {b0 b1 : Byte} {bs : List Byte} (hlen : hdrLen (selOf b1) (maskOf b1) ≤ bs.length + 2) :
    ∃ (h : Header) (rest : List Byte), b0 :: b1 :: bs = h.bytes ++ rest := by
  unfold hdrLen at hlen
  have hext : (bs.take (extOf (selOf b1))).length = extOf (selOf b1) := List.length_take_of_le (by omega)
  obtain ⟨key, rest, hrest⟩ := exists_maskKeyBytes_append (m := maskOf b1) (bs := bs.drop (extOf (selOf b1)))
    (by rw [List.length_drop]; omega)
  refine ⟨.ofBytes b0 b1 key hext, rest, ?_⟩
  rw [Header.ofBytes_bytes_append, ← hrest, List.take_append_drop]

theorem frameHdrLen_bytes (h : Header) (rest : List Byte) : frameHdrLen (listByte (h.bytes ++ rest)) = h.length := by
  have hbyte1 : listByte (h.bytes ++ rest) 1 = packB1 h.mask h.sel := rfl
  rw [frameHdrLen, hbyte1, selOf_packB1, maskOf_packB1]
  rfl

/-- Settles O3: bytes that hold a whole header decode, and what decodes holds one. -/
theorem headerIsRefusedOnlyWhenCut : Obligations.HeaderIsRefusedOnlyWhenCut := by
  intro bs
  constructor
  · rintro ⟨⟨i, rest⟩, hok⟩
    obtain ⟨h, -, rfl⟩ := decodeHeader_ok_iff.1 hok
    have hb := hdrLen_bounds h.sel h.mask
    rw [frameHdrLen_bytes, List.length_append, h.length_bytes]
    exact ⟨Nat.le_trans hb.1 (Nat.le_add_right ..), Nat.le_add_right ..⟩
  · rintro ⟨htwo, hlen⟩
    match bs, htwo with
    | b0 :: b1 :: bs, _ =>
      obtain ⟨h, rest, heq⟩ := exists_header_append (b0 := b0) hlen
      exact ⟨_, decodeHeader_ok_iff.2 ⟨h, rfl, heq⟩⟩

/-! ### Decoding undoes encoding (30_encoding R73 to R77, log entry 6) -/

theorem decodeCommand_iff {w : BitVec 32} {i : Instr} : decodeCommand w = .ok i ↔ commandWord i = some w := by
  refine ⟨fun h => ?_, decodeCommand_commandWord⟩
  unfold decodeCommand at h
  split_ifs at h <;> (cases h; subst w; rfl)

/-- Settles O4: a word decodes to the instruction whose command word it is. -/
theorem exactlySevenCommandWords : Obligations.ExactlySevenCommandWords := by
  intro w i
  rw [decodeCommand_iff]
  cases i <;> simp [commandWord, eq_comm (b := w)]

/-- The row of an opcode class. -/
def opcodeRow (fin : BitVec 1) (rsv : BitVec 3) : OpClass → Instr
  | .continuation => .opcContinuation fin rsv
  | .text => .opcText fin rsv
  | .binary => .opcBinary fin rsv
  | .close => .opcClose fin rsv
  | .ping => .opcPing fin rsv
  | .pong => .opcPong fin rsv

theorem frameBytes_opcodeRow (w : OpcWire) (fin : BitVec 1) (rsv : BitVec 3) (c : OpClass) :
    frameBytes w (opcodeRow fin rsv c) = [byte0 fin rsv (wireValue w c)] := by
  cases c <;> rfl

theorem commandWord_opcodeRow (fin : BitVec 1) (rsv : BitVec 3) (c : OpClass) :
    commandWord (opcodeRow fin rsv c) = none := by
  cases c <;> rfl

theorem decodeOpcode_byte0 {w : OpcWire} (hw : w.Distinct) (fin : BitVec 1) (rsv : BitVec 3) (c : OpClass) :
    decodeOpcode w (byte0 fin rsv (wireValue w c)) = .ok (opcodeRow fin rsv c) := by
  simp only [decodeOpcode, finOf_byte0, rsvOf_byte0, opcOf_byte0, classNamed_wireValue hw]
  cases c <;> rfl

/-- The three kinds of rows of the table. -/
theorem row_kinds {i : Instr} (hwf : i.WellFormed) :
    (∃ w, commandWord i = some w) ∨ (∃ fin rsv c, i = opcodeRow fin rsv c) ∨ ∃ h : Header, h.row = i := by
  have header (hlen : 2 ≤ (frameBytes Config.params.opcWire i).length) : ∃ h : Header, h.row = i :=
    exists_header_of_wellFormed _ hwf hlen
  cases i
  case opcContinuation fin rsv => exact .inr (.inl ⟨fin, rsv, .continuation, rfl⟩)
  case opcText fin rsv => exact .inr (.inl ⟨fin, rsv, .text, rfl⟩)
  case opcBinary fin rsv => exact .inr (.inl ⟨fin, rsv, .binary, rfl⟩)
  case opcClose fin rsv => exact .inr (.inl ⟨fin, rsv, .close, rfl⟩)
  case opcPing fin rsv => exact .inr (.inl ⟨fin, rsv, .ping, rfl⟩)
  case opcPong fin rsv => exact .inr (.inl ⟨fin, rsv, .pong, rfl⟩)
  case nop | srst | txinit | enc | dec | asm | msk => exact .inl ⟨_, rfl⟩
  all_goals exact .inr (.inr (header (by simp [frameBytes])))

theorem decodeBits_byte (wire : OpcWire) (b : Byte) :
    decodeBits wire (8 * [b].length) (beNat [b]) = decodeOpcode wire b := by
  simp [decodeBits, beNat]

/-- A table word that is a command word goes to the command decoder. -/
theorem decodeBits_of_isCommandWord (wire : OpcWire) {w : BitVec 32} (h : isCommandWord 32 w.toNat = true) :
    decodeBits wire 32 w.toNat = decodeCommand w := by
  have hshort : isShortHeaderWord w.toNat = false := by simpa [isCommandWord] using h
  simp [decodeBits, hshort]

/-- A table word of a header's width that is no command word goes to the header decoder. -/
theorem decodeBits_of_header (wire : OpcWire) {bs : List Byte} (hlen : bs.length ∈ headerLengths)
    (h : isCommandWord (8 * bs.length) (beNat bs) = false) :
    decodeBits wire (8 * bs.length) (beNat bs) = decodeWholeHeader bs := by
  have hcommand : ¬ (8 * bs.length = 32 ∧ isShortHeaderWord (beNat bs) = false) := by
    rintro ⟨hwidth, hshort⟩
    rw [isCommandWord, hwidth, hshort] at h
    cases h
  have hwidth : 8 * bs.length = 16 ∨ 8 * bs.length = 32 ∨ 8 * bs.length = 48 ∨ 8 * bs.length = 64 ∨
      8 * bs.length = 80 ∨ 8 * bs.length = 112 := by
    simp only [headerLengths, List.mem_cons, List.not_mem_nil, or_false] at hlen
    omega
  rw [decodeBits, if_neg (by omega), if_neg hcommand, if_pos hwidth, Nat.mul_div_cancel_left _ (by decide),
    beBytes_beNat]

theorem decodeWholeHeader_bytes (h : Header) : decodeWholeHeader h.bytes = .ok h.row := by
  have hok : decodeHeader h.bytes = .ok (h.row, []) := decodeHeader_ok_iff.2 ⟨h, rfl, by rw [List.append_nil]⟩
  rw [decodeWholeHeader, hok]

theorem decodeBits_encode {w : OpcWire} (hw : w.Distinct) {i : Instr} (hwf : i.WellFormed) :
    decodeBits w (encode w i).1 (encode w i).2 = .ok i := by
  obtain ⟨word, hword⟩ | ⟨fin, rsv, c, rfl⟩ | ⟨h, rfl⟩ := row_kinds hwf
  · rw [encode_of_commandWord w hword]
    exact (decodeBits_of_isCommandWord w (isCommandWord_commandWord hword)).trans (decodeCommand_commandWord hword)
  · rw [encode_frameRow w (commandWord_opcodeRow fin rsv c), frameBytes_opcodeRow]
    exact (decodeBits_byte w _).trans (decodeOpcode_byte0 hw fin rsv c)
  · have hcommand := isCommandWord_frameRow w h.commandWord_row
    have hlen : h.bytes.length ∈ headerLengths := h.length_bytes ▸ hdrLen_mem _ _
    rw [h.frameBytes_row] at hcommand
    rw [encode_frameRow w h.commandWord_row, h.frameBytes_row, ← decodeWholeHeader_bytes h,
      ← decodeBits_of_header w hlen hcommand]

theorem decodeTableWord_of_ok {nbits w : Nat} {i : Instr} (h : decodeBits Config.params.opcWire nbits w = .ok i) :
    decodeTableWord nbits w = some i := by
  rw [decodeTableWord, h]

/-- Settles O1: each of the three kinds of rows goes to its own decoder, which undoes it. -/
theorem decodeOfEncodeIsTheInstruction : Obligations.DecodeOfEncodeIsTheInstruction :=
  ⟨fun _ hw _ => decodeBits_encode hw, fun _ hwf => decodeTableWord_of_ok (decodeBits_encode (by decide) hwf)⟩

/-- Settles O5, by running the decoder on each word. -/
theorem wordsOfTheTableDecode : Obligations.WordsOfTheTableDecode := by
  unfold Obligations.WordsOfTheTableDecode
  decide

/-! ### The packer and the parser (40_subunits R87 to R89) -/

theorem classOf_ne_unrecognized_iff {w : OpcWire} (hw : w.Distinct) (v : BitVec 4) :
    classOf w v ≠ unrecognized ↔ ∃ c, wireValue w c = v := by
  constructor
  · intro h
    cases hc : classNamed w v with
    | none => exact absurd (by rw [classOf, hc]) h
    | some c => exact ⟨c, wireValue_of_classNamed hc⟩
  · rintro ⟨c, rfl⟩
    rw [classOf_wireValue hw]
    cases c <;> decide

/-- Settles O8: each field is read back, and byte 0 is its three fields. -/
theorem parserUndoesPacker : Obligations.ParserUndoesPacker := by
  refine fun w hw => ⟨fun fin c => ?_, fun m sel => ?_, packB1_fields, fun b0 => ?_⟩
  · simp [parseB0, packB0, classOf_wireValue hw]
  · simp [parseB1]
  · rw [classOf_ne_unrecognized_iff hw]
    constructor
    · rintro ⟨fin, c, rfl⟩
      exact ⟨rsvOf_byte0 .., c, (opcOf_byte0 ..).symm⟩
    · rintro ⟨hrsv, c, hc⟩
      exact ⟨finOf b0, c, by rw [packB0, hc, ← hrsv, byte0_fields]⟩

theorem lenClass_inline {len : Word} (h : len.toNat < 126) : lenClass len = (len.setWidth 7, 0) := if_pos h

theorem lenClass_short {len : Word} (h : ¬ len.toNat < 126) (h' : len.toNat < 65536) : lenClass len = (126#7, 2) := by
  rw [lenClass, if_neg h, if_pos h']

theorem lenClass_long {len : Word} (h : ¬ len.toNat < 65536) : lenClass len = (127#7, 8) := by
  rw [lenClass, if_neg (by omega), if_neg h]

/-- The header row that the length class selects, for either MASK. -/
theorem headerBytes_eq_frameBytes (w : OpcWire) (fin : BitVec 1) (c : OpClass) (m : BitVec 1) (key : BitVec 32)
    (len : Word) : headerBytes w fin c m key len = frameBytes w
      (if len.toNat < 126 then
        if m = 1#1 then .f7m fin 0 (wireValue w c) (len.setWidth 7) key else .f7u fin 0 (wireValue w c) (len.setWidth 7)
      else if len.toNat < 65536 then
        if m = 1#1 then .f16m fin 0 (wireValue w c) (len.setWidth 16) key
        else .f16u fin 0 (wireValue w c) (len.setWidth 16)
      else if m = 1#1 then .f64m fin 0 (wireValue w c) len key else .f64u fin 0 (wireValue w c) len) := by
  unfold headerBytes lenExtBytes
  by_cases h7 : len.toNat < 126
  · have hsel : (len.setWidth 7).toNat ≤ 125 := by
      rw [BitVec.toNat_setWidth]
      omega
    rw [if_pos h7, lenClass_inline h7, ← Header.row_inline fin 0 (wireValue w c) m key hsel, Header.frameBytes_row]
    rfl
  by_cases h16 : len.toNat < 65536
  · have hlen : (len.setWidth 16).toNat = len.toNat := by
      rw [BitVec.toNat_setWidth]
      omega
    rw [if_neg h7, if_pos h16, lenClass_short h7 h16, ← hlen, ← Header.row_short, Header.frameBytes_row]
    rfl
  · rw [if_neg h7, if_neg h16, lenClass_long h16, ← Header.row_long, Header.frameBytes_row]
    rfl

/-- Settles O11, at either MASK. -/
theorem encoderHeaderIsAHeaderRow : Obligations.EncoderHeaderIsAHeaderRow := by
  refine fun w fin c key len => ⟨fun m => ?_, ?_, ?_⟩
  · rw [length_headerBytes, hdrLen_lenClass]
  · exact headerBytes_eq_frameBytes w fin c 0#1 key len
  · exact headerBytes_eq_frameBytes w fin c 1#1 key len

end Sys2Proof.Machine

namespace Sys2Proof.Machine

/-! ### A header at the start of the window (42_decode R110 to R117, log entry 5) -/

/-- With a valid byte the attempt reads FIN from byte 0 (42_decode R112). -/
theorem attempt_fin {wire : OpcWire} {f : Nat → Byte} {a n d : Nat} (h : 1 ≤ n) :
    (attempt wire f a n d).fin = finOf (f 0) := if_pos h

/-- With a valid byte the attempt reads the class from byte 0 (42_decode R112). -/
theorem attempt_opc {wire : OpcWire} {f : Nat → Byte} {a n d : Nat} (h : 1 ≤ n) :
    (attempt wire f a n d).opc = classOf wire (opcOf (f 0)) := if_pos h

/-- A source that begins with a header, read field by field. -/
theorem State.frameByte_header (s : State) (h : Header) (a : Nat) : let f := s.frameByte h.bytes a
    f 0 = byte0 h.fin h.rsv h.opc ∧ maskOf (f 1) = h.mask ∧ selOf (f 1) = h.sel ∧
    frameHdrLen f = h.length ∧ framePayloadLen f = h.payloadLen ∧ (h.mask = 1#1 → frameKey f = h.key) :=
  header_in_source h.length_ext (s.frameByte_given h.bytes a)

/-- The registers after an attempt at a header, each from the valid length on that makes it determinate
(42_decode R111). -/
theorem State.decodeAt_header_fields (s : State) (h : Header) (a n : Nat) : let t := s.decodeAt h.bytes a n
    (1 ≤ n → t.dFin = h.fin ∧ t.dOpc = classOf s.params.opcWire h.opc) ∧
    (2 ≤ n → t.dMask = h.mask ∧ t.dHlen.toNat = h.length) ∧
    (2 + extOf h.sel ≤ n → t.dLen = h.payloadLen) ∧
    (h.length ≤ n → h.mask = 1#1 → t.dKey = h.key) := by
  obtain ⟨h0, hmask, hsel, hlen, hpay, hkey⟩ := s.frameByte_header h a
  have hb : 2 ≤ h.length ∧ h.length ≤ 14 := hdrLen_bounds h.sel h.mask
  have hext : frameExt (s.frameByte h.bytes a) = extOf h.sel := by rw [frameExt, hsel]
  simp only [State.decodeAt_dFin, State.decodeAt_dOpc, State.decodeAt_dMask, State.decodeAt_dHlen, State.decodeAt_dLen,
    State.decodeAt_dKey]
  refine ⟨fun h1 => ?_, fun h2 => ?_, fun he => ?_, fun hH hm => ?_⟩
  · rw [attempt_fin h1, attempt_opc h1, h0, finOf_byte0, opcOf_byte0]
    exact ⟨rfl, rfl⟩
  all_goals simp only [attempt, hmask, hlen, hpay, hext]
  · rw [if_pos h2, if_pos h2, BitVec.toNat_ofNat]
    exact ⟨rfl, by omega⟩
  · rw [if_pos ⟨by omega, he⟩]
  · rw [if_pos ⟨by omega, hm, hH⟩, hkey hm]

/-- The flags an attempt at a header leaves: is the header whole, is the frame whole (42_decode R115). -/
theorem State.decodeAt_header_flags (s : State) (h : Header) (a n : Nat) :
    ((s.decodeAt h.bytes a n).status.hdrv = true ↔ h.length ≤ n) ∧
    ((s.decodeAt h.bytes a n).status.cpl = true ↔ h.length + h.payloadLen.toNat ≤ n) := by
  obtain ⟨-, -, -, hlen, hpay, -⟩ := s.frameByte_header h a
  have hb : 2 ≤ h.length := (hdrLen_bounds h.sel h.mask).1
  rw [State.decodeAt_status]
  simp only [hlen, hpay, headerValid_iff, frameComplete_iff]
  omega

/-- A header row in a window in `MEM` is an attempt at the header. -/
theorem Header.exec_row (h : Header) {s : State} (hin : s.rxBase.toNat + s.rxValid.toNat ≤ s.params.memSize) :
    exec h.row s = .next ((s.decodeAt h.bytes s.rxBase.toNat s.rxValid.toNat).finish .ok) := by
  rw [exec_frameRow _ s h.commandWord_row, h.frameBytes_row, s.decodeWindow_in _ hin]

/-- A whole frame that begins with a header: its length, its payload's place, and the payload unmasked. -/
theorem State.decodeAt_header_complete {s : State} {h : Header} {a n : Nat} (hn : n < 2 ^ 64)
    (hc : (s.decodeAt h.bytes a n).status.cpl = true) :
    (s.decodeAt h.bytes a n).dFlen.toNat = h.length + h.payloadLen.toNat ∧
    (s.decodeAt h.bytes a n).dPaddr = BitVec.ofNat 64 (a + h.length) ∧
    (h.mask = 1#1 → ∀ i, i < h.payloadLen.toNat → (s.decodeAt h.bytes a n).memRead (a + h.length + i) =
      s.memRead (a + h.length + i) ^^^ keyByte h.key i) := by
  obtain ⟨-, hmask, -, hlen, hpay, hkey⟩ := s.frameByte_header h a
  rw [State.decodeAt_cpl] at hc
  obtain ⟨-, -, -, -, -, -, hflen, hpaddr⟩ :=
    attempt_of_complete (wire := s.params.opcWire) (a := a) (d := s.draws) hc hn
  rw [hlen, hpay] at hflen
  rw [hlen] at hpaddr
  refine ⟨by rw [State.decodeAt_dFlen, hflen], by rw [State.decodeAt_dPaddr, hpaddr], fun hm i hi => ?_⟩
  rw [State.memRead_decodeAt, hmask, hlen, hpay, hkey hm, if_pos, Nat.add_sub_cancel_left]
  rw [hlen, hpay] at hc
  exact ⟨⟨hc, hm⟩, by omega, by omega⟩

/-! ### The table of the header rows (30_encoding R70) -/

namespace Header

/-! The lengths each form stands for. -/

theorem inline_lengths (fin : BitVec 1) (rsv : BitVec 3) (opc : BitVec 4) (m : BitVec 1) (key : BitVec 32)
    {len : BitVec 7} (hlen : len.toNat ≤ 125) : (inline fin rsv opc m key len hlen).length = 2 + 4 * m.toNat ∧
      extOf (inline fin rsv opc m key len hlen).sel = 0 ∧
      (inline fin rsv opc m key len hlen).payloadLen.toNat = len.toNat := by
  have hext : extOf len = 0 := if_pos hlen
  have hpay : lenDecode len [] = len.setWidth 64 := if_pos hlen
  refine ⟨by simp only [length, inline, hdrLen, hext], hext, ?_⟩
  simp only [payloadLen, inline, hpay, BitVec.toNat_setWidth]
  omega

theorem short_payloadLen (fin : BitVec 1) (rsv : BitVec 3) (opc : BitVec 4) (m : BitVec 1) (key : BitVec 32)
    (len : BitVec 16) : (short fin rsv opc m key len).payloadLen.toNat = len.toNat := by
  have hpay : (short fin rsv opc m key len).payloadLen = BitVec.ofNat 64 (beNat (beBytes 2 len.toNat)) := rfl
  rw [hpay, beNat_beBytes, BitVec.toNat_ofNat]
  omega

theorem long_payloadLen (fin : BitVec 1) (rsv : BitVec 3) (opc : BitVec 4) (m : BitVec 1) (key : BitVec 32)
    (len : BitVec 64) : (long fin rsv opc m key len).payloadLen.toNat = len.toNat :=
  congrArg BitVec.toNat (ofNat_beNat_beBytes 8 64 len (by norm_num))

end Header

/-- A header row with its `H`, MASK, extension and payload length. -/
abbrev HeaderRow := Instr × Nat × BitVec 1 × Nat × Nat

/-- The six rows of 30_encoding R70. -/
def headerRows (fin : BitVec 1) (rsv : BitVec 3) (opc : BitVec 4) (l7 : BitVec 7) (l16 : BitVec 16) (l64 : BitVec 64)
    (key : BitVec 32) : List HeaderRow :=
  [(.f7u fin rsv opc l7, 2, 0#1, 0, l7.toNat), (.f7m fin rsv opc l7 key, 6, 1#1, 0, l7.toNat),
    (.f16u fin rsv opc l16, 4, 0#1, 2, l16.toNat), (.f16m fin rsv opc l16 key, 8, 1#1, 2, l16.toNat),
    (.f64u fin rsv opc l64, 10, 0#1, 8, l64.toNat), (.f64m fin rsv opc l64 key, 14, 1#1, 8, l64.toNat)]

/-- The row without its extension, as `HeaderRowsSetTheDecodeRegisters` lists it. -/
def HeaderRow.forgetExt (r : HeaderRow) : Instr × Nat × BitVec 1 × Nat := (r.1, r.2.1, r.2.2.1, r.2.2.2.2)

section
variable {fin : BitVec 1} {rsv : BitVec 3} {opc : BitVec 4} {l7 : BitVec 7} {l16 : BitVec 16} {l64 : BitVec 64}
  {key : BitVec 32} {row : HeaderRow}

/-- The header behind a row of the table. -/
theorem exists_header_of_mem_headerRows (hrow : row ∈ headerRows fin rsv opc l7 l16 l64 key)
    (hwf : row.1.WellFormed) : ∃ h : Header, h.fin = fin ∧ h.opc = opc ∧ h.key = key ∧
      row = (h.row, h.length, h.mask, extOf h.sel, h.payloadLen.toNat) := by
  simp only [headerRows, List.mem_cons, List.not_mem_nil, or_false] at hrow
  obtain rfl | rfl | rfl | rfl | rfl | rfl := hrow
  · have hlen := f7u_wellFormed_iff.1 hwf
    obtain ⟨hH, hext, hL⟩ := Header.inline_lengths fin rsv opc 0#1 key hlen
    exact ⟨.inline fin rsv opc 0#1 key l7 hlen, rfl, rfl, rfl, by rw [Header.row_inline, hH, hext, hL]; rfl⟩
  · have hlen := f7m_wellFormed_iff.1 hwf
    obtain ⟨hH, hext, hL⟩ := Header.inline_lengths fin rsv opc 1#1 key hlen
    exact ⟨.inline fin rsv opc 1#1 key l7 hlen, rfl, rfl, rfl, by rw [Header.row_inline, hH, hext, hL]; rfl⟩
  · exact ⟨.short fin rsv opc 0#1 key l16, rfl, rfl, rfl, by rw [Header.row_short, Header.short_payloadLen]; rfl⟩
  · exact ⟨.short fin rsv opc 1#1 key l16, rfl, rfl, rfl, by rw [Header.row_short, Header.short_payloadLen]; rfl⟩
  · exact ⟨.long fin rsv opc 0#1 key l64, rfl, rfl, rfl, by rw [Header.row_long, Header.long_payloadLen]; rfl⟩
  · exact ⟨.long fin rsv opc 1#1 key l64, rfl, rfl, rfl, by rw [Header.row_long, Header.long_payloadLen]; rfl⟩

end

/-- Settles O31: each row is a header, whole in the window, and the attempt's outputs are its fields. -/
theorem headerRowsSetTheDecodeRegisters : Obligations.HeaderRowsSetTheDecodeRegisters := by
  intro s fin rsv opc l7 l16 l64 key hin row hrow hwf hH
  obtain ⟨row, hmem, rfl⟩ := (List.mem_map (l := headerRows fin rsv opc l7 l16 l64 key)
    (f := HeaderRow.forgetExt)).1 hrow
  obtain ⟨h, rfl, rfl, rfl, rfl⟩ := exists_header_of_mem_headerRows hmem hwf
  dsimp only [HeaderRow.forgetExt] at hH ⊢
  have hb : 2 ≤ h.length := (hdrLen_bounds h.sel h.mask).1
  have hext : 2 + extOf h.sel ≤ h.length := Nat.le_add_right ..
  obtain ⟨hfirst, hsecond, hlen, hkey⟩ := s.decodeAt_header_fields h s.rxBase.toNat s.rxValid.toNat
  obtain ⟨hhdrv, hcpl⟩ := s.decodeAt_header_flags h s.rxBase.toNat s.rxValid.toNat
  obtain ⟨hfin, hopc⟩ := hfirst (by omega)
  obtain ⟨hmask, hhlen⟩ := hsecond (by omega)
  refine ⟨_, h.exec_row hin, hfin, hopc, hmask, hhlen, congrArg _ (hlen (by omega)), hkey hH, rfl, hhdrv.2 hH, hcpl,
    fun hc => ?_, fun hc hm i hi => ?_⟩
  · obtain ⟨hflen, hpaddr, -⟩ := State.decodeAt_header_complete s.rxValid.isLt hc
    exact ⟨hflen, hpaddr⟩
  · obtain ⟨-, -, hpay⟩ := State.decodeAt_header_complete s.rxValid.isLt hc
    rw [keyByte_mod]
    exact hpay hm i hi

/-- Settles O54: what is valid of a cut header is read as its fields, and no frame is complete. -/
theorem headerRowsCutByTheWindow : Obligations.HeaderRowsCutByTheWindow := by
  intro s fin rsv opc l7 l16 l64 key hin row hrow hwf hH
  obtain ⟨h, rfl, rfl, rfl, rfl⟩ := exists_header_of_mem_headerRows hrow hwf
  dsimp only at hH ⊢
  obtain ⟨hfirst, hsecond, hlen, -⟩ := s.decodeAt_header_fields h s.rxBase.toNat s.rxValid.toNat
  obtain ⟨hhdrv, hcpl⟩ := s.decodeAt_header_flags h s.rxBase.toNat s.rxValid.toNat
  have hcut : (s.decodeAt h.bytes s.rxBase.toNat s.rxValid.toNat).status.cpl = false :=
    Bool.eq_false_iff.2 fun hc => by have := hcpl.1 hc; omega
  exact ⟨_, h.exec_row hin, rfl, Bool.eq_false_iff.2 fun hv => Nat.not_le.2 hH (hhdrv.1 hv), hcut,
    State.mem_decodeAt_of_registers s.rxValid.isLt (.inl hcut), hfirst, hsecond, fun he => congrArg _ (hlen he)⟩

/-! ### A byte 0 at the start of the window (30_encoding R72, R73) -/

/-- A class row in a window in `MEM` with a valid byte. -/
theorem exec_opcodeRow {s : State} (hw : s.params.opcWire.Distinct)
    (hin : s.rxBase.toNat + s.rxValid.toNat ≤ s.params.memSize) (hvalid : 1 ≤ s.rxValid.toNat) (fin : BitVec 1)
    (rsv : BitVec 3) (c : OpClass) : ∃ t, exec (opcodeRow fin rsv c) s = .next t ∧
      t.dFin = fin ∧ t.dOpc = classCode c ∧ t.status.code = 0 := by
  rw [exec_frameRow _ s (commandWord_opcodeRow fin rsv c), frameBytes_opcodeRow, s.decodeWindow_in _ hin]
  have hbyte : s.frameByte [byte0 fin rsv (wireValue s.params.opcWire c)] s.rxBase.toNat 0 =
      byte0 fin rsv (wireValue s.params.opcWire c) := rfl
  refine ⟨_, rfl, ?_, ?_, rfl⟩
  · rw [State.finish_dFin, State.decodeAt_dFin, attempt_fin hvalid, hbyte, finOf_byte0]
  · rw [State.finish_dOpc, State.decodeAt_dOpc, attempt_opc hvalid, hbyte, opcOf_byte0, classOf_wireValue hw]

/-- Settles O32: the six rows are those of the six classes. -/
theorem opcodeRowsSetFinAndClass : Obligations.OpcodeRowsSetFinAndClass := by
  intro s fin rsv hw hin hvalid row hrow
  obtain ⟨c, -, rfl⟩ := (List.mem_map (l := [OpClass.continuation, .text, .binary, .close, .ping, .pong])
    (f := fun c => (opcodeRow fin rsv c, classCode c))).1 hrow
  exact exec_opcodeRow hw hin hvalid fin rsv c

end Sys2Proof.Machine

namespace Sys2Proof.Machine

/-! ### The length serializer and deserializer (40_subunits R83, R85) -/

/-- The number of extension bytes, by the range of the length. -/
theorem lenClass_ext (len : Word) :
    (lenClass len).2 = if len.toNat < 126 then 0 else if len.toNat < 65536 then 2 else 8 := by
  unfold lenClass
  split_ifs <;> rfl

/-- Settles O6: one form for each of the three ranges, and the extension tells the range. -/
theorem lengthFormIsTheSmallest : Obligations.LengthFormIsTheSmallest := by
  intro len
  refine ⟨lenClass_inline, fun h => lenClass_short (by omega), fun h => lenClass_long (by omega), ?_⟩
  have hext := lenClass_ext len
  split_ifs at hext <;> omega

theorem extOf_inline {sel : BitVec 7} (h : sel.toNat ≤ 125) : extOf sel = 0 := if_pos h

theorem lenDecode_inline {sel : BitVec 7} (h : sel.toNat ≤ 125) (e : List Byte) :
    lenDecode sel e = sel.setWidth 64 := if_pos h

/-- An extension of up to 8 bytes is read as the number it spells, minimal or not. -/
theorem toNat_lenDecode_extended {sel : BitVec 7} (h : 125 < sel.toNat) {e : List Byte} (he : e.length ≤ 8) :
    (lenDecode sel e).toNat = beNat e := by
  have hlt : beNat e < 2 ^ 64 := (beNat_lt e).trans_le (Nat.pow_le_pow_right (by norm_num) he)
  rw [lenDecode, if_neg (by omega), BitVec.toNat_ofNat, Nat.mod_eq_of_lt hlt]

/-- Settles O7: the round trip, the inline selectors, and the two extensions as big-endian numbers. -/
theorem lengthSerializerRoundTrip : Obligations.LengthSerializerRoundTrip := by
  refine ⟨lenDecode_lenExtBytes, fun sel e h => ⟨extOf_inline h, lenDecode_inline h e⟩,
    ⟨rfl, fun e0 e1 => ?_⟩, rfl, fun e0 e1 e2 e3 e4 e5 e6 e7 => ?_⟩
  · rw [toNat_lenDecode_extended (by decide) (by simp)]
    simp [beNat]
  · rw [toNat_lenDecode_extended (by decide) (by simp)]
    simp only [beNat, List.foldl_cons, List.foldl_nil]
    omega

/-! ### The laws of masking (40_subunits R90, R91) -/

/-- XOR with the same key byte twice gives the byte back. -/
theorem xor_keyByte_twice (b : Byte) (key : BitVec 32) (i : Nat) : b ^^^ keyByte key i ^^^ keyByte key i = b := by
  rw [BitVec.xor_assoc, BitVec.xor_self, BitVec.xor_zero]

@[simp] theorem keyByte_zero (i : Nat) : keyByte 0#32 i = 0#8 := by simp [keyByte]

/-- Key bytes are numbered modulo 4. -/
theorem keyByte_congr (key : BitVec 32) {i j : Nat} (h : i % 4 = j % 4) : keyByte key i = keyByte key j := by
  rw [← keyByte_mod key i, h, keyByte_mod]

/-- The rotated key is the key read from byte `j` on (R91 d). -/
theorem keyByte_rotKey (key : BitVec 32) (j t : Nat) : keyByte (rotKey key j) t = keyByte key (t + j) := by
  obtain ⟨h0, h1, h2, h3⟩ :=
    keyByte_packKey (keyByte key j) (keyByte key (1 + j)) (keyByte key (2 + j)) (keyByte key (3 + j))
  have hrot : ∀ r < 4, keyByte (rotKey key j) r = keyByte key (r + j) := by
    intro r hr
    interval_cases r
    · rw [Nat.zero_add]; exact h0
    · exact h1
    · exact h2
    · exact h3
  rw [← keyByte_mod, hrot _ (Nat.mod_lt _ (by norm_num))]
  exact keyByte_congr key (by omega)

/-- Masking goes on at the key index where the first piece ended. -/
theorem maskFrom_append (key : BitVec 32) (i : Nat) (d1 d2 : List Byte) :
    maskFrom key i (d1 ++ d2) = maskFrom key i d1 ++ maskFrom key (i + d1.length) d2 := by
  induction d1 generalizing i with
  | nil => rfl
  | cons b d1 ih =>
    have hidx : i + 1 + d1.length = i + (d1.length + 1) := by omega
    simp only [List.cons_append, maskFrom, ih, List.length_cons, hidx]

/-- Masking from key index `i` on is masking with the key rotated by `i`. -/
theorem maskFrom_eq_xorMask_rotKey (key : BitVec 32) (i : Nat) (d : List Byte) :
    maskFrom key i d = xorMask (rotKey key (i % 4)) d := by
  refine List.ext_getElem (by simp) fun j hj _ => ?_
  have hd : j < d.length := by simpa using hj
  rw [getElem_maskFrom (h' := hd), getElem_xorMask (h' := hd), keyByte_rotKey]
  exact congrArg _ (keyByte_congr key (by omega))

theorem xorMask_append (key : BitVec 32) (d1 d2 : List Byte) :
    xorMask key (d1 ++ d2) = xorMask key d1 ++ xorMask (rotKey key (d1.length % 4)) d2 := by
  rw [xorMask, maskFrom_append, Nat.zero_add, maskFrom_eq_xorMask_rotKey key d1.length]
  rfl

theorem xorMask_xorMask (key : BitVec 32) (d : List Byte) : xorMask key (xorMask key d) = d := by
  refine List.ext_getElem (by simp) fun i _ hi => ?_
  rw [getElem_xorMask (h' := by simpa using hi), getElem_xorMask (h' := hi), xor_keyByte_twice]

theorem xorMask_zero (d : List Byte) : xorMask 0#32 d = d := by
  refine List.ext_getElem (by simp) fun i _ hi => ?_
  rw [getElem_xorMask (h' := hi), keyByte_zero, BitVec.xor_zero]

/-- Settles O9: byte `i` is XORed with key byte `i`, which is entry `i mod 4` of the key's four bytes. -/
theorem maskingXorsByteWise : Obligations.MaskingXorsByteWise := by
  refine fun key d => ⟨length_xorMask key d, fun i h => ?_⟩
  have hi : i < (xorMask key d).length := by rwa [length_xorMask]
  rw [keyBytes_getD, List.getElem?_eq_getElem hi, getElem_xorMask (h' := h)]

/-- Settles O10, law by law. -/
theorem maskingLaws : Obligations.MaskingLaws :=
  ⟨xorMask_xorMask, fun key d => ⟨length_xorMask key d, rfl⟩, xorMask_zero, xorMask_append, keyByte_rotKey⟩

/-! ### The masking command (40_subunits R92) -/

/-- Settles O39: the command is the in-place masking of its region, ended with success. -/
theorem maskCommandXorsTheRegion : Obligations.MaskCommandXorsTheRegion := by
  refine fun s h => ⟨_, execMsk_in s h, ?_, fun i hi => ?_, fun a ha => ?_⟩
  · simp only [State.finish, Status.finish_ok, State.maskRegion_status]
    rfl
  · rw [State.memRead_finish, State.memRead_maskRegion, if_pos (by omega), Nat.add_sub_cancel_left, keyByte_mod]
  · rw [State.memRead_finish, State.memRead_maskRegion, if_neg (by omega)]

/-- Settles O40: the region is refused with `E_WINDOW` alone. -/
theorem maskCommandWindowError : Obligations.MaskCommandWindowError :=
  execMsk_out

/-- In-place masking is its own inverse, also when the first one's command has ended in between. -/
theorem State.memRead_maskRegion_twice (s : State) (c : Completion) (key : BitVec 32) (a n a' : Nat) :
    (((s.maskRegion key a n).finish c).maskRegion key a n).memRead a' = s.memRead a' := by
  rw [State.memRead_maskRegion, State.memRead_finish, State.memRead_maskRegion]
  split_ifs
  · rw [xor_keyByte_twice]
  · rfl

/-- Settles O41: `MSK` leaves its operands, so the second one masks the same region, or refuses it, as the first did. -/
theorem maskCommandTwiceRestores : Obligations.MaskCommandTwiceRestores := by
  intro s t u hs ht a
  by_cases h : s.eLen.toNat = 0 ∨ s.eSrc.toNat + s.eLen.toNat ≤ s.params.memSize
  · cases hs.symm.trans (execMsk_in s h)
    cases ht.symm.trans (execMsk_in _ h)
    exact s.memRead_maskRegion_twice .ok s.eKey s.eSrc.toNat s.eLen.toNat a
  · obtain ⟨hlen, hout⟩ : 0 < s.eLen.toNat ∧ s.params.memSize < s.eSrc.toNat + s.eLen.toNat := by omega
    cases hs.symm.trans (execMsk_out s hlen hout)
    cases ht.symm.trans (execMsk_out _ hlen hout)
    rfl

end Sys2Proof.Machine

namespace Sys2Proof.Machine

/-! ### The checks of `ENC`, each by its condition (41_encode R95 to R100, 60_exceptions R155) -/

theorem exec_enc (s : State) : exec .enc s = execEnc s := rfl

theorem execEnc_abandoned {s : State} (htxab : s.status.txab = true) : execEnc s = .next (s.finish .abandoned) :=
  if_pos htxab

theorem execEnc_opcode {s : State} (htxab : s.status.txab = false) (hopc : 6 ≤ s.eOpc.toNat) :
    execEnc s = .next (s.finish .opcode) := by
  simp only [execEnc, htxab, (classOfCode_eq_none_iff _).2 hopc, Bool.false_eq_true, if_false]

section
variable {s : State} {c : OpClass} (htxab : s.status.txab = false) (hclass : classOfCode s.eOpc = some c)
include htxab hclass

/-- What is left of `ENC` once the frame can be begun: the checks of the two windows. -/
theorem execEnc_of_class : execEnc s =
    if s.encWindowOk = false then .next (s.finish .window)
    else if s.encRem < s.encFrameLen then .next (s.capacityFailure.finish .capacity)
    else if s.encSourceOk = false then .next (s.finish .window)
    else if s.encOverlap then .next (s.finish .overlap)
    else .next ((s.writeFrame c).finish .ok) := by
  simp only [execEnc, htxab, hclass, Bool.false_eq_true, if_false]

theorem execEnc_window (hout : s.params.memSize < s.txBase.toNat + s.txCap.toNat ∨ s.txCap.toNat < s.txWptr.toNat) :
    execEnc s = .next (s.finish .window) := by
  rw [execEnc_of_class htxab hclass, if_pos]
  rw [Bool.eq_false_iff, Ne, State.encWindowOk_iff]
  omega

variable (hdst : s.txBase.toNat + s.txCap.toNat ≤ s.params.memSize)
include hdst

theorem execEnc_capacity (hcur : s.txWptr.toNat ≤ s.txCap.toNat) (hrem : s.encRem < s.encFrameLen) :
    execEnc s = .next (s.capacityFailure.finish .capacity) := by
  have hwindow : s.encWindowOk ≠ false := Bool.ne_false_iff.2 (s.encWindowOk_iff.2 ⟨hdst, hcur⟩)
  rw [execEnc_of_class htxab hclass, if_neg hwindow, if_pos hrem]

variable (hfit : s.txWptr.toNat + s.encFrameLen ≤ s.txCap.toNat)
include hfit

/-- What is left of `ENC` once the frame fits: the checks of the source. -/
theorem execEnc_of_fit : execEnc s =
    if s.encSourceOk = false then .next (s.finish .window)
    else if s.encOverlap then .next (s.finish .overlap)
    else .next ((s.writeFrame c).finish .ok) := by
  have hwindow : s.encWindowOk ≠ false := Bool.ne_false_iff.2 (s.encWindowOk_iff.2 ⟨hdst, by omega⟩)
  have hrem : ¬ s.encRem < s.encFrameLen := by
    unfold State.encRem
    omega
  rw [execEnc_of_class htxab hclass, if_neg hwindow, if_neg hrem]

theorem execEnc_source (hlen : 0 < s.eLen.toNat) (hout : s.params.memSize < s.eSrc.toNat + s.eLen.toNat) :
    execEnc s = .next (s.finish .window) := by
  rw [execEnc_of_fit htxab hclass hdst hfit, if_pos]
  rw [Bool.eq_false_iff, Ne, State.encSourceOk_iff]
  omega

theorem execEnc_overlap (hlen : 0 < s.eLen.toNat) (hin : s.eSrc.toNat + s.eLen.toNat ≤ s.params.memSize)
    (hbelow : s.eSrc.toNat < s.encDst + s.encFrameLen) (habove : s.encDst < s.eSrc.toNat + s.eLen.toNat) :
    execEnc s = .next (s.finish .overlap) := by
  have hsource : s.encSourceOk ≠ false := Bool.ne_false_iff.2 (s.encSourceOk_iff.2 (.inr hin))
  have hoverlap : s.encOverlap = true := s.encOverlap_iff.2 ⟨hlen, hbelow, habove⟩
  rw [execEnc_of_fit htxab hclass hdst hfit, if_neg hsource, if_pos hoverlap]

theorem execEnc_frame (hsrc : s.eLen.toNat = 0 ∨ s.eSrc.toNat + s.eLen.toNat ≤ s.params.memSize ∧
    (s.eSrc.toNat + s.eLen.toNat ≤ s.encDst ∨ s.encDst + s.encFrameLen ≤ s.eSrc.toNat)) :
    execEnc s = .next ((s.writeFrame c).finish .ok) := by
  have hsource : s.encSourceOk ≠ false := Bool.ne_false_iff.2 (s.encSourceOk_iff.2 (hsrc.imp_right And.left))
  have hoverlap : ¬ s.encOverlap = true := by
    rw [State.encOverlap_iff]
    omega
  rw [execEnc_of_fit htxab hclass hdst hfit, if_neg hsource, if_neg hoverlap]

end

/-- Settles O21: a refusal is the completion code alone, and each clause says which check is the first to fail. -/
theorem encodeChecksInOrder : Obligations.EncodeChecksInOrder := by
  intro s
  have class_of_lt : s.eOpc.toNat < 6 → ∃ c, classOfCode s.eOpc = some c := (classOfCode_isSome_iff _).2
  refine ⟨execEnc_abandoned, execEnc_opcode, fun htxab hopc hout => ?_, fun htxab hopc hdst hfit hlen hout => ?_,
    fun htxab hopc hdst hfit hlen hin hbelow habove => ?_⟩ <;> obtain ⟨c, hclass⟩ := class_of_lt hopc
  · exact execEnc_window htxab hclass hout
  · exact execEnc_source htxab hclass hdst hfit hlen hout
  · exact execEnc_overlap htxab hclass hdst hfit hlen hin hbelow habove

/-! ### The bytes a capacity failure spoils (41_encode R98) -/

theorem State.memRead_capacityFailure_spoiled (s : State) {k : Nat} (hk : k < min s.encHdrLen s.encRem) :
    s.capacityFailure.memRead (s.encDst + k) = Config.any 8 (s.draws + k) := by
  rw [State.memRead, State.capacityFailure_mem, Memory.read_storeBytes_inside _ _ _ (by simpa using hk),
    getElem_anyBytes]

theorem State.memRead_capacityFailure_outside (s : State) {a : Nat}
    (h : a < s.encDst ∨ s.encDst + min s.encHdrLen s.encRem ≤ a) : s.capacityFailure.memRead a = s.memRead a := by
  rw [State.memRead, State.capacityFailure_mem, Memory.read_storeBytes_outside _ _ _ (by simpa using h)]
  rfl

/-- A capacity failure writes memory, `TXAB`, `CODE` and its `STICKY` bit, and draws its spoiled bytes. -/
theorem State.capacityFailure_finish_eq (s : State) :
    let t := s.capacityFailure.finish .capacity
    t = { s with
      mem := t.mem, draws := t.draws,
      status := { s.status with code := 1, txab := true, sticky := s.status.sticky ||| 1 } } := by
  simp only [State.finish, State.capacityFailure, State.scramble, State.writeBytes]
  rfl

/-- Settles O20: the command ends with the capacity failure, whose spoiled bytes are the draws. -/
theorem capacityFailureEffects : Obligations.CapacityFailureEffects := by
  intro s c htxab hclass hdst hcur hrem
  exact ⟨_, execEnc_capacity htxab hclass hdst hcur hrem, s.capacityFailure_finish_eq,
    fun _ => s.memRead_capacityFailure_spoiled, fun _ => s.memRead_capacityFailure_outside⟩

/-- Settles O22: a refusal writes no byte, and what a capacity failure or a frame writes begins at the cursor. -/
theorem encodeKeepsEarlierFrames : Obligations.EncodeKeepsEarlierFrames := by
  intro s t h a ha
  rw [exec_enc] at h
  obtain ⟨e, -, he⟩ | ⟨-, -, -, he⟩ | ⟨c, -, -, -, -, -, -, he⟩ := execEnc_cases s <;> cases h.symm.trans he
  · rfl
  · exact s.memRead_capacityFailure_outside (.inl ha)
  · exact s.memRead_writeFrame_outside c (.inl ha)

/-! ### A frame that fits (41_encode R101 to R103) -/

@[simp] theorem State.readBytes_finish (s : State) (e : Completion) (a n : Nat) :
    (s.finish e).readBytes a n = s.readBytes a n := State.readBytes_congr fun _ _ => rfl

section
variable {s : State} (c : OpClass)

theorem State.toNat_writeFrame_eHlen : (s.writeFrame c).eHlen.toNat = s.encHdrLen := by
  have hb := s.encHdrLen_bounds
  rw [State.writeFrame_eHlen, BitVec.toNat_ofNat, Nat.mod_eq_of_lt (by omega)]

theorem State.toNat_writeFrame_eFlen (hfit : s.txWptr.toNat + s.encFrameLen ≤ s.txCap.toNat) :
    (s.writeFrame c).eFlen.toNat = s.encFrameLen := by
  have hcap := s.txCap.isLt
  rw [State.writeFrame_eFlen, BitVec.toNat_ofNat, Nat.mod_eq_of_lt (by omega)]

theorem State.toNat_writeFrame_txWptr (hfit : s.txWptr.toNat + s.encFrameLen ≤ s.txCap.toNat) :
    (s.writeFrame c).txWptr.toNat = s.txWptr.toNat + s.encFrameLen := by
  have hcap := s.txCap.isLt
  rw [State.writeFrame_txWptr, BitVec.toNat_ofNat, Nat.mod_eq_of_lt (by omega)]

theorem State.readBytes_writeFrame_header : (s.writeFrame c).readBytes s.encDst s.encHdrLen =
    headerBytes s.params.opcWire s.eFin c s.eMask s.eKey s.eLen := by
  refine List.ext_getElem ?_ fun k hk hk' => ?_
  · rw [State.length_readBytes, length_headerBytes]
    rfl
  · rw [State.getElem_readBytes]
    exact State.memRead_writeFrame_header s c (by simpa using hk) hk'

end

/-- A frame that ends with success writes memory, the results of `ENC`, the cursor and `CODE`. -/
theorem State.writeFrame_finish_eq (s : State) (c : OpClass) :
    let t := (s.writeFrame c).finish .ok
    t = { s with
      mem := t.mem, eHlen := t.eHlen, eFlen := t.eFlen, txWptr := t.txWptr,
      status := { s.status with code := 0 } } := by
  simp only [State.finish, Status.finish_ok, State.writeFrame, State.writeBytes]
  rfl

/-- Settles O19: the command ends with the frame, which has its header, its payload and its results. -/
theorem encodeWritesTheFrame : Obligations.EncodeWritesTheFrame := by
  intro s c htxab hclass hdst hfit hsrc
  refine ⟨(s.writeFrame c).finish .ok, execEnc_frame htxab hclass hdst hfit hsrc, s.writeFrame_finish_eq c,
    State.toNat_writeFrame_eHlen c, State.toNat_writeFrame_eFlen c hfit, State.toNat_writeFrame_txWptr c hfit, ?_, ?_,
    fun i hi => ?_, fun a => s.memRead_writeFrame_outside c⟩
  · calc (((s.writeFrame c).finish .ok).readReg .txRem).toNat
        = (s.writeFrame c).txCap.toNat - (s.writeFrame c).txWptr.toNat := State.toNat_txRem _
      _ = s.txCap.toNat - (s.txWptr.toNat + s.encFrameLen) := by
        rw [State.toNat_writeFrame_txWptr c hfit, State.writeFrame_txCap]
  · rw [State.readBytes_finish, State.readBytes_writeFrame_header]
  · rw [State.memRead_finish, s.memRead_writeFrame_payload c hi, keyByte_mod]
    rfl

/-! ### A frame met by the decoder (41_encode R106 (c), 42_decode R120) -/

/-- The header that `ENC` writes, by its fields. -/
def State.encHeader (s : State) (c : OpClass) : Header where
  fin := s.eFin
  rsv := 0
  opc := wireValue s.params.opcWire c
  mask := s.eMask
  sel := (lenClass s.eLen).1
  ext := lenExtBytes s.eLen
  key := s.eKey
  length_ext := by rw [length_lenExtBytes, extOf_lenClass]

section
variable (s : State) (c : OpClass)

theorem State.encHeader_bytes :
    (s.encHeader c).bytes = headerBytes s.params.opcWire s.eFin c s.eMask s.eKey s.eLen := rfl

theorem State.encHeader_length : (s.encHeader c).length = s.encHdrLen := s.encHdrLen_eq.symm

theorem State.encHeader_payloadLen : (s.encHeader c).payloadLen = s.eLen := lenDecode_lenExtBytes s.eLen

end

section
variable {s r : State} {c : OpClass} {n : Nat} (hmem : r.mem = (s.writeFrame c).mem)
include hmem

/-- An attempt where a frame of `ENC` lies is an attempt at its header. -/
theorem State.decodeAt_encHeader : r.decodeAt [] s.encDst n = r.decodeAt (s.encHeader c).bytes s.encDst n := by
  have hread : r.readBytes s.encDst (s.encHeader c).bytes.length = (s.encHeader c).bytes := by
    rw [Header.length_bytes, State.encHeader_length, State.encHeader_bytes, ← State.readBytes_writeFrame_header]
    exact State.readBytes_congr fun _ _ => congrArg (Memory.read · _) hmem
  unfold State.decodeAt
  rw [State.frameByte_of_memory r _ _ hread]

variable (hn : s.encFrameLen ≤ n)
include hn

/-- `DEC` finds the frame whole. -/
theorem State.decodeAt_frame_flags :
    (r.decodeAt [] s.encDst n).status.hdrv = true ∧ (r.decodeAt [] s.encDst n).status.cpl = true := by
  obtain ⟨hhdrv, hcpl⟩ := r.decodeAt_header_flags (s.encHeader c) s.encDst n
  rw [s.encHeader_length, s.encHeader_payloadLen] at hcpl
  rw [s.encHeader_length] at hhdrv
  rw [State.decodeAt_encHeader hmem]
  exact ⟨hhdrv.2 (le_trans (Nat.le_add_right ..) hn), hcpl.2 hn⟩

/-- `DEC` reads the operands of `ENC` back from the header. -/
theorem State.decodeAt_frame_fields : let u := r.decodeAt [] s.encDst n
    u.dFin = s.eFin ∧ u.dOpc = classOf r.params.opcWire (wireValue s.params.opcWire c) ∧ u.dMask = s.eMask ∧
    (s.eMask = 1#1 → u.dKey = s.eKey) ∧ u.dLen = s.eLen ∧ u.dHlen.toNat = s.encHdrLen := by
  have hb := s.encHdrLen_bounds
  have hH : s.encHdrLen ≤ n := le_trans (Nat.le_add_right ..) hn
  have hext : 2 + extOf (s.encHeader c).sel ≤ s.encHdrLen := s.encHeader_length c ▸ Nat.le_add_right ..
  obtain ⟨hfirst, hsecond, hlen, hkey⟩ := r.decodeAt_header_fields (s.encHeader c) s.encDst n
  rw [s.encHeader_length] at hsecond hkey
  rw [s.encHeader_payloadLen] at hlen
  obtain ⟨hfin, hopc⟩ := hfirst (by omega)
  obtain ⟨hmask, hhlen⟩ := hsecond (by omega)
  rw [State.decodeAt_encHeader hmem]
  exact ⟨hfin, hopc, hmask, hkey hH, hlen (by omega), hhlen⟩

variable (hn' : n < 2 ^ 64)
include hn'

/-- `DEC` finds the payload behind the header, and the frame's end behind the payload. -/
theorem State.decodeAt_frame_place : let u := r.decodeAt [] s.encDst n
    u.dFlen.toNat = s.encFrameLen ∧ u.dPaddr = BitVec.ofNat 64 (s.encDst + s.encHdrLen) := by
  obtain ⟨-, hcpl⟩ := State.decodeAt_frame_flags hmem hn
  rw [State.decodeAt_encHeader hmem] at hcpl ⊢
  obtain ⟨hflen, hpaddr, -⟩ := State.decodeAt_header_complete hn' hcpl
  rw [s.encHeader_length] at hflen hpaddr
  rw [s.encHeader_payloadLen] at hflen
  exact ⟨hflen, hpaddr⟩

/-- `DEC` undoes the masking of `ENC`: the payload is the source again. -/
theorem State.memRead_decodeAt_frame_payload {i : Nat} (hi : i < s.eLen.toNat) :
    (r.decodeAt [] s.encDst n).memRead (s.encDst + s.encHdrLen + i) = s.memRead (s.eSrc.toNat + i) := by
  have hwire : r.memRead (s.encDst + s.encHdrLen + i) = (s.writeFrame c).memRead (s.encDst + s.encHdrLen + i) :=
    congrArg (Memory.read · _) hmem
  rw [s.memRead_writeFrame_payload c hi] at hwire
  by_cases hm : s.eMask = 1#1
  · obtain ⟨-, hcpl⟩ := State.decodeAt_frame_flags hmem hn
    rw [State.decodeAt_encHeader hmem] at hcpl ⊢
    obtain ⟨-, -, hpay⟩ := State.decodeAt_header_complete hn' hcpl
    rw [s.encHeader_length, s.encHeader_payloadLen] at hpay
    rw [hpay hm i hi, hwire, if_pos hm]
    exact xor_keyByte_twice _ s.eKey i
  · obtain ⟨-, -, hmask, -⟩ := State.decodeAt_frame_fields hmem hn
    have hclear : (r.decodeAt [] s.encDst n).dMask = 0 := hmask.trans ((bit_cases s.eMask).resolve_right hm)
    rw [if_neg hm] at hwire
    rw [State.memRead, State.mem_decodeAt_of_registers hn' (.inr hclear)]
    exact hwire

end

theorem Completion.code_eq_zero_iff {e : Completion} : e.code = 0 ↔ e = .ok := by
  cases e <;> decide

/-- An `ENC` that ends with `CODE` 0 has written a frame that fits. -/
theorem execEnc_of_code_zero {s t : State} (h : execEnc s = .next t) (hcode : t.status.code = 0) :
    ∃ c, classOfCode s.eOpc = some c ∧ s.txWptr.toNat + s.encFrameLen ≤ s.txCap.toNat ∧
      t = (s.writeFrame c).finish .ok := by
  obtain ⟨e, hmem, he⟩ | ⟨-, -, -, he⟩ | ⟨c, -, hclass, hwindow, hfit, -, -, he⟩ := execEnc_cases s <;>
    cases h.symm.trans he
  · cases Completion.code_eq_zero_iff.1 hcode
    exact absurd hmem (by decide)
  · cases (Completion.code_eq_zero_iff (e := .capacity)).1 hcode
  · obtain ⟨-, hcur⟩ := s.encWindowOk_iff.1 hwindow
    unfold State.encRem at hfit
    exact ⟨c, hclass, by omega, rfl⟩

/-- Settles O30: `ENC` has written a frame, and `DEC` is one attempt where it lies. -/
theorem encodeThenDecodeRoundTrip : Obligations.EncodeThenDecodeRoundTrip := by
  intro s t valid hparams henc hcode hvalid hin
  obtain ⟨-, hmemSize, hwire⟩ := hparams
  obtain ⟨c, hclass, hfit, rfl⟩ := execEnc_of_code_zero henc hcode
  rw [State.finish_eFlen, State.toNat_writeFrame_eFlen c hfit] at hvalid
  have hbase : (BitVec.ofNat 64 s.encDst).toNat = s.encDst := by
    have hb := s.encHdrLen_bounds
    have hflen : s.encFrameLen = s.encHdrLen + s.eLen.toNat := rfl
    rw [BitVec.toNat_ofNat, Nat.mod_eq_of_lt (by omega)]
  rw [exec_dec, State.decodeWindow_in _ _ (hbase.symm ▸ hin)]
  dsimp only
  rw [hbase]
  have hmem : State.mem { (s.writeFrame c).finish .ok with rxBase := BitVec.ofNat 64 s.encDst, rxValid := valid } =
      (s.writeFrame c).mem := rfl
  have hclassOf : classOf s.params.opcWire (wireValue s.params.opcWire c) = s.eOpc :=
    (classOf_wireValue hwire c).trans (classCode_of_classOfCode hclass)
  obtain ⟨hhdrv, hcpl⟩ := State.decodeAt_frame_flags hmem hvalid
  obtain ⟨hfin, hopc, hmask, hkey, hlen, hhlen⟩ := State.decodeAt_frame_fields hmem hvalid
  obtain ⟨hflen, hpaddr⟩ := State.decodeAt_frame_place hmem hvalid valid.isLt
  have heHlen : ((s.writeFrame c).finish .ok).eHlen.toNat = s.encHdrLen := State.toNat_writeFrame_eHlen c
  have heFlen : ((s.writeFrame c).finish .ok).eFlen.toNat = s.encFrameLen := State.toNat_writeFrame_eFlen c hfit
  refine ⟨_, rfl, rfl, hcpl, hhdrv, hfin, hopc.trans hclassOf, hmask, hkey, hlen,
    BitVec.eq_of_toNat_eq (hhlen.trans heHlen.symm), BitVec.eq_of_toNat_eq (hflen.trans heFlen.symm), ?_,
    heHlen.symm ▸ hpaddr⟩
  rw [heHlen]
  refine List.ext_getElem (by simp) fun i hi _ => ?_
  rw [State.getElem_readBytes, State.getElem_readBytes]
  exact State.memRead_decodeAt_frame_payload hmem hvalid valid.isLt (by simpa using hi)

end Sys2Proof.Machine

namespace Sys2Proof.Machine

/-! ### The receive window (42_decode R108, R109) -/

/-- Settles O26: `DEC` and `ASM` make the same window check and refuse alike. -/
theorem receiveWindowError : Obligations.ReceiveWindowError := by
  intro s hout
  have hclear : s.clearDecodeFlags.finish .window = { s with status :=
      { s.status with code := 4, cpl := false, hdrv := false, sticky := s.status.sticky ||| 8 } } := rfl
  rw [← hclear]
  exact ⟨congrArg _ (s.decodeWindow_out [] hout), execAsm_out s hout⟩

/-- Settles O33: the bytes the row brings are those the attempt reads from `MEM`. -/
theorem decRunsTheFrameRowInTheWindow : Obligations.DecRunsTheFrameRowInTheWindow := by
  intro s i hmem hrow
  rw [exec_frameRow i s hrow, exec_dec, s.decodeWindow_of_memory hmem]

@[simp] theorem State.decodeWindow_rxBase (s : State) (given : List Byte) :
    (s.decodeWindow given).rxBase = s.rxBase := by
  unfold State.decodeWindow
  split <;> simp

@[simp] theorem State.decodeWindow_rxValid (s : State) (given : List Byte) :
    (s.decodeWindow given).rxValid = s.rxValid := by
  unfold State.decodeWindow
  split <;> simp

/-- Only an attempt sets `CPL`: with it set, the window lies in `MEM`. -/
theorem State.decodeWindow_of_cpl {s : State} {given : List Byte} (hc : (s.decodeWindow given).status.cpl = true) :
    s.rxBase.toNat + s.rxValid.toNat ≤ s.params.memSize ∧
      s.decodeWindow given = (s.decodeAt given s.rxBase.toNat s.rxValid.toNat).finish .ok := by
  obtain hout | hin := Nat.lt_or_ge s.params.memSize (s.rxBase.toNat + s.rxValid.toNat)
  · rw [s.decodeWindow_out given hout] at hc
    exact Bool.noConfusion hc
  · exact ⟨hin, s.decodeWindow_in given hin⟩

/-! ### The determinacy table, row by row (42_decode R111 to R115) -/

section
variable {wire : OpcWire} {f : Nat → Byte} {a n d : Nat}

theorem attempt_mask (h2 : 2 ≤ n) : (attempt wire f a n d).mask = maskOf (f 1) := if_pos h2

theorem attempt_hlen (h2 : 2 ≤ n) : (attempt wire f a n d).hlen = BitVec.ofNat 4 (frameHdrLen f) := if_pos h2

theorem toNat_attempt_hlen (h2 : 2 ≤ n) : (attempt wire f a n d).hlen.toNat = frameHdrLen f := by
  have hb := frameHdrLen_bounds f
  rw [attempt_hlen h2, BitVec.toNat_ofNat]
  omega

theorem attempt_len (h2 : 2 ≤ n) (hext : 2 + frameExt f ≤ n) : (attempt wire f a n d).len = framePayloadLen f :=
  if_pos ⟨h2, hext⟩

theorem attempt_key (hm : maskOf (f 1) = 1#1) (hH : frameHdrLen f ≤ n) : (attempt wire f a n d).key = frameKey f :=
  if_pos ⟨(frameHdrLen_bounds f).1.trans hH, hm, hH⟩

end

/-- Settles O24: the table's rows on the bytes of the window, and the frame of a successful attempt. -/
theorem decodeDeterminateOutputs : Obligations.DecodeDeterminateOutputs := by
  intro s f hin hf
  obtain rfl : f = s.frameByte [] s.rxBase.toNat := funext hf
  rw [exec_dec, s.decodeWindow_in [] hin]
  refine ⟨_, rfl, fun h1 => ⟨?_, ?_⟩, fun h2 => ⟨?_, ?_⟩, fun hext h2 => ?_, fun _ hm hH => ?_, ?_, ?_,
    fun hc => ⟨?_, ?_⟩, s.decodeAt_finish_eq _ _ _⟩
  · exact (s.decodeAt_dFin ..).trans (attempt_fin h1)
  · exact (s.decodeAt_dOpc ..).trans (attempt_opc h1)
  · exact (s.decodeAt_dMask ..).trans (attempt_mask h2)
  · exact (congrArg BitVec.toNat (s.decodeAt_dHlen ..)).trans (toNat_attempt_hlen h2)
  · rw [← sourceBytes_readBytes]
    exact (s.decodeAt_dLen ..).trans (attempt_len h2 hext)
  · rw [← hm] at hH
    exact (s.decodeAt_dKey ..).trans (attempt_key hm hH)
  · rw [State.finish_status, Status.finish_hdrv, State.decodeAt_status]
    exact headerValid_iff _ _
  · rw [State.finish_status, Status.finish_cpl, State.decodeAt_cpl]
    exact frameComplete_iff _ _ _
  all_goals
    obtain ⟨-, -, -, -, -, -, hflen, hpaddr⟩ := attempt_of_complete (wire := s.params.opcWire)
      (a := s.rxBase.toNat) (d := s.draws) ((s.decodeAt_cpl ..).symm.trans hc) s.rxValid.isLt
  · exact (congrArg BitVec.toNat (s.decodeAt_dFlen ..)).trans hflen
  · exact (s.decodeAt_dPaddr ..).trans hpaddr

/-! ### What `DEC` does to memory, told by its own registers (42_decode R116 to R118) -/

/-- What the decode registers say that byte `k` of the frame is XORed with: a key byte inside the payload of a
complete masked frame, nothing elsewhere. -/
def State.payloadMask (t : State) (k : Nat) : Byte :=
  if t.status.cpl = true ∧ t.dMask = 1#1 ∧ t.dHlen.toNat ≤ k ∧ k < t.dHlen.toNat + t.dLen.toNat then
    keyByte t.dKey (k - t.dHlen.toNat)
  else 0#8

theorem State.payloadMask_of_cpl {t : State} (hc : t.status.cpl = false) (k : Nat) : t.payloadMask k = 0#8 :=
  if_neg fun h => Bool.noConfusion (hc.symm.trans h.1)

theorem State.payloadMask_header (t : State) {k : Nat} (hk : k < t.dHlen.toNat) : t.payloadMask k = 0#8 :=
  if_neg fun ⟨_, _, hle, _⟩ => by omega

theorem State.payloadMask_payload {t : State} (hc : t.status.cpl = true) (hm : t.dMask = 1#1) {i : Nat}
    (hi : i < t.dLen.toNat) : t.payloadMask (t.dHlen.toNat + i) = keyByte t.dKey i := by
  unfold State.payloadMask
  rw [if_pos ⟨hc, hm, by omega, by omega⟩, Nat.add_sub_cancel_left]

theorem State.payloadMask_congr {t u : State} (hc : u.status.cpl = t.status.cpl) (hm : u.dMask = t.dMask)
    (hh : u.dHlen = t.dHlen) (hl : u.dLen = t.dLen) (hk : t.dMask = 1#1 → u.dKey = t.dKey) (k : Nat) :
    u.payloadMask k = t.payloadMask k := by
  unfold State.payloadMask
  rw [hc, hm, hh, hl]
  split_ifs with h
  · obtain ⟨-, hmasked, -⟩ := h
    rw [hk hmasked]
  · rfl

/-- An attempt XORs every byte of the frame with what its registers say. -/
theorem State.memRead_decodeAt_offset (s : State) (given : List Byte) {a n : Nat} (hn : n < 2 ^ 64) (k : Nat) :
    (s.decodeAt given a n).memRead (a + k) =
      s.memRead (a + k) ^^^ (s.decodeAt given a n).payloadMask k := by
  by_cases hc : (s.decodeAt given a n).status.cpl = true
  · obtain ⟨hmask, hhlen, hlen⟩ := State.decodeAt_registers_of_cpl hn hc
    rw [State.memRead_decodeAt, ← State.decodeAt_cpl, ← hmask, ← hhlen, ← hlen]
    simp only [State.payloadMask, and_assoc, Nat.add_assoc, Nat.add_le_add_iff_left, Nat.add_lt_add_iff_left,
      Nat.add_sub_add_left]
    split_ifs with hin
    · rw [State.decodeAt_cpl] at hc
      obtain ⟨-, hH, -⟩ := (frameComplete_iff _ _ _).1 hc
      rw [State.decodeAt_dKey, attempt_key (hmask.symm.trans hin.2.1) hH]
    · rw [BitVec.xor_zero]
  · rw [Bool.not_eq_true] at hc
    rw [State.payloadMask_of_cpl hc, BitVec.xor_zero, State.memRead, State.mem_decodeAt_of_registers hn (.inl hc)]
    rfl

/-- An attempt changes no byte outside its window (42_decode R110). -/
theorem State.memRead_decodeAt_outside_window (s : State) (given : List Byte) {a n a' : Nat}
    (h : a' < a ∨ a + n ≤ a') : (s.decodeAt given a n).memRead a' = s.memRead a' := by
  rw [State.memRead_decodeAt, if_neg]
  rintro ⟨⟨hc, -⟩, hlow, hhigh⟩
  obtain ⟨-, -, hle⟩ := (frameComplete_iff _ _ _).1 hc
  omega

theorem State.memRead_decodeWindow_offset (s : State) (given : List Byte) (k : Nat) :
    (s.decodeWindow given).memRead (s.rxBase.toNat + k) =
      s.memRead (s.rxBase.toNat + k) ^^^ (s.decodeWindow given).payloadMask k := by
  obtain hout | hin := Nat.lt_or_ge s.params.memSize (s.rxBase.toNat + s.rxValid.toNat)
  · rw [s.decodeWindow_out given hout, State.payloadMask_of_cpl rfl, BitVec.xor_zero]
    rfl
  · rw [s.decodeWindow_in given hin]
    exact s.memRead_decodeAt_offset given s.rxValid.isLt k

theorem State.memRead_decodeWindow_outside (s : State) (given : List Byte) {a : Nat}
    (h : a < s.rxBase.toNat ∨ s.rxBase.toNat + s.rxValid.toNat ≤ a) :
    (s.decodeWindow given).memRead a = s.memRead a := by
  obtain hout | hin := Nat.lt_or_ge s.params.memSize (s.rxBase.toNat + s.rxValid.toNat)
  · rw [s.decodeWindow_out given hout]
    rfl
  · rw [s.decodeWindow_in given hin]
    exact s.memRead_decodeAt_outside_window given h

/-- `DEC` with `CPL` or `D_MASK` clear afterwards has changed no byte. -/
theorem State.mem_decodeWindow_of_registers {s : State} {given : List Byte}
    (h : (s.decodeWindow given).status.cpl = false ∨ (s.decodeWindow given).dMask = 0) :
    (s.decodeWindow given).mem = s.mem := by
  obtain hout | hin := Nat.lt_or_ge s.params.memSize (s.rxBase.toNat + s.rxValid.toNat)
  · rw [s.decodeWindow_out given hout]
    rfl
  · rw [s.decodeWindow_in given hin] at h ⊢
    exact State.mem_decodeAt_of_registers s.rxValid.isLt h

/-- Settles O25: the registers tell the payload, and outside it nothing is XORed. -/
theorem decodeUnmasksInPlace : Obligations.DecodeUnmasksInPlace := by
  intro s t ht
  obtain rfl := Host.Outcome.next.inj ht
  refine ⟨State.mem_decodeWindow_of_registers, fun hc hm => ⟨fun i hi => ?_, fun a ha => ?_⟩⟩
  · rw [keyByte_mod, Nat.add_assoc, s.memRead_decodeWindow_offset, State.payloadMask_payload hc hm hi]
  · obtain ⟨-, hdec⟩ := State.decodeWindow_of_cpl hc
    rw [hdec] at hc ha ⊢
    exact State.memRead_decodeAt_outside_payload s.rxValid.isLt hc ha

/-! ### Other memories, and other valid lengths (42_decode R110, R122) -/

/-- The same state with another memory. -/
def State.withMem (s : State) (m : Memory) : State := { s with mem := m }

@[simp] theorem State.payloadMask_withMem (s : State) (m : Memory) (k : Nat) :
    (s.withMem m).payloadMask k = s.payloadMask k := rfl

section
variable {s : State} {m : Memory}
  (h : ∀ k, k < s.rxValid.toNat → Memory.read m (s.rxBase.toNat + k) = s.memRead (s.rxBase.toNat + k))
include h

/-- `DEC` takes from memory only the bytes of its window: another memory that agrees there gives the same state but
for memory. -/
theorem State.decodeWindow_withMem :
    (s.withMem m).decodeWindow [] = (s.decodeWindow []).withMem ((s.withMem m).decodeWindow []).mem := by
  obtain hout | hin := Nat.lt_or_ge s.params.memSize (s.rxBase.toNat + s.rxValid.toNat)
  · rw [s.decodeWindow_out [] hout, (s.withMem m).decodeWindow_out [] hout]
    rfl
  · have hattempt := attempt_congr s.params.opcWire (f := (s.withMem m).frameByte [] s.rxBase.toNat)
      (g := s.frameByte [] s.rxBase.toNat) s.rxBase.toNat s.draws h
    rw [s.decodeWindow_in [] hin, (s.withMem m).decodeWindow_in [] hin, s.decodeAt_eq, (s.withMem m).decodeAt_eq]
    exact congrArg (fun r => ((s.setDecode r).finish .ok).withMem _) hattempt

/-- The two runs XOR a byte of the region with the same byte, so it reads alike after them. -/
theorem State.memRead_decodeWindow_withMem {k : Nat} (hk : k < s.rxValid.toNat) :
    ((s.withMem m).decodeWindow []).memRead (s.rxBase.toNat + k) =
      (s.decodeWindow []).memRead (s.rxBase.toNat + k) :=
  calc ((s.withMem m).decodeWindow []).memRead (s.rxBase.toNat + k)
      = Memory.read m (s.rxBase.toNat + k) ^^^ ((s.withMem m).decodeWindow []).payloadMask k :=
        (s.withMem m).memRead_decodeWindow_offset [] k
    _ = s.memRead (s.rxBase.toNat + k) ^^^ (s.decodeWindow []).payloadMask k := by
        rw [h k hk, State.decodeWindow_withMem h, State.payloadMask_withMem]
    _ = (s.decodeWindow []).memRead (s.rxBase.toNat + k) := (s.memRead_decodeWindow_offset [] k).symm

end

/-- Settles O27: inside the region the two runs do the same, and outside it neither writes. -/
theorem decodeNeverOverReads : Obligations.DecodeNeverOverReads := by
  intro s t m hagree ht
  obtain rfl := Host.Outcome.next.inj ht
  exact ⟨_, exec_dec _, State.decodeWindow_withMem hagree, fun k => State.memRead_decodeWindow_withMem hagree,
    fun a => (s.withMem m).memRead_decodeWindow_outside []⟩

/-- Two sources that agree on the header of one of them have the same header. -/
theorem frameHeader_congr {f g : Nat → Byte} (h : ∀ k, k < frameHdrLen f → f k = g k) :
    f 0 = g 0 ∧ f 1 = g 1 ∧ frameHdrLen f = frameHdrLen g ∧ framePayloadLen f = framePayloadLen g ∧
      (maskOf (f 1) = 1#1 → frameKey f = frameKey g) := by
  have hb := (frameHdrLen_bounds f).1
  have hH := frameHdrLen_eq f
  have h1 : f 1 = g 1 := h 1 (by omega)
  refine ⟨h 0 (by omega), h1, by simp only [frameHdrLen, h1], framePayloadLen_congr fun k hk => h k (by omega),
    fun hm => frameKey_congr fun k hk => h k ?_⟩
  rw [frameHdrLen_masked hm]
  exact hk

/-- Two attempts at the same whole header, whatever follows it, give the same header fields. -/
theorem State.decodeAt_header_congr {s r : State} {a n n' : Nat} (hparams : r.params = s.params)
    (hbytes : ∀ k, k < frameHdrLen (s.frameByte [] a) → s.frameByte [] a k = r.frameByte [] a k)
    (hn : frameHdrLen (s.frameByte [] a) ≤ n) (hn' : frameHdrLen (s.frameByte [] a) ≤ n') :
    let t := s.decodeAt [] a n
    let u := r.decodeAt [] a n'
    u.dFin = t.dFin ∧ u.dOpc = t.dOpc ∧ u.dMask = t.dMask ∧ u.dLen = t.dLen ∧ u.dHlen = t.dHlen ∧
      (t.dMask = 1 → u.dKey = t.dKey) := by
  obtain ⟨h0, h1, hH, hL, hK⟩ := frameHeader_congr hbytes
  have hb := (frameHdrLen_bounds (s.frameByte [] a)).1
  have hE := frameHdrLen_eq (s.frameByte [] a)
  have hE' := frameHdrLen_eq (r.frameByte [] a)
  rw [← hH, ← h1] at hE'
  have h2 : 2 ≤ n := by omega
  have h2' : 2 ≤ n' := by omega
  simp only [State.decodeAt_dFin, State.decodeAt_dOpc, State.decodeAt_dMask, State.decodeAt_dLen,
    State.decodeAt_dHlen, State.decodeAt_dKey]
  refine ⟨?_, ?_, ?_, ?_, ?_, fun hm => ?_⟩
  · rw [attempt_fin (by omega), attempt_fin (by omega), h0]
  · rw [attempt_opc (by omega), attempt_opc (by omega), h0, hparams]
  · rw [attempt_mask h2, attempt_mask h2', h1]
  · rw [attempt_len h2 (by omega), attempt_len h2' (by omega), hL]
  · rw [attempt_hlen h2, attempt_hlen h2', hH]
  · rw [attempt_mask h2] at hm
    rw [attempt_key hm hn, attempt_key (h1 ▸ hm) (hH ▸ hn'), hK hm]

/-- Settles O28: the header is the same, and the payload end is past the shorter valid length. -/
theorem truncatedFrameIsIncomplete : Obligations.TruncatedFrameIsIncomplete := by
  intro s t n ht _ hc hshort
  obtain rfl := Host.Outcome.next.inj ht
  obtain ⟨hin, hdec⟩ := State.decodeWindow_of_cpl hc
  rw [hdec] at hc hshort ⊢
  have hv := s.rxValid.isLt
  obtain ⟨hwhole, hflen, -⟩ := s.decodeAt_complete hc hv
  obtain ⟨-, hH, hle⟩ := (frameComplete_iff _ _ _).1 hwhole
  rw [State.finish_dFlen, hflen] at hshort
  have hcpl : (State.decodeAt { s with rxValid := n } [] s.rxBase.toNat n.toNat).status.cpl = false := by
    rw [State.decodeAt_cpl, Bool.eq_false_iff, Ne, frameComplete_iff]
    exact fun ⟨_, _, hend⟩ => hshort.not_ge hend
  have hin' : s.rxBase.toNat + n.toNat ≤ s.params.memSize := by omega
  rw [exec_dec, State.decodeWindow_in { s with rxValid := n } [] hin']
  refine ⟨_, rfl, hcpl, rfl, State.mem_decodeAt_incomplete _ hcpl, fun hhdr => ?_⟩
  obtain ⟨-, hhlen, -⟩ := State.decodeAt_registers_of_cpl hv hc
  rw [State.finish_dHlen, hhlen] at hhdr
  refine ⟨?_, State.decodeAt_header_congr (r := { s with rxValid := n }) rfl (fun _ _ => rfl) hH hhdr⟩
  rw [State.finish_status, Status.finish_hdrv, State.decodeAt_status]
  exact (headerValid_iff _ _).2 ⟨(frameHdrLen_bounds _).1.trans hhdr, hhdr⟩

/-! ### A second attempt on the same frame (42_decode R118) -/

section
variable {s t : State} {a n : Nat} (ht : t = (s.decodeAt [] a n).finish .ok) (hn : n < 2 ^ 64)
  (hc : t.status.cpl = true)
include ht hn hc

/-- The header of a complete frame reads after the attempt as before. -/
theorem State.frameByte_decodeAt_header {k : Nat} (hk : k < frameHdrLen (s.frameByte [] a)) :
    s.frameByte [] a k = t.frameByte [] a k := by
  subst ht
  obtain ⟨-, hhlen, -⟩ := State.decodeAt_registers_of_cpl hn hc
  rw [State.frameByte_nil, State.frameByte_nil, State.memRead_finish, s.memRead_decodeAt_offset [] hn,
    State.payloadMask_header _ (hhlen ▸ hk), BitVec.xor_zero]

/-- An attempt repeated on a complete frame is complete, and every determinate output is the same. -/
theorem State.decodeAt_twice : let u := t.decodeAt [] a n
    u.status.cpl = true ∧ u.dFlen = t.dFlen ∧ u.dPaddr = t.dPaddr ∧
      u.dFin = t.dFin ∧ u.dOpc = t.dOpc ∧ u.dMask = t.dMask ∧ u.dLen = t.dLen ∧ u.dHlen = t.dHlen ∧
      (t.dMask = 1 → u.dKey = t.dKey) := by
  have hbytes := fun k => State.frameByte_decodeAt_header (k := k) ht hn hc
  obtain ⟨-, -, hH, hL, -⟩ := frameHeader_congr hbytes
  have hwhole := (s.decodeAt_cpl [] a n).symm.trans (ht ▸ hc)
  have hc' : (t.decodeAt [] a n).status.cpl = true := by rw [State.decodeAt_cpl, ← hH, ← hL, hwhole]
  obtain ⟨-, hhdr, -⟩ := (frameComplete_iff _ _ _).1 hwhole
  subst ht
  obtain ⟨-, hflen, hpaddr, -⟩ := s.decodeAt_complete hc hn
  obtain ⟨-, hflen', hpaddr', -⟩ := State.decodeAt_complete _ hc' hn
  refine ⟨hc', BitVec.eq_of_toNat_eq (hflen'.trans (Eq.trans ?_ hflen.symm)),
    hpaddr'.trans (Eq.trans ?_ hpaddr.symm), State.decodeAt_header_congr (s.decodeAt_params ..) hbytes hhdr hhdr⟩
  · exact congrArg₂ (fun h (l : Word) => h + l.toNat) hH.symm hL.symm
  · exact congrArg (fun h => BitVec.ofNat 64 (a + h)) hH.symm

/-- The second attempt XORs every byte with what the first did, which restores it. -/
theorem State.memRead_decodeAt_twice (a' : Nat) : (t.decodeAt [] a n).memRead a' = s.memRead a' := by
  obtain ⟨hc', -, -, -, -, hmask, hlen, hhlen, hkey⟩ := State.decodeAt_twice ht hn hc
  obtain hlow | hle := Nat.lt_or_ge a' a
  · rw [t.memRead_decodeAt_outside_window [] (.inl hlow), ht]
    exact s.memRead_decodeAt_outside_window [] (.inl hlow)
  · obtain ⟨k, rfl⟩ := Nat.exists_eq_add_of_le hle
    have hfirst : t.memRead (a + k) = s.memRead (a + k) ^^^ t.payloadMask k :=
      ht ▸ s.memRead_decodeAt_offset [] hn k
    rw [t.memRead_decodeAt_offset [] hn, State.payloadMask_congr (hc'.trans hc.symm) hmask hhlen hlen hkey, hfirst,
      BitVec.xor_assoc, BitVec.xor_self, BitVec.xor_zero]

end

/-- Settles O29: `DEC` from `t` is a second attempt at the same window. -/
theorem decodingTwiceRestoresTheBytes : Obligations.DecodingTwiceRestoresTheBytes := by
  intro s t ht _ hc
  obtain rfl := Host.Outcome.next.inj ht
  obtain ⟨hin, hdec⟩ := State.decodeWindow_of_cpl hc
  have hv := s.rxValid.isLt
  obtain ⟨hcpl, hflen, hpaddr, hfin, hopc, hmask, hlen, hhlen, hkey⟩ := State.decodeAt_twice hdec hv hc
  rw [exec_dec (s.decodeWindow []), (s.decodeWindow []).decodeWindow_in [] (by simpa using hin),
    State.decodeWindow_rxBase, State.decodeWindow_rxValid]
  exact ⟨_, rfl, hcpl, rfl, hfin, hopc, hmask, hlen, hhlen, hflen, hpaddr, hkey,
    State.memRead_decodeAt_twice hdec hv hc⟩

end Sys2Proof.Machine

namespace Sys2Proof.Machine

/-! ### The loop of `ASM` without fuel (43_assemble R126, R131, R132) -/

/-- A complete attempt moves the cursor by at least 2 bytes and not past the window (R132). -/
theorem State.decodeAt_dFlen_bounds {s : State} {a n : Nat} (hn : n < 2 ^ 64)
    (hc : (s.decodeAt [] a n).status.cpl = true) :
    2 ≤ (s.decodeAt [] a n).dFlen.toNat ∧ (s.decodeAt [] a n).dFlen.toNat ≤ n := by
  obtain ⟨hwhole, hflen, -⟩ := s.decodeAt_complete hc hn
  obtain ⟨-, -, hle⟩ := (frameComplete_iff _ _ _).1 hwhole
  rw [hflen]
  exact ⟨Nat.le_add_right_of_le (frameHdrLen_bounds _).1, hle⟩

/-- A turn of the loop that finds a complete frame: the attempt, then its event (R126, R127). -/
def State.takeFrame (s : State) (a n : Nat) : State :=
  (s.decodeAt [] a n).emit (s.decodeAt [] a n).frameEvent

@[simp] theorem State.takeFrame_hnd (s : State) (a n : Nat) :
    (s.takeFrame a n).hnd = s.hnd ++ [(s.decodeAt [] a n).frameEvent] := by
  rw [State.takeFrame, State.emit_hnd, State.decodeAt_hnd]

@[simp] theorem State.takeFrame_params (s : State) (a n : Nat) : (s.takeFrame a n).params = s.params :=
  s.decodeAt_params ..

theorem State.memRead_takeFrame (s : State) (a n a' : Nat) :
    (s.takeFrame a n).memRead a' = (s.decodeAt [] a n).memRead a' := rfl

/-- A turn that finds a frame changes no byte outside it. -/
theorem State.memRead_takeFrame_outside (s : State) {a n a' : Nat} (hn : n < 2 ^ 64)
    (hc : (s.decodeAt [] a n).status.cpl = true) (h : a' < a ∨ a + (s.decodeAt [] a n).dFlen.toNat ≤ a') :
    (s.takeFrame a n).memRead a' = s.memRead a' :=
  State.memRead_decodeAt_outside s hn hc h

/-- `Assembles a n s k s'`: from `s`, with the cursor at address `a` and `n` bytes left, the turns that find a frame
consume `k` bytes and leave `s'`, where an attempt finds no complete frame. -/
inductive Assembles : (a n : Nat) → State → (k : Nat) → State → Prop
  | stop {a n : Nat} {s : State} (hc : (s.decodeAt [] a n).status.cpl = false) : Assembles a n s 0 s
  | frame {a n k : Nat} {s s' : State} (hc : (s.decodeAt [] a n).status.cpl = true)
    (rest : Assembles (a + (s.decodeAt [] a n).dFlen.toNat) (n - (s.decodeAt [] a n).dFlen.toNat)
      (s.takeFrame a n) k s') :
    Assembles a n s ((s.decodeAt [] a n).dFlen.toNat + k) s'

/-- The loop always ends: a turn that goes on shortens the window. -/
theorem exists_assembles {n : Nat} (hn : n < 2 ^ 64) (a : Nat) (s : State) : ∃ k s', Assembles a n s k s' := by
  induction n using Nat.strong_induction_on generalizing a s with
  | _ n ih =>
    cases hc : (s.decodeAt [] a n).status.cpl with
    | false => exact ⟨0, s, .stop hc⟩
    | true =>
      obtain ⟨h2, hle⟩ := State.decodeAt_dFlen_bounds hn hc
      obtain ⟨k, s', h⟩ := ih (n - (s.decodeAt [] a n).dFlen.toNat) (by omega) (by omega)
        (a + (s.decodeAt [] a n).dFlen.toNat) (s.takeFrame a n)
      exact ⟨_, s', .frame hc h⟩

/-- The last part of `ASM`: the attempt that finds no frame at `a` with `n` bytes left, `A_CONSUMED` and `CODE`
(R128, R129). -/
def State.endAssembly (s : State) (a n k : Nat) : State :=
  { s.decodeAt [] a n with aConsumed := BitVec.ofNat 64 k }.finish .ok

@[simp] theorem State.endAssembly_hnd (s : State) (a n k : Nat) : (s.endAssembly a n k).hnd = s.hnd :=
  s.decodeAt_hnd ..

@[simp] theorem State.endAssembly_params (s : State) (a n k : Nat) : (s.endAssembly a n k).params = s.params :=
  s.decodeAt_params ..

@[simp] theorem State.endAssembly_aConsumed (s : State) (a n k : Nat) :
    (s.endAssembly a n k).aConsumed = BitVec.ofNat 64 k := rfl

namespace Assembles
variable {a n k : Nat} {s s' : State} (h : Assembles a n s k s')
include h

/-- The attempt that ends the loop is not complete (R129). -/
theorem stopped : (s'.decodeAt [] (a + k) (n - k)).status.cpl = false := by
  induction h with
  | stop hc => exact hc
  | frame _ _ ih => rwa [Nat.add_assoc, Nat.sub_sub] at ih

/-- The loop of the model, under any fuel that suffices, is this one (R132). -/
theorem assembleLoop_eq {base v fuel cur : Nat} (hn : n < 2 ^ 64) (ha : base + cur = a) (hv : v - cur = n)
    (hfuel : n < 2 * fuel) :
    assembleLoop base v fuel cur s = (s'.decodeAt [] (a + k) (n - k), cur + k) := by
  induction h generalizing fuel cur with
  | stop hc =>
    subst ha hv
    obtain ⟨fuel, rfl⟩ := Nat.exists_eq_succ_of_ne_zero (show fuel ≠ 0 by omega)
    simp only [assembleLoop, hc]
    rfl
  | frame hc _ ih =>
    obtain ⟨h2, hle⟩ := State.decodeAt_dFlen_bounds hn hc
    subst ha hv
    obtain ⟨fuel, rfl⟩ := Nat.exists_eq_succ_of_ne_zero (show fuel ≠ 0 by omega)
    rw [assembleLoop]
    simp only [hc, if_true]
    refine (ih (by omega) (Nat.add_assoc ..).symm (Nat.sub_sub ..).symm (by omega)).trans ?_
    rw [Nat.sub_sub, Nat.add_assoc, Nat.add_assoc, Nat.add_assoc]

/-- The loop never passes the end of the window (R132). -/
theorem consumed_le (hn : n < 2 ^ 64) : k ≤ n := by
  induction h with
  | stop => exact Nat.zero_le _
  | frame hc _ ih =>
    obtain ⟨-, hle⟩ := State.decodeAt_dFlen_bounds hn hc
    have := ih (by omega)
    omega

/-- Only bytes of the consumed frames are changed (R130). -/
theorem memRead_outside (hn : n < 2 ^ 64) {a' : Nat} (ha : a' < a ∨ a + k ≤ a') : s'.memRead a' = s.memRead a' := by
  induction h with
  | stop => rfl
  | frame hc _ ih =>
    rw [ih (by omega) (by omega), State.memRead_takeFrame_outside _ hn hc (by omega)]

/-- One event per frame, each frame at least 2 bytes (R127, R132). -/
theorem hnd_append (hn : n < 2 ^ 64) : ∃ es, s'.hnd = s.hnd ++ es ∧ 2 * es.length ≤ k := by
  induction h with
  | stop => exact ⟨[], (List.append_nil _).symm, Nat.zero_le _⟩
  | @frame a n _ s _ hc _ ih =>
    obtain ⟨h2, -⟩ := State.decodeAt_dFlen_bounds hn hc
    obtain ⟨es, hhnd, hlen⟩ := ih (by omega)
    refine ⟨(s.decodeAt [] a n).frameEvent :: es, ?_, ?_⟩
    · rw [hhnd, State.takeFrame_hnd, List.append_assoc, List.singleton_append]
    · rw [List.length_cons]
      omega

end Assembles

/-- What `ASM` answers on a window inside `MEM`: its loop, and then the end. -/
theorem exec_asm_in {s s' : State} {k : Nat} (hin : s.rxBase.toNat + s.rxValid.toNat ≤ s.params.memSize)
    (h : Assembles s.rxBase.toNat s.rxValid.toNat s k s') :
    exec .asm s = .next (s'.endAssembly (s.rxBase.toNat + k) (s.rxValid.toNat - k) k) := by
  refine (execAsm_in s hin).trans ?_
  rw [h.assembleLoop_eq (v := s.rxValid.toNat) s.rxValid.isLt rfl rfl (by omega), Nat.zero_add]
  rfl

section
variable {s s' : State} {a n k : Nat} (h : Assembles a n s k s')
include h

theorem Assembles.endAssembly_cpl : (s'.endAssembly (a + k) (n - k) k).status.cpl = false := h.stopped

/-- The last attempt changes no byte (R116). -/
theorem Assembles.endAssembly_mem : (s'.endAssembly (a + k) (n - k) k).mem = s'.mem :=
  s'.mem_decodeAt_incomplete h.stopped

theorem Assembles.memRead_endAssembly (a' : Nat) :
    (s'.endAssembly (a + k) (n - k) k).memRead a' = s'.memRead a' := by
  rw [State.memRead, h.endAssembly_mem]
  rfl

theorem Assembles.toNat_endAssembly_aConsumed (hn : n < 2 ^ 64) :
    (s'.endAssembly (a + k) (n - k) k).aConsumed.toNat = k := by
  have hle := h.consumed_le hn
  rw [State.endAssembly_aConsumed, BitVec.toNat_ofNat, Nat.mod_eq_of_lt (by omega)]

end

/-! ### What `ASM` may write (43_assemble R124, R130) -/

/-- `s` with what `ASM` may write taken from `t`. -/
def State.withAsmOutputs (s t : State) : State :=
  { s with
    dFin := t.dFin, dOpc := t.dOpc, dMask := t.dMask, dKey := t.dKey, dLen := t.dLen, dHlen := t.dHlen,
    dFlen := t.dFlen, dPaddr := t.dPaddr, aConsumed := t.aConsumed, mem := t.mem, hnd := t.hnd, draws := t.draws,
    status := { s.status with code := t.status.code, hdrv := t.status.hdrv, cpl := t.status.cpl } }

/-- What a part writes is written by the whole. -/
theorem State.eq_withAsmOutputs_trans {s t u : State} (ht : t = s.withAsmOutputs t) (hu : u = t.withAsmOutputs u) :
    u = s.withAsmOutputs u := by
  rw [ht] at hu
  exact hu

theorem State.takeFrame_eq (s : State) (a n : Nat) : s.takeFrame a n = s.withAsmOutputs (s.takeFrame a n) := by
  rw [State.takeFrame, State.decodeAt_eq]
  rfl

theorem State.endAssembly_eq (s : State) (a n k : Nat) :
    s.endAssembly a n k = s.withAsmOutputs (s.endAssembly a n k) := by
  rw [State.endAssembly, State.decodeAt_eq, State.finish, Status.finish_ok]
  rfl

theorem Assembles.eq_withAsmOutputs {s s' : State} {a n k : Nat} (h : Assembles a n s k s') :
    s' = s.withAsmOutputs s' := by
  induction h with
  | stop => rfl
  | frame _ _ ih => exact State.eq_withAsmOutputs_trans (State.takeFrame_eq ..) ih

theorem Assembles.params_eq {s s' : State} {a n k : Nat} (h : Assembles a n s k s') : s'.params = s.params :=
  (congrArg State.params h.eq_withAsmOutputs :)

/-- Settles O36: each bound holds of the loop by induction over its turns, and the end adds nothing to it. -/
theorem assembleBoundsAndFrame : Obligations.AssembleBoundsAndFrame := by
  intro s hin
  have hn := s.rxValid.isLt
  obtain ⟨k, s', h⟩ := exists_assembles hn s.rxBase.toNat s
  obtain ⟨es, hhnd, hlen⟩ := h.hnd_append hn
  have hk := h.toNat_endAssembly_aConsumed hn
  refine ⟨_, es, exec_asm_in hin h, h.endAssembly_cpl, ?_, ?_, ?_, fun a ha => ?_, ?_⟩
  · rw [State.endAssembly_hnd, hhnd]
  · exact hk.trans_le (h.consumed_le hn)
  · exact hlen.trans_eq hk.symm
  · rw [hk] at ha
    rw [h.memRead_endAssembly, h.memRead_outside hn ha]
  · have hframe := State.eq_withAsmOutputs_trans h.eq_withAsmOutputs
      (s'.endAssembly_eq (s.rxBase.toNat + k) (s.rxValid.toNat - k) k)
    rw [State.withAsmOutputs, h.endAssembly_cpl] at hframe
    exact hframe

/-- Settles O37: the loop's first attempt is that of `DEC`; it stops there, or a frame of at least 2 bytes is
consumed and its event appended. -/
theorem assembleOfNoFrame : Obligations.AssembleOfNoFrame := by
  intro s t hin ht
  obtain rfl := Host.Outcome.next.inj ht
  rw [s.decodeWindow_in [] hin]
  have hn := s.rxValid.isLt
  obtain ⟨k, s', h⟩ := exists_assembles hn s.rxBase.toNat s
  refine ⟨_, exec_asm_in hin h, ?_⟩
  have hk := h.toNat_endAssembly_aConsumed hn
  have hmem := h.endAssembly_mem
  cases h with
  | stop hc => exact ⟨iff_of_true rfl hc, iff_of_true (State.endAssembly_hnd ..) hc, fun _ => ⟨hmem, rfl⟩⟩
  | frame hc rest =>
    obtain ⟨h2, -⟩ := State.decodeAt_dFlen_bounds hn hc
    obtain ⟨es, hhnd, -⟩ := rest.hnd_append (by omega)
    have hcpl : ¬ ((s.decodeAt [] s.rxBase.toNat s.rxValid.toNat).finish .ok).status.cpl = false :=
      (Bool.not_eq_false _).mpr hc
    refine ⟨iff_of_false (fun hzero => ?_) hcpl, iff_of_false (fun hsame => ?_) hcpl, fun hc' => absurd hc' hcpl⟩
    · have hk0 := hk.symm.trans (congrArg BitVec.toNat hzero)
      exact absurd (Nat.eq_zero_of_add_eq_zero_right hk0) (by omega)
    · simp [hhnd] at hsame

/-! ### Whole frames in the window (43_assemble R134) -/

theorem isWholeFrame_iff (bs : List Byte) : isWholeFrame bs = true ↔
    2 ≤ bs.length ∧ frameHdrLen (listByte bs) + (framePayloadLen (listByte bs)).toNat = bs.length := by
  rw [isWholeFrame, Bool.and_eq_true, headerValid_iff, decide_eq_true_iff]
  omega

@[simp] theorem length_plainFrame (bs : List Byte) : (plainFrame bs).length = bs.length := by
  rw [plainFrame]
  split_ifs
  · rw [List.length_append, length_xorMask, ← List.length_append, List.take_append_drop]
  · rfl

/-- A frame in plain, byte by byte: the payload of a masked one XORed with its key, all else as it was. -/
theorem getElem_plainFrame (bs : List Byte) {i : Nat} (hi : i < bs.length) (hi' : i < (plainFrame bs).length) :
    (plainFrame bs)[i] =
      if maskOf (listByte bs 1) = 1#1 ∧ frameHdrLen (listByte bs) ≤ i then
        bs[i] ^^^ keyByte (frameKey (listByte bs)) (i - frameHdrLen (listByte bs))
      else bs[i] := by
  unfold plainFrame
  by_cases hm : maskOf (listByte bs 1) = 1#1
  · simp only [hm, if_true, true_and]
    obtain hlow | hle := Nat.lt_or_ge i (frameHdrLen (listByte bs))
    · rw [if_neg hlow.not_ge, List.getElem_append_left (by rw [List.length_take]; omega), List.getElem_take]
    · have htake : (bs.take (frameHdrLen (listByte bs))).length = frameHdrLen (listByte bs) :=
        List.length_take_of_le (hle.trans hi.le)
      rw [if_pos hle, List.getElem_append_right (by rw [htake]; exact hle),
        getElem_xorMask (h' := by rw [htake, List.length_drop]; omega), List.getElem_drop]
      simp only [htake, Nat.add_sub_cancel' hle]
  · simp only [hm, if_false, false_and]

/-- Where memory holds a list, an attempt there reads the list's bytes. -/
theorem State.listByte_eq_frameByte {s : State} {a : Nat} {bs : List Byte} (h : s.readBytes a bs.length = bs) {k : Nat}
    (hk : k < bs.length) : listByte bs k = s.frameByte [] a k := by
  rw [State.frameByte_nil, State.memRead_of_readBytes h hk, listByte, List.getD_eq_getElem _ _ hk]

section
variable {s : State} {a n : Nat} {bs : List Byte} (hbytes : s.readBytes a bs.length = bs)
  (hwhole : isWholeFrame bs = true)
include hbytes hwhole

/-- The header of a whole frame in memory is the list's. -/
theorem State.frameHeader_of_wholeFrame :
    listByte bs 0 = s.frameByte [] a 0 ∧ listByte bs 1 = s.frameByte [] a 1 ∧
      frameHdrLen (listByte bs) = frameHdrLen (s.frameByte [] a) ∧
      framePayloadLen (listByte bs) = framePayloadLen (s.frameByte [] a) ∧
      (maskOf (listByte bs 1) = 1#1 → frameKey (listByte bs) = frameKey (s.frameByte [] a)) := by
  obtain ⟨-, hlen⟩ := (isWholeFrame_iff bs).1 hwhole
  exact frameHeader_congr fun k hk => State.listByte_eq_frameByte hbytes (by omega)

theorem State.frameComplete_of_wholeFrame (hle : bs.length ≤ n) :
    frameComplete n (frameHdrLen (s.frameByte [] a)) (framePayloadLen (s.frameByte [] a)).toNat = true := by
  obtain ⟨h2, hlen⟩ := (isWholeFrame_iff bs).1 hwhole
  obtain ⟨-, -, hH, hL, -⟩ := State.frameHeader_of_wholeFrame hbytes hwhole
  rw [← hH, ← hL, frameComplete_iff]
  omega

/-- An attempt at a whole frame is complete, and its registers tell the frame's length and event (R127). -/
theorem State.decodeAt_wholeFrame (hle : bs.length ≤ n) (hn : n < 2 ^ 64) :
    let t := s.decodeAt [] a n
    t.status.cpl = true ∧ t.dFlen.toNat = bs.length ∧ frameEvents s.params.opcWire a [bs] = [t.frameEvent] := by
  have hc : (s.decodeAt [] a n).status.cpl = true :=
    (s.decodeAt_cpl [] a n).trans (State.frameComplete_of_wholeFrame hbytes hwhole hle)
  obtain ⟨-, hlen⟩ := (isWholeFrame_iff bs).1 hwhole
  obtain ⟨h0, -, hH, hL, -⟩ := State.frameHeader_of_wholeFrame hbytes hwhole
  obtain ⟨-, hflen, hpaddr, hdlen, hopc⟩ := s.decodeAt_complete hc hn
  refine ⟨hc, ?_, ?_⟩
  · rw [hH, hL] at hlen
    exact hflen.trans hlen
  · rw [State.frameEvent, hpaddr, hdlen, hopc, frameEvents, h0, hH, hL]
    rfl

/-- An attempt at a whole frame leaves it in plain (42_decode R117, R118). -/
theorem State.readBytes_decodeAt_wholeFrame (hle : bs.length ≤ n) :
    (s.decodeAt [] a n).readBytes a bs.length = plainFrame bs := by
  obtain ⟨-, hlen⟩ := (isWholeFrame_iff bs).1 hwhole
  obtain ⟨-, h1, hH, hL, hK⟩ := State.frameHeader_of_wholeFrame hbytes hwhole
  refine List.ext_getElem (by rw [State.length_readBytes, length_plainFrame]) fun i hi hi' => ?_
  rw [State.length_readBytes] at hi
  rw [State.getElem_readBytes, getElem_plainFrame bs hi hi', State.memRead_decodeAt,
    State.memRead_of_readBytes hbytes hi, ← h1, ← hH, ← hL]
  refine if_ctx_congr ⟨fun ⟨⟨_, hm⟩, hlow, _⟩ => ⟨hm, by omega⟩, fun ⟨hm, hlow⟩ => ⟨⟨?_, hm⟩, by omega, by omega⟩⟩
    (fun ⟨hm, _⟩ => ?_) fun _ => rfl
  · rw [hH, hL]
    exact State.frameComplete_of_wholeFrame hbytes hwhole hle
  · rw [hK hm, Nat.add_sub_add_left]

end

/-- The loop on whole frames one after another, and then bytes that hold no whole frame: every frame is consumed, in
order, and the rest is not touched. -/
theorem exists_assembles_wholeFrames {s : State} {a n : Nat} {frames : List (List Byte)} {tail : List Byte}
    (hn : n < 2 ^ 64) (hbytes : s.readBytes a n = frames.flatten ++ tail)
    (hwhole : ∀ bs ∈ frames, isWholeFrame bs = true) (htail : isPartialFrame tail = true) :
    ∃ s', Assembles a n s frames.flatten.length s' ∧
      s'.hnd = s.hnd ++ frameEvents s.params.opcWire a frames ∧
      s'.readBytes a n = (frames.map plainFrame).flatten ++ tail := by
  induction frames generalizing s a n with
  | nil =>
    rw [List.flatten_nil, List.nil_append] at hbytes
    obtain rfl : n = tail.length := by rw [← hbytes, State.length_readBytes]
    refine ⟨s, .stop ?_, (List.append_nil _).symm, hbytes⟩
    rw [State.decodeAt_cpl, ← frameComplete_congr fun k => State.listByte_eq_frameByte hbytes]
    simpa [isPartialFrame] using htail
  | cons bs frames ih =>
    obtain ⟨hbs, hframes⟩ := List.forall_mem_cons.1 hwhole
    rw [List.flatten_cons, List.append_assoc] at hbytes
    obtain ⟨m, rfl⟩ : ∃ m, n = bs.length + m := ⟨(frames.flatten ++ tail).length, by
      rw [← List.length_append, ← hbytes, State.length_readBytes]⟩
    rw [State.readBytes_append] at hbytes
    obtain ⟨hfirst, hrest⟩ := List.append_inj hbytes (State.length_readBytes ..)
    have hle := Nat.le_add_right bs.length m
    obtain ⟨hc, hflen, hevent⟩ := State.decodeAt_wholeFrame hfirst hbs hle hn
    have hrest' : (s.takeFrame a (bs.length + m)).readBytes (a + bs.length) m = frames.flatten ++ tail :=
      (State.readBytes_congr fun i _ => s.memRead_takeFrame_outside hn hc (.inr (by omega))).trans hrest
    obtain ⟨s', h, hhnd, hplain⟩ := ih (by omega) hrest' hframes
    refine ⟨s', ?_, ?_, ?_⟩
    · have hturn := Assembles.frame hc (k := frames.flatten.length) (s' := s')
      rw [hflen, Nat.add_sub_cancel_left] at hturn
      rw [List.flatten_cons, List.length_append]
      exact hturn h
    · rw [hhnd, State.takeFrame_hnd, State.takeFrame_params, ← hevent, List.append_assoc]
      rfl
    · have hdone : s'.readBytes a bs.length = plainFrame bs :=
        (State.readBytes_congr fun i hi => h.memRead_outside (by omega) (.inl (by omega))).trans
          ((State.readBytes_congr fun i _ => s.memRead_takeFrame ..).trans
            (State.readBytes_decodeAt_wholeFrame hfirst hbs hle))
      rw [State.readBytes_append, hdone, hplain, List.map_cons, List.flatten_cons, List.append_assoc]

/-- Settles O35: the loop consumes the frames in order, by induction over their list, and the end changes no byte. -/
theorem assembleConsumesWholeFrames : Obligations.AssembleConsumesWholeFrames := by
  intro s frames tail hin hbytes hwhole htail
  have hn := s.rxValid.isLt
  obtain ⟨s', h, hhnd, hplain⟩ := exists_assembles_wholeFrames hn hbytes hwhole htail
  refine ⟨_, exec_asm_in hin h, rfl, h.endAssembly_cpl, h.toNat_endAssembly_aConsumed hn, ?_, ?_⟩
  · rw [State.endAssembly_hnd, hhnd]
  · rw [← hplain]
    exact State.readBytes_congr fun i _ => h.memRead_endAssembly _

/-! ### The loop sees a state's parameters, bytes and events only (43_assemble R134, 42_decode R122) -/

/-- What the turns of the loop go by, and what they are judged by: the parameters, `MEM` and `HND`. -/
def State.stream (s : State) : Params × Memory × List Event := (s.params, s.mem, s.hnd)

theorem State.stream_eq_iff {r s : State} :
    r.stream = s.stream ↔ r.params = s.params ∧ r.mem = s.mem ∧ r.hnd = s.hnd := by
  simp only [State.stream, Prod.mk.injEq]

theorem State.frameByte_congr {r s : State} (hmem : r.mem = s.mem) (given : List Byte) (a : Nat) :
    r.frameByte given a = s.frameByte given a := by
  unfold State.frameByte State.memRead
  rw [hmem]

theorem State.mem_maskRegion_congr {r s : State} (hmem : r.mem = s.mem) (key : BitVec 32) (a n : Nat) :
    (r.maskRegion key a n).mem = (s.maskRegion key a n).mem := by
  have hread : r.readBytes a n = s.readBytes a n :=
    State.readBytes_congr fun i _ => congrArg (Memory.read · (a + i)) hmem
  unfold State.maskRegion State.writeBytes
  rw [hmem, hread]

/-- A frame that is whole stays whole when more bytes are valid (42_decode R122). -/
theorem frameComplete_mono {n n' h len : Nat} (hc : frameComplete n h len = true) (hle : n ≤ n') :
    frameComplete n' h len = true := by
  rw [frameComplete_iff] at hc ⊢
  omega

/-- Two attempts that find a frame, or none, in the same memory leave the same bytes, however many bytes follow. -/
theorem State.mem_decodeAt_congr {r s : State} (hmem : r.mem = s.mem) {a n n' : Nat}
    (hc : (r.decodeAt [] a n').status.cpl = (s.decodeAt [] a n).status.cpl) :
    (r.decodeAt [] a n').mem = (s.decodeAt [] a n).mem := by
  rw [State.decodeAt_cpl, State.decodeAt_cpl, State.frameByte_congr hmem] at hc
  unfold State.decodeAt State.unmask
  rw [State.frameByte_congr hmem, hc]
  split_ifs
  · exact State.mem_maskRegion_congr (r := r.setDecode _) (s := s.setDecode _) hmem ..
  · exact hmem

section
variable {r s : State} (hstream : r.stream = s.stream) {a n n' : Nat}
include hstream

/-- Whether an attempt finds a frame depends on the bytes only. -/
theorem State.decodeAt_cpl_congr : (r.decodeAt [] a n).status.cpl = (s.decodeAt [] a n).status.cpl := by
  obtain ⟨-, hmem, -⟩ := State.stream_eq_iff.1 hstream
  rw [State.decodeAt_cpl, State.decodeAt_cpl, State.frameByte_congr hmem]

/-- A turn that finds a frame finds it too with more bytes valid, and does the same. -/
theorem State.takeFrame_congr (hc : (s.decodeAt [] a n).status.cpl = true) (hle : n ≤ n') (hn' : n' < 2 ^ 64) :
    (r.decodeAt [] a n').status.cpl = true ∧ (r.decodeAt [] a n').dFlen = (s.decodeAt [] a n).dFlen ∧
      (r.takeFrame a n').stream = (s.takeFrame a n).stream := by
  obtain ⟨hparams, hmem, hhnd⟩ := State.stream_eq_iff.1 hstream
  have hread : r.memRead = s.memRead := funext fun _ => congrArg (Memory.read · _) hmem
  obtain ⟨hwhole, hflen, hpaddr, hlen, hopc⟩ := s.decodeAt_complete hc (hle.trans_lt hn')
  have hc' : (r.decodeAt [] a n').status.cpl = true := by
    rw [State.decodeAt_cpl, State.frameByte_congr hmem]
    exact frameComplete_mono hwhole hle
  obtain ⟨-, hflen', hpaddr', hlen', hopc'⟩ := r.decodeAt_complete hc' hn'
  simp only [hread, hparams] at hflen' hpaddr' hlen' hopc'
  refine ⟨hc', BitVec.eq_of_toNat_eq (hflen'.trans hflen.symm), State.stream_eq_iff.2 ⟨?_, ?_, ?_⟩⟩
  · rw [State.takeFrame_params, State.takeFrame_params, hparams]
  · exact State.mem_decodeAt_congr hmem (hc'.trans hc.symm)
  · rw [State.takeFrame_hnd, State.takeFrame_hnd, hhnd, State.frameEvent, State.frameEvent, hopc, hopc', hpaddr,
      hpaddr', hlen, hlen']

end

/-- The same stream is assembled alike. -/
theorem Assembles.congr {a n k : Nat} {r s s' : State} (h : Assembles a n s k s') (hn : n < 2 ^ 64)
    (hstream : r.stream = s.stream) : ∃ r', Assembles a n r k r' ∧ r'.stream = s'.stream := by
  induction h generalizing r with
  | stop hc => exact ⟨r, .stop ((State.decodeAt_cpl_congr hstream).trans hc), hstream⟩
  | frame hc _ ih =>
    obtain ⟨hc', hflen, hnext⟩ := State.takeFrame_congr hstream hc le_rfl hn
    obtain ⟨r', h', hr'⟩ := ih (by omega) hnext
    rw [← hflen] at h' ⊢
    exact ⟨r', .frame hc' h', hr'⟩

/-- Assembling a first part of the stream, and then what it left over with the rest, is assembling all of it. -/
theorem Assembles.append {a n n' k k' : Nat} {s s' r q q' : State} (h : Assembles a n s k s')
    (h' : Assembles (a + k) (n' - k) q k' q') (hle : n ≤ n') (hn' : n' < 2 ^ 64) (hr : r.stream = s.stream)
    (hq : q.stream = s'.stream) : ∃ r', Assembles a n' r (k + k') r' ∧ r'.stream = q'.stream := by
  induction h generalizing r n' with
  | stop hc =>
    rw [Nat.zero_add]
    exact h'.congr hn' (hr.trans hq.symm)
  | frame hc _ ih =>
    obtain ⟨hc', hflen, hnext⟩ := State.takeFrame_congr hr hc hle hn'
    rw [← Nat.add_assoc, ← Nat.sub_sub] at h'
    obtain ⟨r', hwhole, hr'⟩ := ih h' (Nat.sub_le_sub_right hle _) (by omega) hnext hq
    rw [Nat.add_assoc]
    rw [← hflen] at hwhole ⊢
    exact ⟨r', .frame hc' hwhole, hr'⟩

/-- With no byte left the place does not matter. -/
theorem Assembles.of_empty {a k : Nat} {s s' : State} (h : Assembles a 0 s k s') (a' : Nat) :
    Assembles a' 0 s k s' := by
  cases h with
  | stop => exact .stop (s.decodeAt_cpl ..)
  | frame hc =>
    rw [State.decodeAt_cpl] at hc
    exact absurd hc (by simp [frameComplete_iff])

/-- The end of `ASM` leaves the stream as the loop left it. -/
theorem Assembles.endAssembly_stream {a n k : Nat} {s s' : State} (h : Assembles a n s k s') :
    (s'.endAssembly (a + k) (n - k) k).stream = s'.stream :=
  State.stream_eq_iff.2 ⟨State.endAssembly_params .., h.endAssembly_mem, State.endAssembly_hnd ..⟩

/-- What `ASM` did, told by its next state: its loop consumed `A_CONSUMED` bytes and left the stream. -/
theorem assembles_of_exec_asm {s t : State} (hin : s.rxBase.toNat + s.rxValid.toNat ≤ s.params.memSize)
    (ht : exec .asm s = .next t) :
    ∃ s', Assembles s.rxBase.toNat s.rxValid.toNat s t.aConsumed.toNat s' ∧ t.stream = s'.stream := by
  obtain ⟨k, s', h⟩ := exists_assembles s.rxValid.isLt s.rxBase.toNat s
  obtain rfl := Host.Outcome.next.inj ((exec_asm_in hin h).symm.trans ht)
  refine ⟨s', ?_, h.endAssembly_stream⟩
  rw [h.toNat_endAssembly_aConsumed s.rxValid.isLt]
  exact h

/-- The window with `consumed` bytes dropped (70_reset_and_hazards R169): where its base would be 2^64, no byte is
left in it. -/
theorem toNat_advanced_window {base valid consumed : Word} (hin : base.toNat + valid.toNat ≤ 2 ^ 64)
    (hle : consumed.toNat ≤ valid.toNat) :
    (valid - consumed).toNat = valid.toNat - consumed.toNat ∧
      ((base + consumed).toNat = base.toNat + consumed.toNat ∨
        (base + consumed).toNat = 0 ∧ valid.toNat - consumed.toNat = 0) := by
  refine ⟨BitVec.toNat_sub_of_le hle, ?_⟩
  rw [BitVec.toNat_add]
  omega

/-- Settles O38: the first poll's frames are frames of the whole window, and the second poll goes on where the first
one stopped, on the same bytes and events. -/
theorem assembleInTwoPolls : Obligations.AssembleInTwoPolls := by
  intro s t u n hvalid hin hle ht hu
  obtain ⟨-, hmax, -⟩ := hvalid
  obtain ⟨s₁, h₁, hstream₁⟩ := assembles_of_exec_asm (s := { s with rxValid := n })
    ((Nat.add_le_add_left hle _).trans hin) ht
  obtain ⟨hparams, -, -⟩ := State.stream_eq_iff.1 hstream₁
  rw [h₁.params_eq] at hparams
  have hk : t.aConsumed.toNat ≤ s.rxValid.toNat := (h₁.consumed_le n.isLt).trans hle
  obtain ⟨hleft, hbase⟩ := toNat_advanced_window (hin.trans hmax) hk
  obtain ⟨s₂, h₂, hstream₂⟩ := assembles_of_exec_asm (by simp only [hparams]; omega) hu
  have hrest : Assembles (s.rxBase.toNat + t.aConsumed.toNat) (s.rxValid.toNat - t.aConsumed.toNat)
      { t with rxBase := s.rxBase + t.aConsumed, rxValid := s.rxValid - t.aConsumed } u.aConsumed.toNat s₂ := by
    rw [← hleft]
    obtain hbase | ⟨-, hempty⟩ := hbase
    · exact hbase ▸ h₂
    · rw [hleft, hempty] at h₂ ⊢
      exact h₂.of_empty _
  obtain ⟨s₃, h₃, hstream₃⟩ := h₁.append hrest (r := s) hle s.rxValid.isLt rfl hstream₁
  obtain ⟨-, hmem, hhnd⟩ := State.stream_eq_iff.1 (h₃.endAssembly_stream.trans (hstream₃.trans hstream₂.symm))
  exact ⟨_, exec_asm_in hin h₃, hhnd, h₃.toNat_endAssembly_aConsumed s.rxValid.isLt,
    fun a => congrArg (Memory.read · a) hmem⟩

end Sys2Proof.Machine

namespace Sys2Proof.Machine

/-! ### `NOP` and `TXINIT` (44_control R136, R138) -/

/-- Ending with success is the clearing of `CODE` (60_exceptions R156). -/
theorem State.finish_ok (s : State) : s.finish .ok = { s with status := { s.status with code := 0 } } := by
  rw [State.finish, Status.finish_ok]
  rfl

theorem exec_nop (s : State) : exec .nop s = .next (s.finish .ok) := rfl

theorem exec_txinit (s : State) : exec .txinit s =
    .next ({ s with txWptr := 0, status := { s.status with txab := false } }.finish .ok) := rfl

/-- With the cursor at the start of the window all of its bytes are left. -/
theorem State.txRem_of_txWptr_eq_zero {s : State} (h : s.txWptr = 0) : s.txRem = s.txCap := by
  apply BitVec.eq_of_toNat_eq
  rw [State.toNat_txRem, h]
  rfl

/-- Settles O14: the command is nothing but its ending with success. -/
theorem nopClearsTheCodeOnly : Obligations.NopClearsTheCodeOnly := by
  refine ⟨decodeCommand_commandWord rfl, fun s => ?_⟩
  rw [exec_nop, State.finish_ok]

/-- Settles O15: the rewinding ends with success, and from a rewound cursor the whole window is left. -/
theorem txinitRewindsTheCursor : Obligations.TxinitRewindsTheCursor := by
  refine ⟨decodeCommand_commandWord rfl, fun s => ⟨_, ?_, rfl, State.txRem_of_txWptr_eq_zero rfl⟩⟩
  rw [exec_txinit, State.finish_ok]

end Sys2Proof.Machine

namespace Sys2Proof.Machine

/-! ### Raising an exception (60_exceptions R143, R144, R156) -/

/-- The number of an error is at least 1 (60_exceptions R144). -/
theorem Completion.code_pos {c : Completion} (hc : c ≠ .ok) : 0 < c.code.toNat := by
  revert hc
  cases c <;> decide

/-- The `STICKY` bit of error `k` is bit `k - 1` of the field (10_state R17). -/
theorem Completion.stickyBit_eq_twoPow {c : Completion} (hc : c ≠ .ok) :
    c.stickyBit = BitVec.twoPow 7 (c.code.toNat - 1) := by
  revert hc
  cases c <;> decide

/-- From bit 3 up, raising error `k` sets bit `8 + k` of the `STATUS` word and leaves the others. -/
theorem Status.getLsbD_word_finish (st : Status) {c : Completion} (hc : c ≠ .ok) {b : Nat} (hb : 3 ≤ b) :
    (st.finish c).word.getLsbD b = (st.word.getLsbD b || decide (b = 8 + c.code.toNat)) := by
  have hpos := Completion.code_pos hc
  have hlt := c.code.isLt
  simp only [Status.getLsbD_word, Status.finish_txab, Status.finish_cpl, Status.finish_hdrv, Status.finish_sticky]
  by_cases h9 : b < 9
  · have hne : b ≠ 8 + c.code.toNat := by omega
    simp [hb.not_gt, h9, hne]
  · have hbit : c.stickyBit.getLsbD (b - 9) = decide (b = 8 + c.code.toNat) := by
      rw [Completion.stickyBit_eq_twoPow hc, BitVec.getLsbD_twoPow, ← Bool.decide_and, decide_eq_decide]
      omega
    have h3 : b ≠ 3 ∧ b ≠ 4 ∧ b ≠ 5 := by omega
    simp [hb.not_gt, h9, h3, hbit]

/-- Settles O17: the code is the low field of the word by its layout, and above it the raise sets its one bit. -/
theorem raiseWritesCodeAndStickyOnly : Obligations.RaiseWritesCodeAndStickyOnly := by
  refine ⟨by decide, fun s c hc => ⟨?_, (statusWordLayout _).1, fun b hb hne => ?_, rfl⟩⟩
  · simpa using s.status.getLsbD_word_finish hc (b := 8 + c.code.toNat) (by omega)
  · simpa [hne] using s.status.getLsbD_word_finish hc hb

/-- Settles O47: an instruction's work leads to a next state, whatever its completion code. -/
theorem everyInstructionCompletes : Obligations.EveryInstructionCompletes := fun i s =>
  (exec_work i s).imp fun _ h => h.1

end Sys2Proof.Machine

namespace Sys2Proof.Machine

/-! ### Reset (44_control R137, 70_reset_and_hazards R161, R162) -/

/-- Cleared registers hold no code, so the ending with success of `SRST` adds nothing to them (R162). -/
theorem exec_srst (s : State) : exec .srst s = .next s.clearRegisters :=
  congrArg Host.Outcome.next s.clearRegisters.finish_ok

theorem hostStep_hardReset (s : State) : hostStep .hardReset s = .next s.clearRegisters := rfl

/-- Settles O13: `SRST` and the hard reset lead to the same state, whose registers are all cleared. -/
theorem resetsClearRegistersOnly : Obligations.ResetsClearRegistersOnly :=
  ⟨fun s => ⟨_, exec_srst s, s.readSlot_clearRegisters, rfl, rfl, rfl⟩,
    fun s => ⟨_, hostStep_hardReset s, s.readSlot_clearRegisters, rfl, rfl, rfl⟩⟩

/-! ### The first commands after reset (70_reset_and_hazards R163) -/

/-- A full transmit window has no byte to spoil: a capacity failure changes `STATUS` alone (41_encode R98). -/
theorem State.capacityFailure_finish_of_full {s : State} (hfull : s.encRem = 0) :
    s.capacityFailure.finish .capacity = { s with
      status := { s.status with code := 1, txab := true, sticky := s.status.sticky ||| 1 } } := by
  rw [s.capacityFailure_finish_eq]
  simp [hfull, anyBytes, Memory.storeBytes]

/-- Fewer than 2 bytes hold no header and no frame (42_decode R111, R115). -/
theorem State.decodeAt_status_of_lt_two (s : State) (given : List Byte) (a : Nat) {n : Nat} (hn : n < 2) :
    (s.decodeAt given a n).status = { s.status with hdrv := false, cpl := false } := by
  have hheader (h : Nat) : headerValid n h = false := by simp [headerValid, hn.not_ge]
  simp [frameComplete, hheader]

/-- `DEC` on fewer than 2 valid bytes finds no frame and writes no byte. -/
theorem exec_dec_of_lt_two {s : State} (hin : s.rxBase.toNat + s.rxValid.toNat ≤ s.params.memSize)
    (hn : s.rxValid.toNat < 2) : ∃ t, exec .dec s = .next t ∧
      t.status = { s.status with code := 0, hdrv := false, cpl := false } ∧ t.mem = s.mem := by
  have hstatus := s.decodeAt_status_of_lt_two [] s.rxBase.toNat hn
  refine ⟨_, exec_dec s, ?_⟩
  rw [s.decodeWindow_in [] hin]
  refine ⟨?_, s.mem_decodeAt_incomplete (by rw [hstatus])⟩
  rw [State.finish_status, Status.finish_ok, hstatus]
  rfl

/-- Settles O16: at reset the transmit window is full and the receive window empty, and `ASM` stops where `DEC` finds
no frame. -/
theorem firstCommandsAfterReset : Obligations.FirstCommandsAfterReset := by
  have hin : State.reset.rxBase.toNat + State.reset.rxValid.toNat ≤ State.reset.params.memSize := Nat.zero_le _
  obtain ⟨t, hdec, hstatus, hmem⟩ := exec_dec_of_lt_two hin (by decide)
  have hcpl : t.status.cpl = false := by rw [hstatus]
  obtain ⟨u, hasm, hconsumed, hhnd, hframe⟩ := assembleOfNoFrame State.reset t hin hdec
  obtain ⟨hmem', hu⟩ := hframe hcpl
  refine ⟨?_, ⟨t, hdec, hstatus, hmem⟩, ⟨u, hasm, ?_, hmem', hconsumed.2 hcpl, hhnd.2 hcpl⟩⟩
  · rw [exec_enc, execEnc_capacity rfl rfl (by decide) (by decide) (by decide),
      State.capacityFailure_finish_of_full (by decide)]
    rfl
  · rw [hu]
    exact hstatus

end Sys2Proof.Machine
